-- ==== Sys2Proof/Word.lean ====
section
/-!
DEFINITION. The two word types of RSMASK: a codeword or buffer cell of 8 bits (00_scope.md R7) and a
register of 32 bits (10_state.md R23).
-/
namespace Sys2Proof

/-- A codeword or one byte of a buffer: "an 8-bit unit" (R11). -/
abbrev Byte := BitVec 8

/-- A register of the window; every register is 32 bits wide (R23). -/
abbrev Word := BitVec 32

end Sys2Proof
end

