-- ==== Sys2Proof/Config.lean ====
section
/-!
DEFINITION. What is fixed for one RSMASK and what the spec leaves free: the parameters of
00_scope.md R8 (`Params`, plain data that State carries and no step changes), the error codes of
60_exceptions.md R251, and the free values (opaque constants without a body) of R8, R68 and R282.
-/
namespace Sys2Proof

/-- `P_FLANK_OUTSIDE` (R8, D18): how penalty rule (c) treats flank positions outside the symbol. -/
inductive FlankOutside where
  | light
  | notLight
deriving DecidableEq, Repr

/-- `P_DARK_RATIO` (R8, D19): how penalty rule (d) computes the dark percentage. -/
inductive DarkRatio where
  | exact
  | truncatedPercent
deriving DecidableEq, Repr

/-- The parameters of the model (R8), taken as plain data so that a statement about every state is a
statement about every choice of them. -/
structure Params where
  /-- `P_BASE`, the platform address of the window; the spec leaves it open (D3). -/
  pBase : Nat
  flankOutside : FlankOutside
  darkRatio : DarkRatio
  /-- How many bus masters share the window; the spec models one (R265). -/
  hosts : Nat
deriving DecidableEq, Repr

/-- The error codes of R251. -/
inductive ErrCode where
  | ok
  | badOpcode
  | reservedBits
  | invalidMask
  | badVersion
  | badDegree
  | badLength
deriving DecidableEq, Repr

/-- `initMem` (R8, R281, U1): the byte a buffer cell holds from power-on until something writes it.
Any value: the constant has no body, so nothing can be proved about it (log entry 2:
DESIGN CHOICE, safe). -/
opaque Config.initMem : Nat → Byte

/-- The free draws of R68, R282 and of a read outside the window (R60), numbered by a counter of State;
no body, so a draw is under no law (log entry 3: DESIGN CHOICE, safe). A draw of fewer bits takes the
low bits. -/
opaque Config.freeValue : Nat → Word

end Sys2Proof
end

