-- ==== Sys2Proof/Machine/State.lean ====
section
/-!
DEFINITION. The state of RSMASK as plain data (10_state.md R20 to R45) with the one host beside it
(00_scope.md R6), the reasons a step can stop, and the state after power-on reset.
-/
namespace Sys2Proof.Machine

/-- The fields of STATUS (R25); the reserved bits read 0 and hold nothing. -/
structure Status where
  busy : Bool
  done : Bool
  ovr : Bool
  buserr : Bool
  errcode : Byte
deriving DecidableEq, Repr

/-- The fields of CONFIG (R28); the reserved bits read 0 and hold nothing. -/
structure ConfigReg where
  version : BitVec 6
  ecl : BitVec 2
deriving DecidableEq, Repr

/-- The VAL operand of a host script's `bnz` (R100): a number, or the value the last `rd` line read. -/
inductive HostValue where
  | lit (v : Word)
  | last
deriving DecidableEq, Repr

/-- The lines of a host script (R100). `rd off 4` is `rd32 OFF`, `rd off 1` is `rd8 OFF`; other widths
are the illegal accesses of R60. Offsets are window offsets. -/
inductive HostLine where
  | rd (off n : Nat)
  | wr (off n : Nat) (v : Word)
  | label (l : Nat)
  | bnz (v : HostValue) (mask : Word) (l : Nat)
deriving DecidableEq, Repr

/-- Whose step comes next (R6): the engine's, the host's, or the platform asserting `rst` (R280). -/
inductive Turn where
  | engine
  | host
  | reset
deriving DecidableEq, Repr

/-- Everything the spec gives the machine. SIZE, RAW_CW, DATA_CW, BLOCKS, ID and irq are functions of
these fields (R21, R35, R255); REM and the trial grids exist only inside one command (R43;
log entry 10: DEDUCED, safe). -/
structure State where
  /-- The parameters of R8; no step changes them. -/
  params : Params
  /-- CTRL.IE (R24). -/
  ie : Bool
  /-- STATUS (R25). -/
  status : Status
  /-- CMD, the last accepted command word; pending while BUSY = 1 (R27, R43). -/
  cmd : Word
  /-- CONFIG (R28). -/
  config : ConfigReg
  /-- ARG0 (R31). -/
  arg0 : Word
  /-- ARG1 (R31). -/
  arg1 : Word
  /-- RESULT (R32). -/
  result : Word
  /-- BEST_MASK bits [2:0] (R33). -/
  bestMask : BitVec 3
  /-- GEN_DEG bits [4:0] (R34). -/
  genDeg : BitVec 5
  /-- GEN[0..30], bits [7:0] of each word (R36). -/
  gen : Vector Byte 31
  /-- SCORE[0..7] (R37). -/
  score : Vector Word 8
  /-- DATA_BUF, OUT_BUF and GRID (R38 to R41): the cells written since power-on, by window offset. -/
  mem : List Host.Cell
  /-- The host's script and its position in it (R6, R100). -/
  script : List HostLine
  pos : Nat
  /-- The value the host's last read returned; the model's own field (log entry 4: DESIGN CHOICE,
  unsafe). -/
  lastRead : Word
  /-- The turns the interleaving takes next, first one first; the model's own field (log entry 5:
  DESIGN CHOICE, safe over all schedules). -/
  schedule : List Turn
  /-- How many free draws have been taken; the model's own field (log entry 3:
  DESIGN CHOICE, safe). -/
  draws : Nat
deriving DecidableEq, Repr

/-- RSMASK never stops: every error is a status code or bit and the machine goes on (R254, R257), so
there is no fault to raise. -/
inductive Fault where
deriving DecidableEq, Repr

/-- Why the model gives a step no meaning. -/
inductive Refusal where
  /-- Raised by an arm of `exec` whose instruction has no meaning yet; no arm does. Safe. -/
  | notModelled (mnemonic : String)
  /-- Raised by `step` when more than one bus master shares the window: "A model should refuse (leave
  unmodelled) a configuration with more than one host" (R265, U8). Safe. -/
  | multipleHosts
  /-- Raised by the host's turn at a `bnz` line whose label stands nowhere in the script: such a text is
  no script of R100. Safe: RSMASK itself is not involved. -/
  | undefinedLabel (l : Nat)
deriving DecidableEq, Repr

/-- The state after power-on reset (R45, R280, R283): every register at its reset value, no pending
command, and no buffer cell written, so each still holds `initMem`. The parameters take the defaults of
R8; `pBase`, which has none, is 0 (log entry 1: DESIGN CHOICE, unsafe). The host has no script and
nothing is scheduled. -/
def State.reset : State where
  params := { pBase := 0, flankOutside := .light, darkRatio := .exact, hosts := 1 }
  ie := false
  status := { busy := false, done := false, ovr := false, buserr := false, errcode := 0 }
  cmd := 0
  config := { version := 0, ecl := 0 }
  arg0 := 0
  arg1 := 0
  result := 0
  bestMask := 0
  genDeg := 0
  gen := Vector.replicate 31 0
  score := Vector.replicate 8 0
  mem := []
  script := []
  pos := 0
  lastRead := 0
  schedule := []
  draws := 0

end Sys2Proof.Machine
end

