-- ==== Sys2Proof/Machine/Field.lean ====
section
/-!
DEFINITION. GF(256) arithmetic, the generator polynomial and the Reed-Solomon remainder
(41_gf_rs.md R120 to R126). The representation and the roots are PRESUMED by the spec itself (log entry
18: unsafe of QR symbols, exact for RSMASK).
-/
namespace Sys2Proof.Machine

/-- Field addition and subtraction (R121). -/
def gfAdd (a b : Byte) : Byte := a ^^^ b

/-- The product of the two polynomials, before reduction: up to 15 bits (R122). -/
def clmul (a b : Byte) : BitVec 16 :=
  (List.range 8).foldl (fun p i => if b.getLsbD i then p ^^^ (a.setWidth 16 <<< i) else p) 0

/-- Reduction modulo 0x11D, from bit 14 down to bit 8 (R122). -/
def gfReduce (p : BitVec 16) : BitVec 16 :=
  [14, 13, 12, 11, 10, 9, 8].foldl
    (fun p k => if p.getLsbD k then p ^^^ (0x11D#16 <<< (k - 8)) else p) p

/-- `gf_mul(a, b)` (R122). -/
def gfMul (a b : Byte) : Byte := (gfReduce (clmul a b)).setWidth 8

/-- `EXP[i]`, the powers of the primitive element 0x02 (R123). -/
def gfExp : Nat → Byte
  | 0 => 0x01
  | i + 1 => gfMul (gfExp i) 0x02

/-- `LOG[v]`: the first i with `EXP[i] = v`; R123 leaves LOG[0] undefined and no rule reads it (U15). -/
def gfLog (v : Byte) : Option Nat := (List.range 255).find? (fun i => gfExp i == v)

/-- One factor more: `g * (x - r)`, coefficients highest power first (R124). -/
def genStep (g : List Byte) (r : Byte) : List Byte :=
  List.zipWith gfAdd (g ++ [0]) (0 :: g.map (fun c => gfMul c r))

/-- `genpoly(d)`: the product of (x - α^i) for i below d, highest power first (R124). -/
def genPoly (d : Nat) : List Byte := (List.range d).foldl (fun g i => genStep g (gfExp i)) [0x01]

/-- One message byte through the shift register REM with the generator `g` (R126). -/
def remStep (g rem : List Byte) (m : Byte) : List Byte :=
  let f := gfAdd m (rem.headD 0)
  List.zipWith (fun r c => gfAdd r (gfMul c f)) (rem.tail ++ [0]) g.tail

/-- `rsrem(msg, d)`: the shift register's contents after the whole message (R126). -/
def rsRem (msg : List Byte) (d : Nat) : List Byte :=
  let g := genPoly d
  msg.foldl (remStep g) (List.replicate d 0)

end Sys2Proof.Machine
end

