-- ==== Sys2Proof/Machine/Flags.lean ====
section
/-!
DEFINITION. Every computation on the flags (10_state.md R24 to R26, R28, R44): the words STATUS, CTRL
and CONFIG read as, the completion and acceptance flags, write-1-to-clear, and irq.
-/
namespace Sys2Proof.Machine

/-- The byte of an error code (R251). -/
def errByte : ErrCode → Byte
  | .ok => 0x00
  | .badOpcode => 0x01
  | .reservedBits => 0x02
  | .invalidMask => 0x03
  | .badVersion => 0x04
  | .badDegree => 0x05
  | .badLength => 0x06

/-- The word STATUS reads as (R25). -/
def statusWord (t : Status) : Word :=
  0#16 ++ t.errcode ++ 0#4 ++ BitVec.ofBool t.buserr ++ BitVec.ofBool t.ovr
    ++ BitVec.ofBool t.done ++ BitVec.ofBool t.busy

/-- The word CTRL reads as (R24). -/
def ctrlWord (ie : Bool) : Word := 0#31 ++ BitVec.ofBool ie

/-- The word CONFIG reads as (R28). -/
def configWord (c : ConfigReg) : Word := 0#22 ++ c.ecl ++ 0#2 ++ c.version

/-- What a write of `v` to CONFIG stores: `v[5:0]` and `v[9:8]` (R28). -/
def configOfWord (v : Word) : ConfigReg :=
  { version := v.extractLsb' 0 6, ecl := v.extractLsb' 8 2 }

/-- A host write of `v` to STATUS: write 1 to clear DONE, OVR and BUSERR (R26). -/
def clearOnWrite (t : Status) (v : Word) : Status :=
  { t with
    done := t.done && !v.getLsbD 1
    ovr := t.ovr && !v.getLsbD 2
    buserr := t.buserr && !v.getLsbD 3 }

/-- The flags at acceptance: BUSY set, DONE cleared, the rest kept (R110). -/
def acceptFlags (t : Status) : Status := { t with busy := true, done := false }

/-- The flags at completion: ERRCODE written, BUSY cleared, DONE set (R112). -/
def completeFlags (t : Status) (code : ErrCode) : Status :=
  { t with busy := false, done := true, errcode := errByte code }

/-- `irq = CTRL.IE AND STATUS.DONE` (R255). -/
def State.irq (s : State) : Bool := s.ie && s.status.done

end Sys2Proof.Machine
end

