-- ==== Sys2Proof/Machine/Memory.lean ====
section
/-!
DEFINITION. The three buffers as one memory keyed by window offset (10_state.md R38 to R41,
20_memory.md R62, R64): which offsets hold a byte, reading one byte, and replacing the cells of a
range or of a grid square. A cell that nothing has written is not listed and holds `Config.initMem`.
-/
namespace Sys2Proof.Machine

/-- DATA_BUF: offsets 0x1000 to 0x1FFF (R38). -/
def isDataBuf (a : Nat) : Bool := decide (0x1000 ≤ a) && decide (a < 0x2000)

/-- OUT_BUF: offsets 0x2000 to 0x2FFF (R39). -/
def isOutBuf (a : Nat) : Bool := decide (0x2000 ≤ a) && decide (a < 0x3000)

/-- A mapped GRID cell: an offset 0x10000 + y*256 + x with x and y below 177 (R40). -/
def isGridCell (a : Nat) : Bool :=
  decide (0x10000 ≤ a) && decide ((a - 0x10000) / 256 < 177) && decide ((a - 0x10000) % 256 < 177)

/-- The offsets that hold a byte: the three buffer regions (R62, R64). -/
def isBuffer (a : Nat) : Bool := isDataBuf a || isOutBuf a || isGridCell a

/-- The offset of DATA_BUF[i] (R38). -/
def dataAddr (i : Nat) : Nat := 0x1000 + i

/-- The offset of OUT_BUF[i] (R39). -/
def outAddr (i : Nat) : Nat := 0x2000 + i

/-- The offset of GRID cell (x, y), column x and row y (R40, R180). -/
def gridAddr (x y : Nat) : Nat := 0x10000 + y * 256 + x

/-- The cell listed for an offset, if any. -/
def Memory.get : List Host.Cell → Nat → Option Byte
  | [], _ => none
  | (k, v) :: m, a => if k = a then some v else Memory.get m a

/-- What an unlisted offset holds: no written byte, so its power-on byte `initMem` (R8, R281). -/
def Memory.unlisted (a : Nat) : Byte := Config.initMem a

/-- The byte at an offset; of a GRID cell only bits [1:0] exist (R41). -/
def Memory.byteAt (m : List Host.Cell) (a : Nat) : Byte :=
  let b := (Memory.get m a).getD (Memory.unlisted a)
  if isGridCell a then b &&& 3 else b

/-- The canonical form: offsets strictly rising, every listed offset one that holds a byte, and a GRID
cell's reserved bits [7:2] zero (R41). An unlisted offset holds no written byte, so no entry repeats
what an unlisted offset stands for. -/
abbrev Memory.wf (m : List Host.Cell) : Prop :=
  m.Pairwise (fun c d => c.1 < d.1) ∧
    ∀ c ∈ m, isBuffer c.1 = true ∧ (isGridCell c.1 = true → c.2 &&& 3 = c.2)

/-- The cells of `m` with offsets in `[lo, hi)` replaced by `cells`. -/
def Memory.replaceRegion (m : List Host.Cell) (lo hi : Nat) (cells : List Host.Cell) :
    List Host.Cell :=
  m.filter (fun c => decide (c.1 < lo)) ++ cells ++ m.filter (fun c => decide (hi ≤ c.1))

/-- The listed cells with offsets in `[lo, lo + n)`. -/
def Memory.window (m : List Host.Cell) (lo n : Nat) : List Host.Cell :=
  m.filter (fun c => decide (lo ≤ c.1) && decide (c.1 < lo + n))

/-- The cells `f` gives for the offsets `[lo, lo + n)`, from what is listed there. -/
def Memory.mapCells (w : List Host.Cell) (lo n : Nat) (f : Nat → Option Byte → Option Byte) :
    List Host.Cell :=
  (List.range n).filterMap (fun i => (f i (Memory.get w (lo + i))).map (fun b => (lo + i, b)))

/-- Every offset `lo + i` of a range changed by `f i`; `none` is "not written". -/
def Memory.mapRange (m : List Host.Cell) (lo n : Nat) (f : Nat → Option Byte → Option Byte) :
    List Host.Cell :=
  Memory.replaceRegion m lo (lo + n) (Memory.mapCells (Memory.window m lo n) lo n f)

/-- Every GRID cell (x, y) of the `size`-by-`size` square changed by `f x y`, row after row. -/
def Memory.mapSquare (m : List Host.Cell) (size : Nat)
    (f : Nat → Nat → Option Byte → Option Byte) : List Host.Cell :=
  (List.range size).foldl (fun m y => Memory.mapRange m (gridAddr 0 y) size (fun x => f x y)) m

/-- One byte stored (R62); of a GRID cell only `v[1:0]` (R41). -/
def Memory.setByte (m : List Host.Cell) (a : Nat) (v : Byte) : List Host.Cell :=
  Memory.mapRange m a 1 (fun _ _ => some (if isGridCell a then v &&& 3 else v))

/-- Bytes stored one after another from an offset. -/
def Memory.setBytes (m : List Host.Cell) (lo : Nat) (bs : List Byte) : List Host.Cell :=
  Memory.mapRange m lo bs.length (fun i _ => bs[i]?)

/-- The `n` bytes from an offset. -/
def Memory.readBytes (m : List Host.Cell) (lo n : Nat) : List Byte :=
  let w := Memory.window m lo n
  (List.range n).map (fun i => Memory.byteAt w (lo + i))

/-- A GRID cell's two bits (R41): dark, and function module. -/
structure GridCell where
  dark : Bool
  func : Bool
deriving DecidableEq, Repr

/-- The fields of a GRID byte: DARK is bit 0, FUNC is bit 1 (R41). -/
def cellOfByte (b : Byte) : GridCell := { dark := b.getLsbD 0, func := b.getLsbD 1 }

/-- GRID cell (x, y). -/
def Memory.cellAt (m : List Host.Cell) (x y : Nat) : GridCell :=
  cellOfByte (Memory.byteAt m (gridAddr x y))

/-- The cells of the `size`-by-`size` square, row by row from the top (R42, R200). -/
def Memory.readSquare (m : List Host.Cell) (size : Nat) : List (List GridCell) :=
  (List.range size).map (fun y =>
    let w := Memory.window m (gridAddr 0 y) size
    (List.range size).map (fun x => Memory.cellAt w x y))

/-- Every mapped GRID cell with the byte `f x y`, in offset order. -/
def allGridCells (f : Nat → Nat → Byte) : List Host.Cell :=
  (List.range 177).flatMap (fun y => (List.range 177).map (fun x => (gridAddr x y, f x y)))

/-- Every mapped GRID cell set to `f x y` (R114, R282); the region holds nothing else. -/
def Memory.fillGrid (m : List Host.Cell) (f : Nat → Nat → Byte) : List Host.Cell :=
  Memory.replaceRegion m 0x10000 0x20000 (allGridCells f)

/-- The byte the host or a statement sees at a window offset: none where no byte is mapped (R64). -/
def State.readByte (s : State) (a : Nat) : Option Byte :=
  if isBuffer a then some (Memory.byteAt s.mem a) else none

end Sys2Proof.Machine
end

