-- ==== Sys2Proof/Syntax.lean ====
section
/-!
DEFINITION. The commands of RSMASK-1: one constructor per row of spec/opcode_table.json
(30_encoding.md R91).
-/
namespace Sys2Proof

/-- The eleven commands (R91). Operands that come from registers are no part of the command word
(R92); the mask index is the 4-bit field MIDX, kept whole so that an index outside 0 to 7 can be
written (R93). -/
inductive Instr where
  | nop
  | gfMul
  | genPoly
  | rsBlock
  | eccEncode
  | gridClear
  | applyMask (m : BitVec 4)
  | score
  | selectMask
  | formatWord (m : BitVec 4)
  | versionWord
deriving DecidableEq, Repr

end Sys2Proof
end

