-- ==== Sys2Proof/WellFormed.lean ====
section
/-!
DEFINITION. Which commands have an encoding that decodes to them: a mask index from 0 to 7
(30_encoding.md R93).
-/
namespace Sys2Proof

/-- "m from 0 to 7 selects a mask and m from 8 to 15 raises INVALID_MASK" (R93); the other nine
commands have no field to check. -/
def Instr.wellFormed : Instr → Bool
  | .nop => true
  | .gfMul => true
  | .genPoly => true
  | .rsBlock => true
  | .eccEncode => true
  | .gridClear => true
  | .applyMask m => decide (m.toNat < 8)
  | .score => true
  | .selectMask => true
  | .formatWord m => decide (m.toNat < 8)
  | .versionWord => true

end Sys2Proof
end

