-- ==== Sys2Proof/Decode.lean ====
section
/-!
DEFINITION. Decoding a command word (30_encoding.md R90, R94), total on all 2^32 words and rejecting
by the error's name, and the encoder written from the same table (R91).
-/
namespace Sys2Proof

/-- OPC, bits [7:0] of a command word (R90). -/
def opcField (w : Word) : BitVec 8 := w.extractLsb' 0 8

/-- MIDX, bits [11:8] (R90). -/
def midxField (w : Word) : BitVec 4 := w.extractLsb' 8 4

/-- RSV, bits [31:12] (R90). -/
def rsvField (w : Word) : BitVec 20 := w.extractLsb' 12 20

/-- A command of the nine opcodes whose MIDX "must be 0" (R91): a nonzero MIDX is RESERVED_BITS (R94). -/
def decodePlain (i : Instr) (w : Word) : Except ErrCode Instr :=
  if midxField w ≠ 0 then .error .reservedBits else .ok i

/-- A command of the two opcodes that take a mask index: 8 to 15 is INVALID_MASK (R93, R94). -/
def decodeMasked (i : BitVec 4 → Instr) (w : Word) : Except ErrCode Instr :=
  if 8 ≤ (midxField w).toNat then .error .invalidMask else .ok (i (midxField w))

/-- The command that a word's OPC names, once OPC and RSV are known to be legal (R91, R94). -/
def decodeOpcode (w : Word) : Except ErrCode Instr :=
  match (opcField w).toNat with
  | 0x00 => decodePlain .nop w
  | 0x01 => decodePlain .gfMul w
  | 0x02 => decodePlain .genPoly w
  | 0x03 => decodePlain .rsBlock w
  | 0x04 => decodePlain .eccEncode w
  | 0x05 => decodePlain .gridClear w
  | 0x06 => decodeMasked .applyMask w
  | 0x07 => decodePlain .score w
  | 0x08 => decodePlain .selectMask w
  | 0x09 => decodeMasked .formatWord w
  | 0x0A => decodePlain .versionWord w
  | _ => .error .badOpcode

/-- `decode(w)` of R94: BAD_OPCODE, then RESERVED_BITS, then INVALID_MASK, else the command. -/
def decode (w : Word) : Except ErrCode Instr :=
  if 0x0A < (opcField w).toNat then .error .badOpcode
  else if rsvField w ≠ 0 then .error .reservedBits
  else decodeOpcode w

/-- The opcode of a command (R91). -/
def opcodeOf : Instr → BitVec 8
  | .nop => 0x00
  | .gfMul => 0x01
  | .genPoly => 0x02
  | .rsBlock => 0x03
  | .eccEncode => 0x04
  | .gridClear => 0x05
  | .applyMask _ => 0x06
  | .score => 0x07
  | .selectMask => 0x08
  | .formatWord _ => 0x09
  | .versionWord => 0x0A

/-- The MIDX field of a command's word: the mask index, else 0 (R91). -/
def midxOf : Instr → BitVec 4
  | .nop => 0
  | .gfMul => 0
  | .genPoly => 0
  | .rsBlock => 0
  | .eccEncode => 0
  | .gridClear => 0
  | .applyMask m => m
  | .score => 0
  | .selectMask => 0
  | .formatWord m => m
  | .versionWord => 0

/-- The command word of an instruction: RSV = 0, MIDX, OPC (R90, R91). -/
def encode (i : Instr) : Word := (0#20 ++ midxOf i) ++ opcodeOf i

/-- The instruction the decoder reads from a table row's word of `nbits` bits; every command is one
32-bit word (R96), and bits above `nbits` are 0. -/
def decodeTableWord (nbits w : Nat) : Option Instr :=
  match decode (BitVec.ofNat 32 (w % 2 ^ nbits)) with
  | .ok i => some i
  | .error _ => none

end Sys2Proof
end

