-- ==== Sys2Proof/Machine/Tables.lean ====
section
/-!
DEFINITION. Levels, geometry and the per-(version, level) tables (42_ecc_block.md R150 to R155). The
level codes, the raw-module formula and the table are PRESUMED by the spec itself (log entry 18: unsafe
of QR symbols, exact for RSMASK).
-/
namespace Sys2Proof.Machine

/-- The four error-correction levels, by name (R29, R150). -/
inductive Level where
  | low
  | medium
  | quartile
  | high
deriving DecidableEq, Repr

/-- The level of a format-bit code: 0b00 M, 0b01 L, 0b10 H, 0b11 Q (R29, R150). -/
def levelOf (ecl : BitVec 2) : Level :=
  if ecl = 0b00#2 then .medium
  else if ecl = 0b01#2 then .low
  else if ecl = 0b10#2 then .high
  else .quartile

/-- `valid(VERSION)` of R30. -/
abbrev validVersion (v : Nat) : Prop := 1 ≤ v ∧ v ≤ 40

/-- `size(v) = 4*v + 17` (R7, R152). -/
def symbolSize (v : Nat) : Nat := 4 * v + 17

/-- `rawModules(v)` (R151). -/
def rawModules (v : Nat) : Nat :=
  let r := (16 * v + 128) * v + 64
  if 2 ≤ v then
    let numAlign := v / 7 + 2
    let r := r - ((25 * numAlign - 10) * numAlign - 55)
    if 7 ≤ v then r - 36 else r
  else r

/-- `RAW_CW(v)`, the codewords the symbol holds (R152). -/
def rawCw (v : Nat) : Nat := rawModules v / 8

/-- One row of R153's table: the four ECC_PER_BLOCK columns and the four NUM_BLOCKS columns, each in
the order L, M, Q, H. -/
structure EccRow where
  eccL : Nat
  eccM : Nat
  eccQ : Nat
  eccH : Nat
  nbL : Nat
  nbM : Nat
  nbQ : Nat
  nbH : Nat
deriving DecidableEq, Repr

/-- The rows of versions 1 to 10 of R153's table. -/
def eccRows0 : List EccRow :=
  [
    ⟨7, 10, 13, 17, 1, 1, 1, 1⟩,
    ⟨10, 16, 22, 28, 1, 1, 1, 1⟩,
    ⟨15, 26, 18, 22, 1, 1, 2, 2⟩,
    ⟨20, 18, 26, 16, 1, 2, 2, 4⟩,
    ⟨26, 24, 18, 22, 1, 2, 4, 4⟩,
    ⟨18, 16, 24, 28, 2, 4, 4, 4⟩,
    ⟨20, 18, 18, 26, 2, 4, 6, 5⟩,
    ⟨24, 22, 22, 26, 2, 4, 6, 6⟩,
    ⟨30, 22, 20, 24, 2, 5, 8, 8⟩,
    ⟨18, 26, 24, 28, 4, 5, 8, 8⟩
  ]

/-- The rows of versions 11 to 20 of R153's table. -/
def eccRows1 : List EccRow :=
  [
    ⟨20, 30, 28, 24, 4, 5, 8, 11⟩,
    ⟨24, 22, 26, 28, 4, 8, 10, 11⟩,
    ⟨26, 22, 24, 22, 4, 9, 12, 16⟩,
    ⟨30, 24, 20, 24, 4, 9, 16, 16⟩,
    ⟨22, 24, 30, 24, 6, 10, 12, 18⟩,
    ⟨24, 28, 24, 30, 6, 10, 17, 16⟩,
    ⟨28, 28, 28, 28, 6, 11, 16, 19⟩,
    ⟨30, 26, 28, 28, 6, 13, 18, 21⟩,
    ⟨28, 26, 26, 26, 7, 14, 21, 25⟩,
    ⟨28, 26, 30, 28, 8, 16, 20, 25⟩
  ]

/-- The rows of versions 21 to 30 of R153's table. -/
def eccRows2 : List EccRow :=
  [
    ⟨28, 26, 28, 30, 8, 17, 23, 25⟩,
    ⟨28, 28, 30, 24, 9, 17, 23, 34⟩,
    ⟨30, 28, 30, 30, 9, 18, 25, 30⟩,
    ⟨30, 28, 30, 30, 10, 20, 27, 32⟩,
    ⟨26, 28, 30, 30, 12, 21, 29, 35⟩,
    ⟨28, 28, 28, 30, 12, 23, 34, 37⟩,
    ⟨30, 28, 30, 30, 12, 25, 34, 40⟩,
    ⟨30, 28, 30, 30, 13, 26, 35, 42⟩,
    ⟨30, 28, 30, 30, 14, 28, 38, 45⟩,
    ⟨30, 28, 30, 30, 15, 29, 40, 48⟩
  ]

/-- The rows of versions 31 to 40 of R153's table. -/
def eccRows3 : List EccRow :=
  [
    ⟨30, 28, 30, 30, 16, 31, 43, 51⟩,
    ⟨30, 28, 30, 30, 17, 33, 45, 54⟩,
    ⟨30, 28, 30, 30, 18, 35, 48, 57⟩,
    ⟨30, 28, 30, 30, 19, 37, 51, 60⟩,
    ⟨30, 28, 30, 30, 19, 38, 53, 63⟩,
    ⟨30, 28, 30, 30, 20, 40, 56, 66⟩,
    ⟨30, 28, 30, 30, 21, 43, 59, 70⟩,
    ⟨30, 28, 30, 30, 22, 45, 62, 74⟩,
    ⟨30, 28, 30, 30, 24, 47, 65, 77⟩,
    ⟨30, 28, 30, 30, 25, 49, 68, 81⟩
  ]

/-- The table of R153: entry `v - 1` is the row of version `v`. -/
def eccTable : List EccRow := eccRows0 ++ eccRows1 ++ eccRows2 ++ eccRows3

/-- The row of a version; a version outside the table has no blocks. -/
def eccRow (v : Nat) : EccRow := (eccTable[v - 1]?).getD ⟨0, 0, 0, 0, 0, 0, 0, 0⟩

/-- `ECC_PER_BLOCK(level, v)` (R153). -/
def eccPerBlock (lv : Level) (v : Nat) : Nat :=
  match lv with
  | .low => (eccRow v).eccL
  | .medium => (eccRow v).eccM
  | .quartile => (eccRow v).eccQ
  | .high => (eccRow v).eccH

/-- `NUM_BLOCKS(level, v)` (R153). -/
def numBlocks (lv : Level) (v : Nat) : Nat :=
  match lv with
  | .low => (eccRow v).nbL
  | .medium => (eccRow v).nbM
  | .quartile => (eccRow v).nbQ
  | .high => (eccRow v).nbH

/-- `DATA_CW(level, v)` (R155). -/
def dataCw (lv : Level) (v : Nat) : Nat := rawCw v - eccPerBlock lv v * numBlocks lv v

/-- SHORT_DATA_LEN (R156). -/
def shortDataLen (lv : Level) (v : Nat) : Nat := dataCw lv v / numBlocks lv v

/-- NUM_LONG (R156). -/
def numLong (lv : Level) (v : Nat) : Nat := dataCw lv v % numBlocks lv v

end Sys2Proof.Machine
end

