-- ==== Sys2Proof/Machine/Operands.lean ====
section
/-!
DEFINITION. Operand assembly (30_encoding.md R92, R93) and the operand and configuration checks of
60_exceptions.md R252 that follow decoding.
-/
namespace Sys2Proof.Machine

/-- GF_MUL's a: `ARG0[7:0]` (R92). -/
def State.opA (s : State) : Byte := s.arg0.extractLsb' 0 8

/-- GF_MUL's b: `ARG1[7:0]` (R92). -/
def State.opB (s : State) : Byte := s.arg1.extractLsb' 0 8

/-- d of GEN_POLY and RS_BLOCK: `ARG1[7:0]` (R92). -/
def State.opDegree (s : State) : Nat := (s.arg1.extractLsb' 0 8).toNat

/-- n of RS_BLOCK: `ARG0[15:0]` (R92). -/
def State.opLength (s : State) : Nat := (s.arg0.extractLsb' 0 16).toNat

/-- `v = Reg[CONFIG].VERSION`. -/
def State.version (s : State) : Nat := s.config.version.toNat

/-- The level CONFIG.ECL selects (R150). -/
def State.level (s : State) : Level := levelOf s.config.ecl

/-- The side of the current square (R42). -/
def State.size (s : State) : Nat := symbolSize s.version

/-- The code of the first failing of two checks: `c` unless it is OK (R252). -/
def firstFailing (c d : ErrCode) : ErrCode := if c = .ok then d else c

/-- INVALID_MASK if MIDX is in [8, 15] (R93, R251), checked here as well as in `decode` (log entry 13:
DEDUCED, safe). -/
def checkMask (m : BitVec 4) : ErrCode := if 8 ≤ m.toNat then .invalidMask else .ok

/-- BAD_VERSION if VERSION is not in [1, 40] (R30, R251). -/
def checkVersion (s : State) : ErrCode := if validVersion s.version then .ok else .badVersion

/-- BAD_VERSION if VERSION is not in [7, 40] (R233). -/
def checkVersionWord (s : State) : ErrCode :=
  if validVersion s.version ∧ 7 ≤ s.version then .ok else .badVersion

/-- BAD_DEGREE if d is not in [1, 30] (R128, R251). -/
def checkDegree (s : State) : ErrCode :=
  if 1 ≤ s.opDegree ∧ s.opDegree ≤ 30 then .ok else .badDegree

/-- BAD_LENGTH if n > 4096 (R129, R251). -/
def checkLength (s : State) : ErrCode := if 4096 < s.opLength then .badLength else .ok

/-- The checks a decoded command makes before any write, in the order of R252. -/
def checkOf (i : Instr) (s : State) : ErrCode :=
  match i with
  | .nop => .ok
  | .gfMul => .ok
  | .genPoly => checkDegree s
  | .rsBlock => firstFailing (checkDegree s) (checkLength s)
  | .eccEncode => checkVersion s
  | .gridClear => .ok
  | .applyMask m => firstFailing (checkMask m) (checkVersion s)
  | .score => checkVersion s
  | .selectMask => checkVersion s
  | .formatWord m => checkMask m
  | .versionWord => checkVersionWord s

end Sys2Proof.Machine
end

