-- ==== Sys2Proof/Machine/Ops.lean ====
section
/-!
DEFINITION. The operations every command shares (40_control.md R110 to R112, 60_exceptions.md R250):
accepting a command word, completing with a code, ending a command with an error before any write, and
the GEN file. RSMASK has no trap entry and no return (R257, R258): completing with an error code is all
that raising an error is.
-/
namespace Sys2Proof.Machine

/-- What a command answers. -/
abbrev Result := Host.Outcome State Fault Refusal

/-- Acceptance of a command word: CMD latched, BUSY set, DONE cleared, ERRCODE kept (R110). -/
def State.accept (s : State) (w : Word) : State :=
  { s with cmd := w, status := acceptFlags s.status }

/-- Completion with a code (R112). -/
def State.complete (s : State) (code : ErrCode) : State :=
  { s with status := completeFlags s.status code }

/-- The end of a command (R111, R112, R250): its effect applied only if no check failed, then
completion with the code (log entry 14: DESIGN CHOICE, safe). -/
def finish (code : ErrCode) (effect : State → State) (s : State) : Result :=
  .next (State.complete (if code = .ok then effect s else s) code)

/-- A register or score file whose entry i is `f i`. -/
def fileOf {α : Type} (n : Nat) (f : Nat → α) : Vector α n :=
  ⟨((List.range n).map f).toArray, by simp⟩

/-- The GEN file of degree d: the coefficients, and zeros above (R36, R128). -/
def genFile (d : Nat) : Vector Byte 31 :=
  let g := genPoly d
  fileOf 31 (fun i => if i ≤ d then g.getD i 0 else 0)

/-- GEN and GEN_DEG after the generator of degree d is built (R128). -/
def State.setGenerator (s : State) (d : Nat) : State :=
  { s with gen := genFile d, genDeg := BitVec.ofNat 5 d }

/-- RESULT written with a number (R32). -/
def State.setResult (s : State) (v : Nat) : State := { s with result := BitVec.ofNat 32 v }

/-- Bytes written to OUT_BUF from offset 0 (R39). -/
def State.writeOut (s : State) (bs : List Byte) : State :=
  { s with mem := Memory.setBytes s.mem (outAddr 0) bs }

/-- `DATA_BUF[0..n)` (R38). -/
def State.dataBytes (s : State) (n : Nat) : List Byte := Memory.readBytes s.mem (dataAddr 0) n

/-- The cells of the current square (R42, R200). -/
def State.square (s : State) : List (List GridCell) := Memory.readSquare s.mem s.size

end Sys2Proof.Machine
end

