-- ==== Sys2Proof/Machine/Control.lean ====
section
/-!
DEFINITION. The two control commands (40_control.md R113, R114).
-/
namespace Sys2Proof.Machine

/-- NOP: no writes (R113). -/
def execNop (s : State) : Result := finish (checkOf .nop s) id s

/-- GRID_CLEAR: every cell of the 177-by-177 grid light and FUNC = 0, whatever VERSION holds (R114). -/
def execGridClear (s : State) : Result :=
  finish (checkOf .gridClear s) (fun s => { s with mem := Memory.fillGrid s.mem (fun _ _ => 0) }) s

end Sys2Proof.Machine
end

