-- ==== Sys2Proof/Machine/Ecc.lean ====
section
/-!
DEFINITION. Block split, interleave and ECC_ENCODE (42_ecc_block.md R156, R157, R160).
-/
namespace Sys2Proof.Machine

/-- `len_b` for every block b: SHORT_DATA_LEN, and one more for the last NUM_LONG blocks (R156). -/
def blockLens (total nb : Nat) : List Nat :=
  (List.range nb).map (fun b => total / nb + (if nb - total % nb ≤ b then 1 else 0))

/-- Consecutive pieces of the given lengths. -/
def cutBlocks : List Nat → List Byte → List (List Byte)
  | [], _ => []
  | n :: ns, data => data.take n :: cutBlocks ns (data.drop n)

/-- `split(data, NB)` (R156). -/
def splitBlocks (data : List Byte) (nb : Nat) : List (List Byte) :=
  cutBlocks (blockLens data.length nb) data

/-- Codeword i of every block that has one, for i from 0 below `n` (R157). -/
def columnsOf (blocks : List (List Byte)) (n : Nat) : List Byte :=
  (List.range n).flatMap (fun i => blocks.filterMap (fun b => b[i]?))

/-- The longest block's data length (R157). -/
def longestLen (total nb : Nat) : Nat := total / nb + (if 0 < total % nb then 1 else 0)

/-- The transmission order: the data codewords of all blocks interleaved, then their EC codewords
(R157). -/
def interleave (data : List Byte) (nb e : Nat) : List Byte :=
  let blocks := splitBlocks data nb
  columnsOf blocks (longestLen data.length nb) ++ columnsOf (blocks.map (fun b => rsRem b e)) e

/-- ECC_ENCODE: OUT_BUF[0..RAW_CW) gets the interleaved codewords, and GEN the generator (R160). -/
def execEccEncode (s : State) : Result :=
  finish (checkOf .eccEncode s)
    (fun s =>
      let nb := numBlocks s.level s.version
      let e := eccPerBlock s.level s.version
      let data := s.dataBytes (dataCw s.level s.version)
      (s.setGenerator e).writeOut (interleave data nb e)) s

end Sys2Proof.Machine
end

