-- ==== Sys2Proof/Machine/Format.lean ====
section
/-!
DEFINITION. BCH remainders, FORMAT_WORD and VERSION_WORD (45_format.md R230 to R233). The layout
of the words is PRESUMED by the spec itself (log entry 18: unsafe of QR symbols, exact for RSMASK).
-/
namespace Sys2Proof.Machine

/-- `bitlength(n)`: the number of bits of n without leading zeros (R230). -/
def bitLength (n : Nat) : Nat := if n = 0 then 0 else n.log2 + 1

/-- `bchrem(val, G)`: the remainder of `val * x^k` divided by G over GF(2), k = deg G (R230). -/
def bchRem (val g : Nat) : Nat :=
  let k := bitLength g - 1
  let r := val <<< k
  (List.range (bitLength r - k)).reverse.foldl
    (fun r j => if r.testBit (j + k) then r ^^^ (g <<< j) else r) r

/-- `fmtWord(ecl, m)` (R231). -/
def fmtWord (ecl m : Nat) : Nat :=
  let d := (ecl <<< 3) ||| m
  ((d <<< 10) ||| bchRem d 0x537) ^^^ 0x5412

/-- The version word of version v (R233). -/
def verWord (v : Nat) : Nat := (v <<< 12) ||| bchRem v 0x1F25

/-- FORMAT_WORD: RESULT gets the format word of CONFIG.ECL and MIDX (R232). -/
def execFormatWord (m : BitVec 4) (s : State) : Result :=
  finish (checkOf (.formatWord m) s) (fun s => s.setResult (fmtWord s.config.ecl.toNat m.toNat)) s

/-- VERSION_WORD: RESULT gets the version word, for versions 7 to 40 (R233). -/
def execVersionWord (s : State) : Result :=
  finish (checkOf .versionWord s) (fun s => s.setResult (verWord s.version)) s

end Sys2Proof.Machine
end

