-- ==== Sys2Proof/Machine/Mask.lean ====
section
/-!
DEFINITION. The eight mask patterns and APPLY_MASK (43_mask.md R181 to R183). The formulas are
PRESUMED by the spec itself (log entry 18: unsafe of QR symbols, exact for RSMASK).
-/
namespace Sys2Proof.Machine

/-- `maskBit(m, x, y)` (R181); there is no mask of an index above 7. -/
def maskBit (m x y : Nat) : Bool :=
  match m with
  | 0 => decide ((x + y) % 2 = 0)
  | 1 => decide (y % 2 = 0)
  | 2 => decide (x % 3 = 0)
  | 3 => decide ((x + y) % 3 = 0)
  | 4 => decide ((x / 3 + y / 2) % 2 = 0)
  | 5 => decide ((x * y) % 2 + (x * y) % 3 = 0)
  | 6 => decide (((x * y) % 2 + (x * y) % 3) % 2 = 0)
  | 7 => decide (((x + y) % 2 + (x * y) % 3) % 2 = 0)
  | _ => false

/-- Whether mask m inverts a cell: a data module the pattern selects (R182). -/
def inverts (m x y : Nat) (c : GridCell) : Bool := !c.func && maskBit m x y

/-- One cell's byte under mask m; a cell that is not inverted is left as it is (R182). -/
def maskByte (m x y : Nat) (old : Option Byte) : Option Byte :=
  let b := old.getD (Memory.unlisted (gridAddr x y)) &&& 3
  if inverts m x y (cellOfByte b) then some (b ^^^ 1) else old

/-- `applyMask(m)` on the current square (R182). -/
def State.applyMask (s : State) (m : Nat) : State :=
  { s with mem := Memory.mapSquare s.mem s.size (maskByte m) }

/-- APPLY_MASK (R183). -/
def execApplyMask (m : BitVec 4) (s : State) : Result :=
  finish (checkOf (.applyMask m) s) (fun s => s.applyMask m.toNat) s

end Sys2Proof.Machine
end

