-- ==== Sys2Proof/Machine/Penalty.lean ====
section
/-!
DEFINITION. The penalty score, SCORE and SELECT_MASK (44_penalty.md R200 to R208).
-/
namespace Sys2Proof.Machine

/-- The lengths of a line's maximal runs, in order (R201). -/
def runLengths : List Bool → List Nat
  | [] => []
  | b :: bs =>
    match bs, runLengths bs with
    | c :: _, n :: ns => if b = c then (n + 1) :: ns else 1 :: n :: ns
    | _, _ => [1]

/-- What one maximal run of length L adds: `3 + (L - 5)` from 5 on (R201). -/
def runTerm (n : Nat) : Nat := if 5 ≤ n then 3 + (n - 5) else 0

/-- `runPenalty(line)` (R201). -/
def runPenalty (line : List Bool) : Nat := ((runLengths line).map runTerm).sum

/-- The one-colour 2-by-2 windows of two adjacent rows (R202). -/
def rowWindows : List Bool → List Bool → Nat
  | a :: a' :: as, b :: b' :: bs =>
    (if a = a' ∧ a = b ∧ a = b' then 1 else 0) + rowWindows (a' :: as) (b' :: bs)
  | _, _ => 0

/-- The one-colour 2-by-2 windows of the square (R202). -/
def squareWindows : List (List Bool) → Nat
  | r :: r' :: rs => rowWindows r r' + squareWindows (r' :: rs)
  | _ => 0

/-- `light(k)`: the module at position k of a line is light; outside the line, by P_FLANK_OUTSIDE
(R203). -/
def lightAt (flank : FlankOutside) (line : List Bool) (k : Int) : Bool :=
  if 0 ≤ k ∧ k < line.length then !(line.getD k.toNat true) else decide (flank = .light)

/-- What an occurrence at position i adds: 40 for each side whose four neighbours are all light
(R203). -/
def flankTerm (flank : FlankOutside) (line : List Bool) (i : Nat) : Nat :=
  let at' := fun (k : Int) => lightAt flank line ((i : Int) + k)
  (if at' (-4) && at' (-3) && at' (-2) && at' (-1) then 40 else 0)
    + (if at' 7 && at' 8 && at' 9 && at' 10 then 40 else 0)

/-- The seven modules 1,0,1,1,1,0,1 (R203). -/
def finderPattern : List Bool := [true, false, true, true, true, false, true]

/-- `finderPenalty(line)` (R203). -/
def finderPenalty (flank : FlankOutside) (line : List Bool) : Nat :=
  ((List.range (line.length - 6)).map (fun i =>
    if (line.drop i).take 7 = finderPattern then flankTerm flank line i else 0)).sum

/-- Rule (d): `10 * k` from the dark count and the number of modules (R204). -/
def balancePenalty (ratio : DarkRatio) (dark total : Nat) : Nat :=
  match ratio with
  | .exact => 10 * (((100 * dark : Int) - 50 * total).natAbs / (5 * total))
  | .truncatedPercent => 10 * (((100 * dark / total : Nat) - (50 : Int)).natAbs / 5)

/-- The columns of a square given by its rows (R200). -/
def columnsOfSquare (rows : List (List Bool)) : List (List Bool) :=
  (List.range rows.length).map (fun x => rows.map (fun r => r.getD x false))

/-- The `2*size` lines: rows, then columns (R200). -/
def linesOf (rows : List (List Bool)) : List (List Bool) := rows ++ columnsOfSquare rows

/-- Rule (a) over all lines (R201). -/
def penaltyA (rows : List (List Bool)) : Nat := ((linesOf rows).map runPenalty).sum

/-- Rule (b) (R202). -/
def penaltyB (rows : List (List Bool)) : Nat := 3 * squareWindows rows

/-- Rule (c) over all lines (R203). -/
def penaltyC (flank : FlankOutside) (rows : List (List Bool)) : Nat :=
  ((linesOf rows).map (finderPenalty flank)).sum

/-- The dark modules of the square (R204). -/
def darkCount (rows : List (List Bool)) : Nat := (rows.map (fun r => r.count true)).sum

/-- Rule (d) (R204). -/
def penaltyD (ratio : DarkRatio) (rows : List (List Bool)) : Nat :=
  balancePenalty ratio (darkCount rows) (rows.length * rows.length)

/-- The penalty of a square (R205). -/
def penalty (p : Params) (rows : List (List Bool)) : Nat :=
  penaltyA rows + penaltyB rows + penaltyC p.flankOutside rows + penaltyD p.darkRatio rows

/-- The DARK bits of a square (R200). -/
def darkRows (cells : List (List GridCell)) : List (List Bool) :=
  cells.map (fun row => row.map (fun c => c.dark))

/-- The DARK bits of the trial grid of mask m (R206). -/
def trialRows (m : Nat) (cells : List (List GridCell)) : List (List Bool) :=
  cells.zipIdx.map (fun (row, y) => row.zipIdx.map (fun (c, x) => xor c.dark (inverts m x y c)))

/-- `trialScore(m)` (R206). -/
def trialScore (p : Params) (cells : List (List GridCell)) (m : Nat) : Nat :=
  penalty p (trialRows m cells)

/-- The least index whose entry is the minimum (R208). -/
def leastIndex (l : List Nat) : Nat := l.findIdx (fun a => l.all (fun b => decide (a ≤ b)))

/-- SCORE: RESULT gets the penalty of the current square as it stands (R207). -/
def execScore (s : State) : Result :=
  finish (checkOf .score s) (fun s => s.setResult (penalty s.params (darkRows s.square))) s

/-- The eight trial scores of the current square (R206, R208). -/
def State.trialScores (s : State) : List Nat :=
  let cells := s.square
  (List.range 8).map (trialScore s.params cells)

/-- SELECT_MASK: the eight scores, the best mask and its score written, and that mask committed once
(R208). -/
def execSelectMask (s : State) : Result :=
  finish (checkOf .selectMask s)
    (fun s =>
      let scores := s.trialScores
      let best := leastIndex scores
      let scored : State :=
        { s with
          score := fileOf 8 (fun m => BitVec.ofNat 32 (scores.getD m 0))
          bestMask := BitVec.ofNat 3 best }
      (scored.setResult (scores.getD best 0)).applyMask best) s

end Sys2Proof.Machine
end

