-- ==== Sys2Proof/Machine/ReedSolomon.lean ====
section
/-!
DEFINITION. GF_MUL, GEN_POLY and RS_BLOCK (41_gf_rs.md R127 to R129).
-/
namespace Sys2Proof.Machine

/-- GF_MUL: RESULT gets the product, zero-extended (R127). -/
def execGfMul (s : State) : Result :=
  finish (checkOf .gfMul s) (fun s => s.setResult (gfMul s.opA s.opB).toNat) s

/-- GEN_POLY: GEN and GEN_DEG get the generator of degree d, for d in [1, 30] (R128). -/
def execGenPoly (s : State) : Result :=
  finish (checkOf .genPoly s) (fun s => s.setGenerator s.opDegree) s

/-- RS_BLOCK: OUT_BUF[0..d) gets the remainder of DATA_BUF[0..n), and GEN the generator (R129). -/
def execRsBlock (s : State) : Result :=
  finish (checkOf .rsBlock s)
    (fun s => (s.setGenerator s.opDegree).writeOut (rsRem (s.dataBytes s.opLength) s.opDegree)) s

end Sys2Proof.Machine
end

