-- ==== Sys2Proof/Machine/Dispatch.lean ====
section
/-!
DEFINITION. The command function `exec` of 40_control.md R111, one arm per command.
-/
namespace Sys2Proof.Machine

/-- `exec(Reg[CMD], state)` followed by completion (R111, R112). -/
def exec (i : Instr) (s : State) : Host.Outcome State Fault Refusal :=
  match i with
  | .nop => Sys2Proof.Machine.execNop s
  | .gfMul => Sys2Proof.Machine.execGfMul s
  | .genPoly => Sys2Proof.Machine.execGenPoly s
  | .rsBlock => Sys2Proof.Machine.execRsBlock s
  | .eccEncode => Sys2Proof.Machine.execEccEncode s
  | .gridClear => Sys2Proof.Machine.execGridClear s
  | .applyMask m => Sys2Proof.Machine.execApplyMask m s
  | .score => Sys2Proof.Machine.execScore s
  | .selectMask => Sys2Proof.Machine.execSelectMask s
  | .formatWord m => Sys2Proof.Machine.execFormatWord m s
  | .versionWord => Sys2Proof.Machine.execVersionWord s

end Sys2Proof.Machine
end

