-- ==== Sys2Proof/Machine/Engine.lean ====
section
/-!
DEFINITION. The engine's step (40_control.md R111, R112): the pending command word decoded and run in
one atomic transition, a word that decodes to an error included.
-/
namespace Sys2Proof.Machine

/-- The engine's turn: with BUSY = 1 the one enabled step runs the latched word (R111); a word that
decodes to an error completes with its code and no other effect (R95, R110, R250). With BUSY = 0 the
engine has no enabled step and its state survives unchanged (R112, R267). -/
def engineStep (s : State) : Result :=
  if s.status.busy then
    match decode s.cmd with
    | .ok i => exec i s
    | .error code => finish code id s
  else .next s

end Sys2Proof.Machine
end

