-- ==== Sys2Proof/Machine/Bus.lean ====
section
/-!
DEFINITION. Host bus accesses (20_memory.md R60 to R68, 10_state.md R21 to R37): what an access
reaches, the value a register reads as, reads and writes, and their rules while a command runs.
-/
namespace Sys2Proof.Machine

/-- The mapped registers (R23). -/
inductive Reg where
  | id
  | ctrl
  | status
  | cmd
  | config
  | arg0
  | arg1
  | result
  | bestMask
  | genDeg
  | size
  | rawCw
  | dataCw
  | blocks
  | gen (i : Nat)
  | score (m : Nat)
deriving DecidableEq, Repr

/-- The registers at offsets 0x000, 0x004, ..., 0x034, in that order (R23). -/
def controlRegs : List Reg :=
  [.id, .ctrl, .status, .cmd, .config, .arg0, .arg1, .result, .bestMask, .genDeg, .size, .rawCw,
    .dataCw, .blocks]

/-- The register at an offset of the register region (R23): GEN from 0x100, SCORE from 0x200; none
where the offset is unmapped or not a multiple of 4 (R61). -/
def regAt (off : Nat) : Option Reg :=
  if off % 4 ≠ 0 then none
  else if off < 0x38 then controlRegs[off / 4]?
  else if 0x100 ≤ off ∧ off < 0x17C then some (.gen ((off - 0x100) / 4))
  else if 0x200 ≤ off ∧ off < 0x220 then some (.score ((off - 0x200) / 4))
  else none

/-- What an access of `n` bytes at a window offset reaches: a register, a buffer byte, or nothing
legal (R61, R62, R63; log entry 15: DEDUCED, unsafe at the window's edge). -/
inductive Target where
  | reg (r : Reg)
  | byte (a : Nat)
  | illegal
deriving DecidableEq, Repr

/-- The target of an access (R60 to R63): a whole register with n = 4, a buffer byte with n = 1. -/
def targetOf (off n : Nat) : Target :=
  if n = 4 then
    match regAt off with
    | some r => .reg r
    | none => .illegal
  else if n = 1 ∧ isBuffer off = true then .byte off
  else .illegal

/-- BLOCKS = { NUM_LONG, SHORT_DATA_LEN, ECC_PER_BLOCK, NUM_BLOCKS }, a byte each (R159). -/
def blocksWord (lv : Level) (v : Nat) : Word :=
  BitVec.ofNat 8 (numLong lv v) ++ BitVec.ofNat 8 (shortDataLen lv v)
    ++ BitVec.ofNat 8 (eccPerBlock lv v) ++ BitVec.ofNat 8 (numBlocks lv v)

/-- A derived register: its value while VERSION is valid, else 0 (R35, R159). -/
def derived (s : State) (w : Word) : Word := if validVersion s.version then w else 0

/-- The value a register holds (R21 to R37). -/
def regValue (s : State) : Reg → Word
  | .id => 0x52534D01
  | .ctrl => ctrlWord s.ie
  | .status => statusWord s.status
  | .cmd => s.cmd
  | .config => configWord s.config
  | .arg0 => s.arg0
  | .arg1 => s.arg1
  | .result => s.result
  | .bestMask => s.bestMask.setWidth 32
  | .genDeg => s.genDeg.setWidth 32
  | .size => derived s (BitVec.ofNat 32 (symbolSize s.version))
  | .rawCw => derived s (BitVec.ofNat 32 (rawCw s.version))
  | .dataCw => derived s (BitVec.ofNat 32 (dataCw s.level s.version))
  | .blocks => derived s (blocksWord s.level s.version)
  | .gen i => (s.gen.toList.getD i 0).setWidth 32
  | .score m => s.score.toList.getD m 0

/-- The registers a running command may be writing: a read while BUSY = 1 is unspecified (R68). -/
def volatileReg : Reg → Bool
  | .id => false
  | .ctrl => false
  | .status => false
  | .cmd => false
  | .config => false
  | .arg0 => false
  | .arg1 => false
  | .result => true
  | .bestMask => true
  | .genDeg => true
  | .size => false
  | .rawCw => false
  | .dataCw => false
  | .blocks => false
  | .gen _ => true
  | .score _ => true

/-- A free draw of 32 bits, a fresh one each time (R68). -/
def State.draw (s : State) : Word := Config.freeValue s.draws

/-- A free draw of `n` bytes: the low 8n bits of the draw, zero above, in the 32 bits a host value
carries (R68, "a free draw of the read's width"). -/
def State.drawOfWidth (s : State) (n : Nat) : Word := (s.draw.setWidth (8 * n)).setWidth 32

/-- The next draw will be another one. -/
def State.drawn (s : State) : State := { s with draws := s.draws + 1 }

/-- An access error sets BUSERR and changes nothing else (R63). -/
def State.accessError (s : State) : State :=
  { s with status := { s.status with buserr := true } }

/-- A write rejected while BUSY = 1 sets OVR and changes nothing else (R67). -/
def State.rejectWrite (s : State) : State := { s with status := { s.status with ovr := true } }

/-- The value a host read returns, and the state after it (R61 to R63, R66, R68). -/
def busRead (s : State) (off n : Nat) : Word × State :=
  match targetOf off n with
  | .reg r => if s.status.busy && volatileReg r then (s.draw, s.drawn) else (regValue s r, s)
  | .byte a =>
    if s.status.busy && !isDataBuf a then (s.drawOfWidth 1, s.drawn)
    else ((Memory.byteAt s.mem a).setWidth 32, s)
  | .illegal => (0, s.accessError)

/-- A write to a register while BUSY = 0 (R24 to R31, R110); a read-only register ignores it (R26). -/
def writeReg (s : State) (r : Reg) (v : Word) : State :=
  match r with
  | .id => s
  | .ctrl => { s with ie := v.getLsbD 0 }
  | .status => { s with status := clearOnWrite s.status v }
  | .cmd => s.accept v
  | .config => { s with config := configOfWord v }
  | .arg0 => { s with arg0 := v }
  | .arg1 => { s with arg1 := v }
  | .result => s
  | .bestMask => s
  | .genDeg => s
  | .size => s
  | .rawCw => s
  | .dataCw => s
  | .blocks => s
  | .gen _ => s
  | .score _ => s

/-- The registers whose write is rejected while BUSY = 1 (R67). -/
def gatedReg : Reg → Bool
  | .id => false
  | .ctrl => false
  | .status => false
  | .cmd => true
  | .config => true
  | .arg0 => true
  | .arg1 => true
  | .result => false
  | .bestMask => false
  | .genDeg => false
  | .size => false
  | .rawCw => false
  | .dataCw => false
  | .blocks => false
  | .gen _ => false
  | .score _ => false

/-- The state after a host write of `v` (R61 to R63, R67); an 8-bit write carries `v[7:0]`
(log entry 11: DEDUCED, unsafe for larger values). -/
def busWrite (s : State) (off n : Nat) (v : Word) : State :=
  match targetOf off n with
  | .reg r => if s.status.busy && gatedReg r then s.rejectWrite else writeReg s r v
  | .byte a =>
    if s.status.busy then s.rejectWrite
    else { s with mem := Memory.setByte s.mem a (v.setWidth 8) }
  | .illegal => s.accessError

/-- The window offset of a platform address, if it lies in `[P_BASE, P_BASE + 0x20000)` (R60). -/
def windowOffset (pBase addr : Nat) : Option Nat :=
  if pBase ≤ addr ∧ addr < pBase + 0x20000 then some (addr - pBase) else none

/-- A read at a platform address: outside the window RSMASK is not involved and the platform answers
with any value of the read's width (R60, U9; log entry 6: DESIGN CHOICE, safe of RSMASK). -/
def platformRead (s : State) (addr n : Nat) : Word × State :=
  match windowOffset s.params.pBase addr with
  | some off => busRead s off n
  | none => (s.drawOfWidth n, s.drawn)

/-- A write at a platform address: outside the window RSMASK does not decode it (R60, V-BUS-16). -/
def platformWrite (s : State) (addr n : Nat) (v : Word) : State :=
  match windowOffset s.params.pBase addr with
  | some off => busWrite s off n v
  | none => s

end Sys2Proof.Machine
end

