-- ==== Sys2Proof/Machine/HostScript.lean ====
section
/-!
DEFINITION. The host agent (00_scope.md R6): one step per line of its script, and the
pseudo-instructions that scripts are written with (30_encoding.md R100, R101).
-/
namespace Sys2Proof.Machine

/-- The line a branch goes to: the nearest `label l` before the branch, else the first after it
(R100, R101 `1b`; log entry 8: DESIGN CHOICE, unsafe for repeated labels). -/
def labelLine (script : List HostLine) (pos l : Nat) : Option Nat :=
  match (script.take pos).reverse.findIdx? (fun h => h == .label l) with
  | some k => some (pos - 1 - k)
  | none => ((script.drop pos).findIdx? (fun h => h == .label l)).map (fun k => pos + k)

/-- The number a `bnz` tests (R100). -/
def hostValue (s : State) : HostValue → Word
  | .lit v => v
  | .last => s.lastRead

/-- The script goes on with its next line. -/
def State.nextLine (s : State) : State := { s with pos := s.pos + 1 }

/-- A value read by the host (R100, `-> VAL`). -/
def State.reply (r : Word × State) : State := { r.2 with lastRead := r.1 }

/-- The host's turn: one line of its script (R100); past its end the host does nothing. A `label` or `bnz`
line takes a turn of its own, though it is no bus access (log entry 20: DESIGN CHOICE, safe). -/
def hostStep (s : State) : Result :=
  match s.script[s.pos]? with
  | none => .next s
  | some (.rd off n) => .next (State.reply (platformRead s (s.params.pBase + off) n)).nextLine
  | some (.wr off n v) => .next (platformWrite s (s.params.pBase + off) n v).nextLine
  | some (.label _) => .next s.nextLine
  | some (.bnz v mask l) =>
    if hostValue s v &&& mask ≠ 0 then
      match labelLine s.script s.pos l with
      | some p => .next { s with pos := p }
      | none => .refused (.undefinedLabel l)
    else .next s.nextLine

/-- `wr32 OFF, VAL` (R100). -/
def wr32 (off : Nat) (v : Word) : HostLine := .wr off 4 v

/-- `rd32 OFF` (R100). -/
def rd32 (off : Nat) : HostLine := .rd off 4

/-- `wr8 OFF, VAL` (R100). -/
def wr8 (off : Nat) (v : Word) : HostLine := .wr off 1 v

/-- `rd8 OFF` (R100). -/
def rd8 (off : Nat) : HostLine := .rd off 1

/-- A command mnemonic as a line: its word written to CMD (R101). -/
def issue (i : Instr) : List HostLine := [wr32 0x00C (encode i)]

/-- `wait`: poll STATUS until BUSY = 0 (R101). -/
def waitIdle : List HostLine := [.label 1, rd32 0x008, .bnz .last 0x1 1]

/-- `config v, ecl` (R101). -/
def configLine (v ecl : Word) : List HostLine := [wr32 0x010 ((ecl <<< 8) ||| v)]

/-- `args a0, a1` (R101). -/
def argsLines (a0 a1 : Word) : List HostLine := [wr32 0x014 a0, wr32 0x018 a1]

/-- `ack`: clear DONE, OVR and BUSERR (R101). -/
def ackLine : List HostLine := [wr32 0x008 0x0000000E]

end Sys2Proof.Machine
end

