-- ==== Sys2Proof/Machine/ResetPin.lean ====
section
/-!
DEFINITION. The `rst` input (70_reset_and_hazards.md R280 to R283): registers to their reset values,
buffers kept, and the outputs of an aborted command left at free draws.
-/
namespace Sys2Proof.Machine

/-- Every register at its reset value, with the given buffers; the parameters, the host and the count
of draws are no registers of RSMASK and stay (R280, R45; log entry 16: DESIGN CHOICE, unsafe of the
host). -/
def State.resetRegisters (s : State) (mem : List Host.Cell) (draws : Nat) : State :=
  { State.reset with
    params := s.params
    mem := mem
    script := s.script
    pos := s.pos
    lastRead := s.lastRead
    schedule := s.schedule
    draws := draws }

/-- `n` bytes of OUT_BUF at free draws (R282). -/
def drawOut (s : State) (n : Nat) : List Host.Cell × Nat :=
  (Memory.mapRange s.mem (outAddr 0) n
    (fun i _ => some ((Config.freeValue (s.draws + i)).setWidth 8)), s.draws + n)

/-- How many codewords an aborted ECC_ENCODE leaves at free draws: RAW_CW (R282), which is 0 where VERSION
is not valid (R35, R159). -/
def abortRawCw (s : State) : Nat := if validVersion s.version then rawCw s.version else 0

/-- The side of the square whose DARK bits an aborted grid command leaves at free draws: size =
`4*VERSION + 17` (R42), of which only 177 columns and rows are mapped (R40). -/
def abortSide (s : State) : Nat := min s.size 177

/-- The DARK bits inside the square at free draws, the FUNC bits kept (R282). -/
def drawDark (s : State) : List Host.Cell × Nat :=
  (Memory.mapSquare s.mem (abortSide s) (fun x y old =>
    let b := old.getD (Memory.unlisted (gridAddr x y))
    some ((b &&& 2) |||
      ((Config.freeValue (s.draws + (y * abortSide s + x))).setWidth 8 &&& 1))),
    s.draws + abortSide s * abortSide s)

/-- Every GRID cell, both bits, at free draws (R282). -/
def drawGrid (s : State) : List Host.Cell × Nat :=
  (Memory.fillGrid s.mem (fun x y =>
    (Config.freeValue (s.draws + (y * 177 + x))).setWidth 8 &&& 3), s.draws + 177 * 177)

/-- The buffers after a pending command is aborted, and the count of draws (R282). -/
def abortOutputs (i : Instr) (s : State) : List Host.Cell × Nat :=
  match i with
  | .nop => (s.mem, s.draws)
  | .gfMul => (s.mem, s.draws)
  | .genPoly => (s.mem, s.draws)
  | .rsBlock => drawOut s s.opDegree
  | .eccEncode => drawOut s (abortRawCw s)
  | .gridClear => drawGrid s
  | .applyMask _ => drawDark s
  | .score => (s.mem, s.draws)
  | .selectMask => drawDark s
  | .formatWord _ => (s.mem, s.draws)
  | .versionWord => (s.mem, s.draws)

/-- The buffers after a reset: with BUSY = 0 exactly as they were (R281); with BUSY = 1 the output
locations of the command that the pending word's OPC names hold free draws (R282), whether or not the
word or its operands would have failed a check (log entry 7: DESIGN CHOICE, safe). -/
def resetBuffers (s : State) : List Host.Cell × Nat :=
  if s.status.busy then
    match decode (s.cmd &&& 0xFF) with
    | .ok i => abortOutputs i s
    | .error _ => (s.mem, s.draws)
  else (s.mem, s.draws)

/-- A reset, at any point between other steps (R280). -/
def resetPin (s : State) : State :=
  s.resetRegisters (resetBuffers s).1 (resetBuffers s).2

end Sys2Proof.Machine
end

