-- ==== Sys2Proof/Machine/Step.lean ====
section
/-!
DEFINITION. One step of the interleaving of host, engine and reset (00_scope.md R6, 60_exceptions.md
R259), and placing a command word where the next step runs it.
-/
namespace Sys2Proof.Machine

/-- One step: the scheduled turn, or, when nothing is scheduled, the engine's if a command is pending
and else the host's (log entry 5: DESIGN CHOICE, safe over all schedules). More than one host is
refused (R265; log entry 12: DESIGN CHOICE, safe). -/
def step (s : State) : Host.Outcome State Fault Refusal :=
  if 1 < s.params.hosts then .refused .multipleHosts
  else
    match s.schedule with
    | .engine :: ts => engineStep { s with schedule := ts }
    | .host :: ts => hostStep { s with schedule := ts }
    | .reset :: ts => .next (resetPin { s with schedule := ts })
    | [] => if s.status.busy then engineStep s else hostStep s

/-- The table's word as the pending command, with the engine's turn next: what the acceptance of a host
write of that word to CMD leaves (R110; log entry 9: DESIGN CHOICE, safe). -/
def State.withFetchWord (s : State) (nbits w : Nat) : State :=
  { s.accept (BitVec.ofNat 32 (w % 2 ^ nbits)) with schedule := .engine :: s.schedule }

end Sys2Proof.Machine
end

