-- ==== Sys2Proof/Safety.lean ====
section
/-!
DEFINITION. The terms the statements are written in: the invariant of the machine, what a completion
and an unchanged memory are, which accesses are legal, and polynomials given by their coefficients.
-/
namespace Sys2Proof.Machine

/-- What every step keeps: memory in its canonical form, so that a GRID cell's reserved bits are 0
(R41); the GEN file is the generator of degree GEN_DEG, all zeros for degree 0 (R34, R36); BUSY and
DONE are never both 1 (R110, R112); ERRCODE holds a code of R251. -/
structure State.Inv (s : State) : Prop where
  memory : Memory.wf s.mem
  degree : s.genDeg.toNat ≤ 30
  generator : s.gen = if s.genDeg = 0 then Vector.replicate 31 0 else genFile s.genDeg.toNat
  flags : (s.status.busy && s.status.done) = false
  code : s.status.errcode.toNat ≤ 6

/-- The encoding of a command without a mask index (R90, R91, R94): the word that is its opcode decodes
to it, and any other word with that opcode, so with a bit of [31:8] set, is RESERVED_BITS. -/
def PlainEncoding (i : Instr) (opc : Nat) : Prop :=
  decode (BitVec.ofNat 32 opc) = .ok i ∧
    ∀ w : Word, w.toNat % 256 = opc → 256 ≤ w.toNat → decode w = .error .reservedBits

/-- The encoding of a command with a mask index (R90, R91, R93, R94): `(m << 8) | opc` for m below 8
decodes to it with m; a bit of [31:12] set is RESERVED_BITS, and else MIDX from 8 on INVALID_MASK. -/
def MaskedEncoding (i : BitVec 4 → Instr) (opc : Nat) : Prop :=
  (∀ m : BitVec 4, m.toNat < 8 → decode (BitVec.ofNat 32 (m.toNat * 256 + opc)) = .ok (i m)) ∧
  (∀ w : Word, w.toNat % 256 = opc → 4096 ≤ w.toNat → decode w = .error .reservedBits) ∧
  (∀ w : Word, w.toNat % 256 = opc → w.toNat < 4096 → 8 ≤ w.toNat / 256 →
    decode w = .error .invalidMask)

/-- `t` is `s` after a completion with this ERRCODE (R112): BUSY 0, DONE 1, OVR and BUSERR kept. -/
def Completed (s t : State) (code : Byte) : Prop :=
  t.status.busy = false ∧ t.status.done = true ∧ t.status.errcode = code ∧
    t.status.ovr = s.status.ovr ∧ t.status.buserr = s.status.buserr

/-- Every byte of memory outside `P` reads in `t` as in `s`. -/
def SameBytesOutside (P : Nat → Prop) (s t : State) : Prop :=
  ∀ a, ¬ P a → t.readByte a = s.readByte a

/-- Every byte of memory reads in `t` as in `s`. -/
def SameBytes (s t : State) : Prop := ∀ a, t.readByte a = s.readByte a

/-- The offsets of the cells (x, y) with x and y below `size`. -/
def InSquare (size a : Nat) : Prop := ∃ x y, x < size ∧ y < size ∧ a = gridAddr x y

/-- The offsets of OUT_BUF[0..n). -/
def InOut (n a : Nat) : Prop := ∃ i, i < n ∧ a = outAddr i

/-- The offsets of the mapped registers (R23). -/
def RegisterOffset (off : Nat) : Prop :=
  off % 4 = 0 ∧ (off < 0x38 ∨ (0x100 ≤ off ∧ off < 0x17C) ∨ (0x200 ≤ off ∧ off < 0x220))

/-- The offsets of the three buffer regions (R62, R64). -/
def BufferOffset (off : Nat) : Prop :=
  (0x1000 ≤ off ∧ off < 0x3000) ∨ InSquare 177 off

/-- The legal accesses of R61 and R62. -/
def LegalAccess (off n : Nat) : Prop :=
  (n = 4 ∧ RegisterOffset off) ∨ (n = 1 ∧ BufferOffset off)

/-- The coefficient of x^k of a polynomial given highest power first (R124, R125). -/
def polyCoeff (p : List Byte) (k : Nat) : Byte := p.reverse.getD k 0

/-- The coefficient of x^k of a product over GF(256) (R121, R122). -/
def polyMulCoeff (p q : List Byte) (k : Nat) : Byte :=
  (List.range (k + 1)).foldl
    (fun acc i => gfAdd acc (gfMul (polyCoeff p i) (polyCoeff q (k - i)))) 0

/-- The value of a polynomial at z (R124), by Horner's rule. -/
def polyEval (p : List Byte) (z : Byte) : Byte :=
  p.foldl (fun acc c => gfAdd (gfMul acc z) c) 0

/-- A line written as its runs: colours and lengths (R201). -/
def ofRuns (runs : List (Bool × Nat)) : List Bool :=
  runs.flatMap (fun r => List.replicate r.2 r.1)

/-- The runs are maximal: none empty, and neighbours differ in colour (R201). -/
def MaximalRuns (runs : List (Bool × Nat)) : Prop :=
  (∀ r ∈ runs, 0 < r.2) ∧ runs.IsChain (fun r r' => r.1 ≠ r'.1)

/-- The square of side `n` whose module in column x and row y is `dark x y`, row by row (R200). -/
def squareOf (n : Nat) (dark : Nat → Nat → Bool) : List (List Bool) :=
  (List.range n).map (fun y => (List.range n).map (fun x => dark x y))

/-- Column x of that square, from the top (R200). -/
def columnOf (n : Nat) (dark : Nat → Nat → Bool) (x : Nat) : List Bool :=
  (List.range n).map (fun y => dark x y)

/-- Row y of that square, from the left (R200). -/
def rowOf (n : Nat) (dark : Nat → Nat → Bool) (y : Nat) : List Bool :=
  (List.range n).map (fun x => dark x y)

/-- How many of the lowest `n` bit positions two words differ in (R235). -/
def hammingDistance (n a b : Nat) : Nat := ((List.range n).filter (fun i => (a ^^^ b).testBit i)).length

end Sys2Proof.Machine
end

