-- ==== Sys2Proof/Certificates/Slice0/Obligations.lean ====
section
/-!
DEFINITION. The statements about this model, each a formal reading of the rules of spec/ that its
docstring names.
-/
open Sys2Proof Sys2Proof.Machine

/-! ## Encoding (30_encoding.md) -/

/-- R101, R91: the words the spec writes for the eleven commands decode to them. -/
def Obligations.SpecWordsDecode : Prop :=
  decode 0x00000000 = .ok .nop ∧ decode 0x00000001 = .ok .gfMul ∧
  decode 0x00000002 = .ok .genPoly ∧ decode 0x00000003 = .ok .rsBlock ∧
  decode 0x00000004 = .ok .eccEncode ∧ decode 0x00000005 = .ok .gridClear ∧
  decode 0x00000306 = .ok (.applyMask 3) ∧ decode 0x00000007 = .ok .score ∧
  decode 0x00000008 = .ok .selectMask ∧ decode 0x00000509 = .ok (.formatWord 5) ∧
  decode 0x0000000A = .ok .versionWord

/-- R90, R91, R96: decoding an encoded well-formed command gives it back, and a word that decodes to a
command is that command's encoding, so each command has exactly one word. -/
def Obligations.DecodeEncodeRoundTrip : Prop :=
  (∀ i : Instr, i.wellFormed = true → decode (encode i) = .ok i) ∧
  (∀ (w : Word) (i : Instr), decode w = .ok i → i.wellFormed = true ∧ encode i = w)

/-- R94: the outcome of decoding for every one of the 2^32 words, by the fields as numbers. -/
def Obligations.EveryWordDecodesByPriority : Prop :=
  ∀ w : Word,
    let opc := w.toNat % 256
    let midx := w.toNat / 256 % 16
    let rsv := w.toNat / 4096
    (10 < opc → decode w = .error .badOpcode) ∧
    (opc ≤ 10 → rsv ≠ 0 → decode w = .error .reservedBits) ∧
    (opc ≤ 10 → rsv = 0 → opc ≠ 6 → opc ≠ 9 → midx ≠ 0 → decode w = .error .reservedBits) ∧
    (rsv = 0 → (opc = 6 ∨ opc = 9) → 8 ≤ midx → decode w = .error .invalidMask) ∧
    (opc ≤ 10 → rsv = 0 → (opc ≠ 6 ∧ opc ≠ 9 → midx = 0) → (opc = 6 ∨ opc = 9 → midx < 8) →
      ∃ i, decode w = .ok i ∧ (opcodeOf i).toNat = opc ∧ (midxOf i).toNat = midx)

/-! ## The step and the command lifecycle (40_control.md, 60_exceptions.md) -/

/-- R111, R6: a step in which the engine's turn comes, scheduled or by default, with a pending word that
decodes to a command, is `exec` of that command; a scheduled turn is used up. Which turn comes is the
model's choice (log entry 5). -/
def Obligations.StepRunsDecodedCommand : Prop :=
  (∀ (s : State) (ts : List Turn) (i : Instr), s.params.hosts ≤ 1 → s.schedule = .engine :: ts →
    s.status.busy = true → decode s.cmd = .ok i → step s = exec i { s with schedule := ts }) ∧
  (∀ (s : State) (i : Instr), s.params.hosts ≤ 1 → s.schedule = [] →
    s.status.busy = true → decode s.cmd = .ok i → step s = exec i s)

/-- R95, R110, R250: a pending word that decodes to an error is executed too: it completes with that
error's code and changes nothing but STATUS. -/
def Obligations.IllegalWordCompletesWithCode : Prop :=
  ∀ (s : State) (ts : List Turn) (c : ErrCode), s.params.hosts ≤ 1 → s.schedule = .engine :: ts →
    s.status.busy = true → decode s.cmd = .error c →
      ∃ t, step s = .next t ∧ Completed s t (errByte c) ∧ errByte c ≠ 0 ∧
        t = { s with schedule := ts, status := t.status } ∧ SameBytes s t

/-- R110: a host write of a word to CMD while BUSY = 0 latches it, sets BUSY, clears DONE and changes
nothing else; while BUSY = 1 it is dropped and sets OVR. -/
def Obligations.CmdWriteIsAccepted : Prop :=
  ∀ (s : State) (w : Word),
    (s.status.busy = false →
      busWrite s 0x00C 4 w =
        { s with cmd := w, status := { s.status with busy := true, done := false } }) ∧
    (s.status.busy = true →
      busWrite s 0x00C 4 w = { s with status := { s.status with ovr := true } })

/-- R112, R44: every command ends in a next state with BUSY 0, DONE 1 and a code of R251, and writes no
other flag; the engine then has no enabled step; no command writes CTRL, CMD, CONFIG, ARG0 or ARG1, the
parameters, or anything of the host's. -/
def Obligations.EveryCommandCompletes : Prop :=
  ∀ (i : Instr) (s : State), ∃ t, exec i s = .next t ∧
    Completed s t t.status.errcode ∧ t.status.errcode.toNat ≤ 6 ∧ engineStep t = .next t ∧
    t.ie = s.ie ∧ t.cmd = s.cmd ∧ t.config = s.config ∧ t.arg0 = s.arg0 ∧ t.arg1 = s.arg1 ∧
    t.params = s.params ∧ t.script = s.script ∧ t.pos = s.pos ∧ t.lastRead = s.lastRead ∧
    t.schedule = s.schedule ∧ t.draws = s.draws

/-- R250: a command that completes with a code other than 0x00 changes nothing but STATUS; every pending
word completes, and one that completes with such a code, words that decode to an error included, changes
nothing but STATUS. -/
def Obligations.FailingCommandWritesOnlyStatus : Prop :=
  (∀ (i : Instr) (s t : State), exec i s = .next t → t.status.errcode ≠ 0 →
    t = { s with status := t.status } ∧ SameBytes s t) ∧
  (∀ s : State, s.status.busy = true → ∃ t, engineStep s = .next t ∧
    Completed s t t.status.errcode ∧
    (t.status.errcode ≠ 0 → t = { s with status := t.status } ∧ SameBytes s t))

/-- R252, R251: the code a pending word completes with, whatever the word and the operands: the first
failing check in the order opcode, reserved bits, mask, version, degree, length. -/
def Obligations.FirstFailingCheckSetsCode : Prop :=
  ∀ (s : State) (ts : List Turn), s.params.hosts ≤ 1 → s.schedule = .engine :: ts →
    s.status.busy = true →
      ∃ t, step s = .next t ∧ t.status.errcode.toNat =
        let opc := s.cmd.toNat % 256
        let midx := s.cmd.toNat / 256 % 16
        let rsv := s.cmd.toNat / 4096
        let v := s.config.version.toNat
        let d := s.arg1.toNat % 256
        let n := s.arg0.toNat % 65536
        if 10 < opc then 1
        else if rsv ≠ 0 ∨ (opc ≠ 6 ∧ opc ≠ 9 ∧ midx ≠ 0) then 2
        else if (opc = 6 ∨ opc = 9) ∧ 8 ≤ midx then 3
        else if (opc = 4 ∨ opc = 6 ∨ opc = 7 ∨ opc = 8) ∧ ¬ (1 ≤ v ∧ v ≤ 40) then 4
        else if opc = 10 ∧ ¬ (7 ≤ v ∧ v ≤ 40) then 4
        else if (opc = 2 ∨ opc = 3) ∧ ¬ (1 ≤ d ∧ d ≤ 30) then 5
        else if opc = 3 ∧ 4096 < n then 6
        else 0

/-- R33, R34, R76: which command may change which result register. -/
def Obligations.ResultRegistersHaveTheirWriters : Prop :=
  ∀ (i : Instr) (s t : State), exec i s = .next t →
    (t.bestMask ≠ s.bestMask → i = .selectMask) ∧
    (t.score ≠ s.score → i = .selectMask) ∧
    (t.genDeg ≠ s.genDeg ∨ t.gen ≠ s.gen → i = .genPoly ∨ i = .rsBlock ∨ i = .eccEncode) ∧
    (t.result ≠ s.result → i = .gfMul ∨ i = .score ∨ i = .selectMask ∨ i = .versionWord ∨
      ∃ m, i = .formatWord m)

/-- R38, R39, R41, R76: no command writes DATA_BUF; only RS_BLOCK and ECC_ENCODE write OUT_BUF; only
GRID_CLEAR, APPLY_MASK and SELECT_MASK write a cell's DARK, and only GRID_CLEAR its FUNC. -/
def Obligations.BuffersHaveTheirWriters : Prop :=
  ∀ (i : Instr) (s t : State), exec i s = .next t →
    (∀ a, isDataBuf a = true → t.readByte a = s.readByte a) ∧
    (∀ a, isOutBuf a = true → t.readByte a ≠ s.readByte a → i = .rsBlock ∨ i = .eccEncode) ∧
    (∀ x y, x < 177 → y < 177 →
      (Memory.cellAt t.mem x y).func ≠ (Memory.cellAt s.mem x y).func → i = .gridClear) ∧
    (∀ x y, x < 177 → y < 177 →
      (Memory.cellAt t.mem x y).dark ≠ (Memory.cellAt s.mem x y).dark →
        i = .gridClear ∨ i = .selectMask ∨ ∃ m, i = .applyMask m)

/-! ## NOP and GRID_CLEAR (40_control.md) -/

/-- R113: NOP is the word 0x00000000; it completes with 0x00 and has no other effect. -/
def Obligations.NopOnlyCompletes : Prop :=
  PlainEncoding .nop 0x00 ∧
  ∀ s : State, ∃ t, exec .nop s = .next t ∧ Completed s t 0x00 ∧
    t = { s with status := t.status } ∧ SameBytes s t

/-- R114: GRID_CLEAR is the word 0x00000005; it makes every one of the 177 by 177 cells read 0x00,
whatever CONFIG holds, and changes no other byte and no register but STATUS. -/
def Obligations.GridClearZeroesTheGrid : Prop :=
  PlainEncoding .gridClear 0x05 ∧
  ∀ s : State, ∃ t, exec .gridClear s = .next t ∧ Completed s t 0x00 ∧
    (∀ x y, x < 177 → y < 177 → t.readByte (0x10000 + y * 256 + x) = some 0) ∧
    SameBytesOutside (InSquare 177) s t ∧
    t = { s with mem := t.mem, status := t.status }

/-! ## The field (41_gf_rs.md) -/

/-- R123: EXP lists the powers of 0x02; LOG of a nonzero byte is the unique index below 255 that EXP
takes to it; and the product of R122 is the log-table product, for all operands: 0 if an operand is 0,
else `EXP[(LOG[a] + LOG[b]) mod 255]`. -/
def Obligations.ProductAgreesWithLogTables : Prop :=
  gfExp 0 = 0x01 ∧ (∀ i, gfExp (i + 1) = gfMul (gfExp i) 0x02) ∧
  (∀ v : Byte, v ≠ 0 → ∃ i, gfLog v = some i ∧ i < 255 ∧ gfExp i = v ∧
    ∀ j, j < 255 → gfExp j = v → j = i) ∧
  (∀ a b : Byte, (a = 0 ∨ b = 0) → gfMul a b = 0) ∧
  (∀ (a b : Byte) (i j : Nat), gfLog a = some i → gfLog b = some j →
    gfMul a b = gfExp ((i + j) % 255))

/-- R123, R132: the powers of 0x02 have period exactly 255: they repeat after 255, and no two below 255
are equal, so EXP takes 255 distinct values, none of them 0. -/
def Obligations.PrimitiveElementHasOrder255 : Prop :=
  (∀ i, gfExp (i + 255) = gfExp i) ∧ (∀ i, gfExp i ≠ 0) ∧
  (∀ i j, i < 255 → j < 255 → gfExp i = gfExp j → i = j)

/-- R132, R127: multiplication is commutative and associative, distributes over XOR, has the unit 0x01,
every nonzero element has an inverse, squaring is additive, and exponents are taken modulo 255. -/
def Obligations.FieldLaws : Prop :=
  (∀ a b : Byte, gfMul a b = gfMul b a) ∧
  (∀ a b c : Byte, gfMul (gfMul a b) c = gfMul a (gfMul b c)) ∧
  (∀ a b c : Byte, gfMul a (gfAdd b c) = gfAdd (gfMul a b) (gfMul a c)) ∧
  (∀ b : Byte, gfMul 0x01 b = b) ∧
  (∀ a : Byte, a ≠ 0 → ∃ b, gfMul a b = 0x01) ∧
  (∀ a b : Byte, gfMul (gfAdd a b) (gfAdd a b) = gfAdd (gfMul a a) (gfMul b b)) ∧
  gfExp ((254 + 1) % 255) = 0x01

/-- R127: GF_MUL is the word 0x00000001; it writes the product of ARG0[7:0] and ARG1[7:0] to
RESULT[7:0], zero above, and nothing else but STATUS. -/
def Obligations.GfMulWritesProduct : Prop :=
  PlainEncoding .gfMul 0x01 ∧
  ∀ s : State, ∃ t, exec .gfMul s = .next t ∧ Completed s t 0x00 ∧
    t.result.toNat =
      (gfMul (BitVec.ofNat 8 (s.arg0.toNat % 256)) (BitVec.ofNat 8 (s.arg1.toNat % 256))).toNat ∧
    t = { s with result := t.result, status := t.status } ∧ SameBytes s t

/-! ## Generator polynomial and remainder (41_gf_rs.md) -/

/-- R124: `g_d` is monic of degree d and has the roots α^0 to α^(d-1). -/
def Obligations.GeneratorIsMonicWithRoots : Prop :=
  ∀ d : Nat, (genPoly d).length = d + 1 ∧ (genPoly d).head? = some 0x01 ∧
    ∀ i, i < d → polyEval (genPoly d) (gfExp i) = 0

/-- R128: GEN_POLY is the word 0x00000002; for d = ARG1[7:0] in [1, 30] it writes d to GEN_DEG and the
coefficients of g_d to GEN, zeros above d; for any other d it completes with BAD_DEGREE; either way
nothing else changes. -/
def Obligations.GenPolyBuildsGenerator : Prop :=
  PlainEncoding .genPoly 0x02 ∧
  ∀ s : State,
    let d := s.arg1.toNat % 256
    (1 ≤ d ∧ d ≤ 30 → ∃ t, exec .genPoly s = .next t ∧ Completed s t 0x00 ∧
      t.genDeg.toNat = d ∧
      (∀ i (h : i < 31), t.gen[i] = if i ≤ d then (genPoly d).getD i 0 else 0) ∧
      t = { s with gen := t.gen, genDeg := t.genDeg, status := t.status } ∧ SameBytes s t) ∧
    (¬ (1 ≤ d ∧ d ≤ 30) → ∃ t, exec .genPoly s = .next t ∧ Completed s t 0x05 ∧
      t = { s with status := t.status } ∧ SameBytes s t)

/-- R125, R126: the shift register computes the polynomial remainder: it has d codewords, so its degree
is below d, and `M(x)*x^d = Q(x)*g_d(x) + R(x)` for some Q, coefficient by coefficient; for n = 0 every
codeword is 0. -/
def Obligations.ShiftRegisterIsRemainder : Prop :=
  ∀ (msg : List Byte) (d : Nat), 1 ≤ d →
    (rsRem msg d).length = d ∧
    (∃ q : List Byte, ∀ k, polyCoeff (msg ++ List.replicate d 0) k =
      gfAdd (polyMulCoeff q (genPoly d) k) (polyCoeff (rsRem msg d) k)) ∧
    rsRem [] d = List.replicate d 0

/-- R129's corner cases: d = 1 gives the XOR of the message; a message of all zeros gives all zeros; the
one-byte message 0x01 gives the coefficients c_1 to c_d of g_d; leading zeros do not matter. -/
def Obligations.RemainderCornerCases : Prop :=
  (∀ msg : List Byte, rsRem msg 1 = [msg.foldl gfAdd 0]) ∧
  (∀ n d : Nat, rsRem (List.replicate n 0) d = List.replicate d 0) ∧
  (∀ d : Nat, 1 ≤ d → rsRem [0x01] d = (genPoly d).tail) ∧
  (∀ (msg : List Byte) (n d : Nat), rsRem (List.replicate n 0 ++ msg) d = rsRem msg d)

/-- R129: RS_BLOCK is the word 0x00000003; with d in [1, 30] and n at most 4096 it writes the remainder
of DATA_BUF[0..n) to OUT_BUF[0..d), g_d to GEN and d to GEN_DEG, and nothing else but STATUS; otherwise
it completes with BAD_DEGREE, or with BAD_LENGTH if only n is out of range, and changes only STATUS. -/
def Obligations.RsBlockWritesRemainder : Prop :=
  PlainEncoding .rsBlock 0x03 ∧
  ∀ s : State,
    let d := s.arg1.toNat % 256
    let n := s.arg0.toNat % 65536
    (1 ≤ d ∧ d ≤ 30 → n ≤ 4096 → ∃ t, exec .rsBlock s = .next t ∧ Completed s t 0x00 ∧
      (∀ msg : List Byte, msg.length = n → (∀ i, i < n → s.readByte (0x1000 + i) = msg[i]?) →
        ∀ j, j < d → t.readByte (0x2000 + j) = (rsRem msg d)[j]?) ∧
      SameBytesOutside (InOut d) s t ∧ t.genDeg.toNat = d ∧
      (∀ i (h : i < 31), t.gen[i] = if i ≤ d then (genPoly d).getD i 0 else 0) ∧
      t = { s with mem := t.mem, gen := t.gen, genDeg := t.genDeg, status := t.status }) ∧
    (¬ (1 ≤ d ∧ d ≤ 30) → ∃ t, exec .rsBlock s = .next t ∧ Completed s t 0x05 ∧
      t = { s with status := t.status } ∧ SameBytes s t) ∧
    (1 ≤ d ∧ d ≤ 30 → 4096 < n → ∃ t, exec .rsBlock s = .next t ∧ Completed s t 0x06 ∧
      t = { s with status := t.status } ∧ SameBytes s t)

/-! ## Capacity, split, interleave and ECC_ENCODE (42_ecc_block.md) -/

/-- R153, R155, R158: the ranges the spec checks over the whole table, for every version and level. -/
def Obligations.CapacityTableChecks : Prop :=
  ∀ v, v < 41 → 1 ≤ v →
    dataCw .medium v ≤ dataCw .low v ∧ dataCw .quartile v ≤ dataCw .medium v ∧
    dataCw .high v ≤ dataCw .quartile v ∧ 9 ≤ dataCw .high v ∧ dataCw .low v ≤ 2956 ∧
    rawCw v ≤ 3706 ∧
    ∀ lv ∈ [Level.low, Level.medium, Level.quartile, Level.high],
      7 ≤ eccPerBlock lv v ∧ eccPerBlock lv v ≤ 30 ∧ 1 ≤ numBlocks lv v ∧ numBlocks lv v ≤ 81 ∧
      dataCw lv v + numBlocks lv v * eccPerBlock lv v = rawCw v ∧
      shortDataLen lv v ≤ 122 ∧ numLong lv v ≤ 67

/-- R159, R35: what SIZE, RAW_CW, DATA_CW and BLOCKS read as, whatever BUSY is: their numbers for the
version and level in CONFIG, each in its field, and 0 when VERSION is not valid. -/
def Obligations.DerivedRegistersFollowConfig : Prop :=
  ∀ s : State,
    let v := s.config.version.toNat
    let lv := levelOf s.config.ecl
    (1 ≤ v ∧ v ≤ 40 →
      (busRead s 0x028 4).1.toNat = 4 * v + 17 ∧
      (busRead s 0x02C 4).1.toNat = rawCw v ∧
      (busRead s 0x030 4).1.toNat = dataCw lv v ∧
      (busRead s 0x034 4).1.toNat =
        dataCw lv v % numBlocks lv v * 2 ^ 24 + dataCw lv v / numBlocks lv v * 2 ^ 16 +
          eccPerBlock lv v * 2 ^ 8 + numBlocks lv v) ∧
    (¬ (1 ≤ v ∧ v ≤ 40) →
      (busRead s 0x028 4).1 = 0 ∧ (busRead s 0x02C 4).1 = 0 ∧ (busRead s 0x030 4).1 = 0 ∧
      (busRead s 0x034 4).1 = 0)

/-- R156: the split cuts the data into NB consecutive blocks; the first NS = NB - D mod NB hold D div NB
codewords and the rest one more. -/
def Obligations.SplitGivesNearEqualBlocks : Prop :=
  ∀ (data : List Byte) (nb : Nat), 0 < nb →
    (splitBlocks data nb).length = nb ∧ (splitBlocks data nb).flatten = data ∧
    ∀ b (h : b < (splitBlocks data nb).length), ((splitBlocks data nb)[b]).length =
      data.length / nb + (if nb - data.length % nb ≤ b then 1 else 0)

/-- R157: the interleaved output has D + NB*E codewords. -/
def Obligations.InterleaveLength : Prop :=
  ∀ (data : List Byte) (nb e : Nat), 0 < nb → 1 ≤ e →
    (interleave data nb e).length = data.length + nb * e

/-- R156, R157: where each codeword goes. With D codewords in NB blocks, block b starts at codeword `b *
(D div NB)`, one later for each long block before it; its data codeword i below D div NB goes to place
i*NB + b, the last codeword of a long block to place (D div NB)*NB + (b - NS), and its EC codeword i to
place D + i*NB + b. -/
def Obligations.InterleavePlaces : Prop :=
  ∀ (data : List Byte) (nb e i b : Nat), b < nb →
    let q := data.length / nb
    let ns := nb - data.length % nb
    let start := b * q + (b - ns)
    (i < q → (interleave data nb e)[i * nb + b]? = data[start + i]?) ∧
    (ns ≤ b → (interleave data nb e)[q * nb + (b - ns)]? = data[start + q]?) ∧
    (1 ≤ e → i < e → (interleave data nb e)[data.length + i * nb + b]? =
      (rsRem ((data.drop start).take (q + if ns ≤ b then 1 else 0)) e)[i]?)

/-- R160: ECC_ENCODE is the word 0x00000004; for a valid VERSION it writes the interleaved codewords of
DATA_BUF[0..DATA_CW) to OUT_BUF[0..RAW_CW), the generator of degree E to GEN and E to GEN_DEG, and
nothing else but STATUS; for any other VERSION it completes with BAD_VERSION and changes only STATUS. -/
def Obligations.EccEncodeWritesCodewords : Prop :=
  PlainEncoding .eccEncode 0x04 ∧
  ∀ s : State,
    let v := s.config.version.toNat
    let lv := levelOf s.config.ecl
    (1 ≤ v ∧ v ≤ 40 → ∃ t, exec .eccEncode s = .next t ∧ Completed s t 0x00 ∧
      (∀ data : List Byte, data.length = dataCw lv v →
        (∀ i, i < dataCw lv v → s.readByte (0x1000 + i) = data[i]?) →
        ∀ i, i < rawCw v → t.readByte (0x2000 + i) =
          (interleave data (numBlocks lv v) (eccPerBlock lv v))[i]?) ∧
      (∀ i, i < rawCw v → t.readByte (0x2000 + i) ≠ none) ∧
      SameBytesOutside (InOut (rawCw v)) s t ∧
      t.genDeg.toNat = eccPerBlock lv v ∧
      (∀ i (h : i < 31), t.gen[i] =
        if i ≤ eccPerBlock lv v then (genPoly (eccPerBlock lv v)).getD i 0 else 0) ∧
      t = { s with mem := t.mem, gen := t.gen, genDeg := t.genDeg, status := t.status }) ∧
    (¬ (1 ≤ v ∧ v ≤ 40) → ∃ t, exec .eccEncode s = .next t ∧ Completed s t 0x04 ∧
      t = { s with status := t.status } ∧ SameBytes s t)

/-! ## Masks (43_mask.md) -/

/-- R182, R183: APPLY_MASK m is the word `(m << 8) | 0x06`; with m below 8 and a valid VERSION it
inverts DARK of exactly the data modules of the square that the mask selects, keeps every FUNC bit,
every other byte and every register but STATUS; m above 7 completes with INVALID_MASK, and else an
invalid VERSION with BAD_VERSION, changing only STATUS. -/
def Obligations.ApplyMaskInvertsSelectedModules : Prop :=
  MaskedEncoding .applyMask 0x06 ∧
  ∀ (s : State) (m : BitVec 4),
    let v := s.config.version.toNat
    let size := 4 * v + 17
    (m.toNat < 8 → 1 ≤ v ∧ v ≤ 40 → ∃ t, exec (.applyMask m) s = .next t ∧ Completed s t 0x00 ∧
      (∀ x y, x < size → y < size →
        (Memory.cellAt t.mem x y).func = (Memory.cellAt s.mem x y).func ∧
        (Memory.cellAt t.mem x y).dark =
          xor (Memory.cellAt s.mem x y).dark
            (!(Memory.cellAt s.mem x y).func && maskBit m.toNat x y)) ∧
      SameBytesOutside (InSquare size) s t ∧
      t = { s with mem := t.mem, status := t.status }) ∧
    (8 ≤ m.toNat → ∃ t, exec (.applyMask m) s = .next t ∧ Completed s t 0x03 ∧
      t = { s with status := t.status } ∧ SameBytes s t) ∧
    (m.toNat < 8 → ¬ (1 ≤ v ∧ v ≤ 40) → ∃ t, exec (.applyMask m) s = .next t ∧
      Completed s t 0x04 ∧ t = { s with status := t.status } ∧ SameBytes s t)

/-- R184: applying a mask twice is the identity on every byte; any two masks commute; a mask depends
only on x and y modulo 6 (mask 4: on x modulo 6 and y modulo 4); every mask selects (0, 0). -/
def Obligations.MaskAlgebra : Prop :=
  (∀ (s t u : State) (m : BitVec 4), exec (.applyMask m) s = .next t →
    exec (.applyMask m) t = .next u → SameBytes s u) ∧
  (∀ (s t t' u u' : State) (m m' : BitVec 4), m.toNat < 8 → m'.toNat < 8 →
    exec (.applyMask m) s = .next t → exec (.applyMask m') t = .next u →
    exec (.applyMask m') s = .next t' → exec (.applyMask m) t' = .next u' → SameBytes u u') ∧
  (∀ m x y, m < 8 → m ≠ 4 → maskBit m x y = maskBit m (x % 6) (y % 6)) ∧
  (∀ x y, maskBit 4 x y = maskBit 4 (x % 6) (y % 4)) ∧
  (∀ m, m < 8 → maskBit m 0 0 = true)

/-! ## Penalty, SCORE and SELECT_MASK (44_penalty.md) -/

/-- R201: rule (a) sums the run penalty over all rows and all columns; for a line written as its maximal
runs, the run penalty is the sum of `3 + (L - 5)` over the runs of length L at least 5; and every line
can be written so. -/
def Obligations.RunPenaltySumsMaximalRuns : Prop :=
  (∀ runs : List (Bool × Nat), MaximalRuns runs →
    runPenalty (ofRuns runs) =
      ((runs.filter (fun r => 5 ≤ r.2)).map (fun r => 3 + (r.2 - 5))).sum) ∧
  (∀ line : List Bool, ∃ runs, MaximalRuns runs ∧ ofRuns runs = line) ∧
  (∀ (n : Nat) (dark : Nat → Nat → Bool), penaltyA (squareOf n dark) =
    ((List.range n).map (fun y => runPenalty (rowOf n dark y))).sum +
      ((List.range n).map (fun x => runPenalty (columnOf n dark x))).sum)

/-- R202: rule (b) is 3 for every one of the (size-1)^2 window positions whose four modules are of one
colour. -/
def Obligations.BlockPenaltyCountsWindows : Prop :=
  ∀ (n : Nat) (dark : Nat → Nat → Bool),
    penaltyB (squareOf n dark) =
      3 * ((List.range (n - 1)).map (fun y => ((List.range (n - 1)).filter (fun x =>
        dark x y == dark (x + 1) y && dark x y == dark x (y + 1) &&
          dark x y == dark (x + 1) (y + 1))).length)).sum

/-- R203: rule (c) on a line is, for every position i where the seven modules are 1,0,1,1,1,0,1, 40 if
the four modules before are all light and 40 more if the four after are, a position outside the line
being light exactly when P_FLANK_OUTSIDE is LIGHT; the rule sums over all rows and all columns. -/
def Obligations.FinderPenaltyCountsFlankedOccurrences : Prop :=
  (∀ (f : FlankOutside) (ms : List Bool), finderPenalty f ms =
    ((List.range (ms.length - 6)).map (fun i =>
      if ∀ k ∈ List.range 7, ms[i + k]? = [true, false, true, true, true, false, true][k]? then
        (if [1, 2, 3, 4].all (fun j =>
            if j ≤ i then ms[i - j]? == some false else decide (f = .light)) then 40 else 0) +
        (if [7, 8, 9, 10].all (fun j =>
            if i + j < ms.length then ms[i + j]? == some false else decide (f = .light))
          then 40 else 0)
      else 0)).sum) ∧
  (∀ (f : FlankOutside) (n : Nat) (dark : Nat → Nat → Bool), penaltyC f (squareOf n dark) =
    ((List.range n).map (fun y => finderPenalty f (rowOf n dark y))).sum +
      ((List.range n).map (fun x => finderPenalty f (columnOf n dark x))).sum)

/-- R204: for a square of `total` modules, rule (d) is 10 times k, where k is |100*dark - 50*total| div
(5*total) under EXACT and |p - 50| div 5 of the truncated percentage p under TRUNCATED_PERCENT; it is at
most 100, and the two settings agree from half dark up. The dark modules counted are those of the
square. -/
def Obligations.BalancePenaltyFormula : Prop :=
  (∀ dark total : Nat, 0 < total → dark ≤ total →
    balancePenalty .exact dark total =
      10 * ((max (100 * dark) (50 * total) - min (100 * dark) (50 * total)) / (5 * total)) ∧
    balancePenalty .truncatedPercent dark total =
      10 * ((max (100 * dark / total) 50 - min (100 * dark / total) 50) / 5) ∧
    balancePenalty .exact dark total ≤ 100 ∧ balancePenalty .truncatedPercent dark total ≤ 100 ∧
    (total ≤ 2 * dark →
      balancePenalty .truncatedPercent dark total = balancePenalty .exact dark total)) ∧
  (∀ (r : DarkRatio) (n : Nat) (dark : Nat → Nat → Bool), penaltyD r (squareOf n dark) =
    balancePenalty r
      ((List.range n).map (fun y => ((List.range n).filter (fun x => dark x y)).length)).sum (n * n))

/-- R205: the penalty is the sum of the four parts; for a square of side at most 177 the parts are at
most 354 * 175, 176^2 * 3, 354 * 171 * 80 and 100, and the penalty is below 5,000,000, for both settings
of both parameters. -/
def Obligations.PenaltyFitsRegisters : Prop :=
  ∀ (p : Params) (rows : List (List Bool)), rows.length ≤ 177 →
    (∀ r ∈ rows, r.length = rows.length) →
      penalty p rows = penaltyA rows + penaltyB rows + penaltyC p.flankOutside rows +
        penaltyD p.darkRatio rows ∧
      penaltyA rows ≤ 354 * 175 ∧ penaltyB rows ≤ 176 ^ 2 * 3 ∧
      penaltyC p.flankOutside rows ≤ 354 * 171 * 80 ∧ penaltyD p.darkRatio rows ≤ 100 ∧
      penalty p rows < 5000000

/-- R207, R200, R205: SCORE is the word 0x00000007; with a valid VERSION it writes to RESULT the sum of
the four parts over the DARK bits of the square, FUNC ignored and unwrapped; it changes nothing else but
STATUS. With any other VERSION it completes with BAD_VERSION. -/
def Obligations.ScoreWritesPenalty : Prop :=
  PlainEncoding .score 0x07 ∧
  ∀ s : State,
    let v := s.config.version.toNat
    let size := 4 * v + 17
    let rows := (List.range size).map (fun y =>
      (List.range size).map (fun x => (Memory.cellAt s.mem x y).dark))
    (1 ≤ v ∧ v ≤ 40 → ∃ t, exec .score s = .next t ∧ Completed s t 0x00 ∧
      t.result.toNat = penaltyA rows + penaltyB rows + penaltyC s.params.flankOutside rows +
        penaltyD s.params.darkRatio rows ∧
      t = { s with result := t.result, status := t.status } ∧ SameBytes s t) ∧
    (¬ (1 ≤ v ∧ v ≤ 40) → ∃ t, exec .score s = .next t ∧ Completed s t 0x04 ∧
      t = { s with status := t.status } ∧ SameBytes s t)

/-- R208, R206: SELECT_MASK is the word 0x00000008; with a valid VERSION it writes to each SCORE[m] the
penalty of the square with mask m applied, to BEST_MASK the least m of lowest score, to RESULT that
score, and inverts in GRID the modules that mask selects; nothing else but STATUS changes. With any
other VERSION it completes with BAD_VERSION. -/
def Obligations.SelectMaskScoresAndCommits : Prop :=
  PlainEncoding .selectMask 0x08 ∧
  ∀ s : State,
    let v := s.config.version.toNat
    let size := 4 * v + 17
    let trial := fun m : Nat => penalty s.params ((List.range size).map (fun y =>
      (List.range size).map (fun x => xor (Memory.cellAt s.mem x y).dark
        (!(Memory.cellAt s.mem x y).func && maskBit m x y))))
    (1 ≤ v ∧ v ≤ 40 → ∃ t, exec .selectMask s = .next t ∧ Completed s t 0x00 ∧
      (∀ m (h : m < 8), t.score[m].toNat = trial m) ∧
      (∀ m, m < 8 → trial t.bestMask.toNat ≤ trial m) ∧
      (∀ m, m < t.bestMask.toNat → trial t.bestMask.toNat < trial m) ∧
      t.result.toNat = trial t.bestMask.toNat ∧
      (∀ x y, x < size → y < size →
        (Memory.cellAt t.mem x y).func = (Memory.cellAt s.mem x y).func ∧
        (Memory.cellAt t.mem x y).dark = xor (Memory.cellAt s.mem x y).dark
          (!(Memory.cellAt s.mem x y).func && maskBit t.bestMask.toNat x y)) ∧
      SameBytesOutside (InSquare size) s t ∧
      t = { s with mem := t.mem, score := t.score, bestMask := t.bestMask,
                   result := t.result, status := t.status }) ∧
    (¬ (1 ≤ v ∧ v ≤ 40) → ∃ t, exec .selectMask s = .next t ∧ Completed s t 0x04 ∧
      t = { s with status := t.status } ∧ SameBytes s t)

/-- R210: after a successful SELECT_MASK the score of the chosen mask is at most every other score, and
a mask of equal score has no smaller index. -/
def Obligations.ChosenMaskHasLeastScore : Prop :=
  ∀ s t : State, exec .selectMask s = .next t → t.status.errcode = 0 →
    ∃ h : t.bestMask.toNat < 8,
      (∀ m (hm : m < 8), t.score[t.bestMask.toNat].toNat ≤ t.score[m].toNat) ∧
      (∀ m (hm : m < 8), t.score[m] = t.score[t.bestMask.toNat] → t.bestMask.toNat ≤ m)

/-- R206, R207, R208: the score SELECT_MASK reports for the mask it commits is the score that SCORE then
gives the committed grid. -/
def Obligations.CommittedGridHasReportedScore : Prop :=
  ∀ s t u : State, exec .selectMask s = .next t → t.status.errcode = 0 →
    exec .score t = .next u → u.result = t.result

/-! ## Format and version words (45_format.md) -/

/-- R230: for a polynomial G with a term, the BCH remainder has fewer than k = deg G bits, and `val *
x^k` is the remainder plus (XOR) shifted copies of G. -/
def Obligations.BchIsPolynomialRemainder : Prop :=
  ∀ val g : Nat, 0 < g → bchRem val g < 2 ^ Nat.log2 g ∧
    ∃ shifts : List Nat, val <<< Nat.log2 g =
      shifts.foldl (fun r j => r ^^^ (g <<< j)) (bchRem val g)

/-- R231, R232: FORMAT_WORD m is the word `(m << 8) | 0x09`; with m below 8 it writes to RESULT the five
data bits ECL and m above the ten check bits, XORed with 0x5412, whatever VERSION is, and nothing else
but STATUS; m above 7 completes with INVALID_MASK and changes only STATUS. -/
def Obligations.FormatWordWritesWord : Prop :=
  MaskedEncoding .formatWord 0x09 ∧
  ∀ (s : State) (m : BitVec 4),
    let d := s.config.ecl.toNat * 8 + m.toNat
    (m.toNat < 8 → ∃ t, exec (.formatWord m) s = .next t ∧ Completed s t 0x00 ∧
      t.result.toNat = (d * 1024 + bchRem d 0x537) ^^^ 0x5412 ∧ t.result.toNat < 2 ^ 15 ∧
      t = { s with result := t.result, status := t.status } ∧ SameBytes s t) ∧
    (8 ≤ m.toNat → ∃ t, exec (.formatWord m) s = .next t ∧ Completed s t 0x03 ∧
      t = { s with status := t.status } ∧ SameBytes s t)

/-- R233: VERSION_WORD is the word 0x0000000A; with VERSION in [7, 40] it writes to RESULT the six
version bits above the twelve check bits and nothing else but STATUS; any other VERSION completes with
BAD_VERSION and changes only STATUS. -/
def Obligations.VersionWordWritesWord : Prop :=
  PlainEncoding .versionWord 0x0A ∧
  ∀ s : State,
    let v := s.config.version.toNat
    (7 ≤ v ∧ v ≤ 40 → ∃ t, exec .versionWord s = .next t ∧ Completed s t 0x00 ∧
      t.result.toNat = v * 4096 + bchRem v 0x1F25 ∧ t.result.toNat < 2 ^ 18 ∧
      t = { s with result := t.result, status := t.status } ∧ SameBytes s t) ∧
    (¬ (7 ≤ v ∧ v ≤ 40) → ∃ t, exec .versionWord s = .next t ∧ Completed s t 0x04 ∧
      t = { s with status := t.status } ∧ SameBytes s t)

/-- R235: any two of the 32 format words differ in at least 7 bits and any two of the 34 version words
in at least 8; format words are below 2^15 and version words below 2^18. -/
def Obligations.WordDistances : Prop :=
  (∀ d, d < 32 → fmtWord (d / 8) (d % 8) < 2 ^ 15 ∧ ∀ d', d' < d →
    7 ≤ hammingDistance 15 (fmtWord (d / 8) (d % 8)) (fmtWord (d' / 8) (d' % 8))) ∧
  (∀ v, v < 41 → 7 ≤ v → verWord v < 2 ^ 18 ∧ ∀ v', v' < v → 7 ≤ v' →
    8 ≤ hammingDistance 18 (verWord v) (verWord v'))

/-! ## Host bus accesses (20_memory.md, 10_state.md) -/

/-- R63, R60, R61, R62: an access inside the window that is not legal reads 0, writes nothing and sets
BUSERR, whatever BUSY is; a legal one never sets BUSERR. (HostTurnPerformsAccess speaks of accesses
outside the window.) -/
def Obligations.IllegalAccessSetsBuserr : Prop :=
  ∀ (s : State) (off n : Nat) (v : Word),
    (off < 0x20000 → ¬ LegalAccess off n →
      busRead s off n = (0, { s with status := { s.status with buserr := true } }) ∧
      busWrite s off n v = { s with status := { s.status with buserr := true } }) ∧
    (LegalAccess off n → (busRead s off n).2.status = s.status ∧
      ((busWrite s off n v).status.buserr = true → s.status.buserr = true))

/-- R66: no read inside the window changes anything but the model's own count of free draws and, on an
access error, BUSERR; with BUSY = 0 a legal read changes nothing at all, so a second read returns the
same value. (The count of draws is the model's choice, log entry 3.) -/
def Obligations.ReadsHaveNoSideEffect : Prop :=
  ∀ (s : State) (off n : Nat),
    (LegalAccess off n → (busRead s off n).2 = { s with draws := (busRead s off n).2.draws }) ∧
    (off < 0x20000 → ¬ LegalAccess off n →
      (busRead s off n).2 = { s with status := { s.status with buserr := true } }) ∧
    (LegalAccess off n → s.status.busy = false →
      (busRead s off n).2 = s ∧ busRead (busRead s off n).2 off n = busRead s off n)

/-- R25, R27, R32, R33, R34, R36, R37, R62, R68: what a legal read returns, in every state. STATUS reads
with BUSY, DONE, OVR and BUSERR in bits 0 to 3, ERRCODE in bits [15:8] and every other bit 0; ID, CTRL,
CMD, CONFIG, ARG0, ARG1 and DATA_BUF read what they hold, whatever BUSY is. With BUSY = 0 the result
registers and every buffer byte read what they hold, zero above. While BUSY = 1 a read of ID, CTRL,
STATUS, CMD, CONFIG, ARG0, ARG1, the derived registers or DATA_BUF returns what it returns with BUSY =
0, STATUS apart from its own BUSY bit; a read of any other location returns a fresh draw of the read's
width and changes nothing else. (How a draw is taken is the model's choice, log entry 3.) -/
def Obligations.LegalReadsReturnTheirValues : Prop :=
  ∀ s : State,
    (∃ w, busRead s 0x008 4 = (w, s) ∧ w.getLsbD 0 = s.status.busy ∧ w.getLsbD 1 = s.status.done ∧
      w.getLsbD 2 = s.status.ovr ∧ w.getLsbD 3 = s.status.buserr ∧ w.extractLsb' 4 4 = 0 ∧
      w.extractLsb' 8 8 = s.status.errcode ∧ w.extractLsb' 16 16 = 0) ∧
    busRead s 0x000 4 = (0x52534D01, s) ∧
    (∃ w, busRead s 0x004 4 = (w, s) ∧ w.toNat = if s.ie then 1 else 0) ∧
    busRead s 0x00C 4 = (s.cmd, s) ∧
    (∃ w, busRead s 0x010 4 = (w, s) ∧
      w.toNat = s.config.ecl.toNat * 256 + s.config.version.toNat) ∧
    busRead s 0x014 4 = (s.arg0, s) ∧ busRead s 0x018 4 = (s.arg1, s) ∧
    (∀ i, i < 4096 → ∃ b, s.readByte (0x1000 + i) = some b ∧
      busRead s (0x1000 + i) 1 = (b.setWidth 32, s)) ∧
    (s.status.busy = false →
      busRead s 0x01C 4 = (s.result, s) ∧ busRead s 0x020 4 = (s.bestMask.setWidth 32, s) ∧
      busRead s 0x024 4 = (s.genDeg.setWidth 32, s) ∧
      (∀ i (h : i < 31), busRead s (0x100 + 4 * i) 4 = ((s.gen[i]).setWidth 32, s)) ∧
      (∀ m (h : m < 8), busRead s (0x200 + 4 * m) 4 = (s.score[m], s)) ∧
      (∀ off, BufferOffset off → ∃ b, s.readByte off = some b ∧
        busRead s off 1 = (b.setWidth 32, s))) ∧
    (s.status.busy = true →
      (∀ off, off ∈ [0x000, 0x004, 0x00C, 0x010, 0x014, 0x018, 0x028, 0x02C, 0x030, 0x034] →
        busRead s off 4 =
          ((busRead { s with status := { s.status with busy := false } } off 4).1, s)) ∧
      busRead s 0x008 4 =
        ((busRead { s with status := { s.status with busy := false } } 0x008 4).1 ||| 1, s) ∧
      (∀ i, i < 4096 → busRead s (0x1000 + i) 1 =
        ((busRead { s with status := { s.status with busy := false } } (0x1000 + i) 1).1, s)) ∧
      (∀ off, (off ∈ [0x01C, 0x020, 0x024] ∨ RegisterOffset off ∧ 0x100 ≤ off) →
        busRead s off 4 = (Config.freeValue s.draws, { s with draws := s.draws + 1 })) ∧
      (∀ off, BufferOffset off → 0x2000 ≤ off →
        busRead s off 1 =
          (((Config.freeValue s.draws).setWidth 8).setWidth 32, { s with draws := s.draws + 1 })))

/-- R67: while BUSY = 1 a legal write to CTRL or STATUS acts as with BUSY = 0, and any other is dropped
and sets OVR; one to a read-only register is ignored whatever BUSY is, and an access error (inside the
window) sets BUSERR and never OVR. -/
def Obligations.BusyWritesAreDropped : Prop :=
  ∀ (s : State) (v : Word),
    (∀ off, RegisterOffset off → off ∉ [0x004, 0x008, 0x00C, 0x010, 0x014, 0x018] →
      busWrite s off 4 v = s) ∧
    (∀ off n, off < 0x20000 → ¬ LegalAccess off n →
      busWrite s off n v = { s with status := { s.status with buserr := true } }) ∧
    (s.status.busy = true →
      busWrite s 0x004 4 v = { s with ie := v.getLsbD 0 } ∧
      busWrite s 0x008 4 v = { s with status :=
        { (busWrite { s with status := { s.status with busy := false } } 0x008 4 v).status with
          busy := true } } ∧
      (∀ off, off ∈ [0x00C, 0x010, 0x014, 0x018] →
        busWrite s off 4 v = { s with status := { s.status with ovr := true } }) ∧
      (∀ off, BufferOffset off →
        busWrite s off 1 v = { s with status := { s.status with ovr := true } }))

/-- R26: a write of v to STATUS clears DONE, OVR and BUSERR where bits 1, 2 and 3 of v are 1, and
changes nothing else, whatever BUSY is; a write to a read-only register changes nothing. -/
def Obligations.StatusWriteOneToClear : Prop :=
  ∀ (s : State) (v : Word),
    (∃ t, busWrite s 0x008 4 v = t ∧ t = { s with status := t.status } ∧
      t.status.busy = s.status.busy ∧ t.status.errcode = s.status.errcode ∧
      t.status.done = (if v.getLsbD 1 then false else s.status.done) ∧
      t.status.ovr = (if v.getLsbD 2 then false else s.status.ovr) ∧
      t.status.buserr = (if v.getLsbD 3 then false else s.status.buserr)) ∧
    (∀ off, RegisterOffset off → off ∉ [0x004, 0x008, 0x00C, 0x010, 0x014, 0x018] →
      busWrite s off 4 v = s)

/-- R24, R28, R31: with BUSY = 0 a write to CTRL stores bit 0, to CONFIG bits [5:0] and [9:8], to ARG0
and ARG1 every bit, each reads back with its reserved bits 0, and nothing else changes. -/
def Obligations.WritableRegistersReadBack : Prop :=
  ∀ (s : State) (v : Word), s.status.busy = false →
    busRead (busWrite s 0x004 4 v) 0x004 4 = (v &&& 0x1, { s with ie := v.getLsbD 0 }) ∧
    (∃ c, busWrite s 0x010 4 v = { s with config := c } ∧
      (busRead (busWrite s 0x010 4 v) 0x010 4).1 = v &&& 0x33F) ∧
    busRead (busWrite s 0x014 4 v) 0x014 4 = (v, { s with arg0 := v }) ∧
    busRead (busWrite s 0x018 4 v) 0x018 4 = (v, { s with arg1 := v })

/-- R62, R41: with BUSY = 0 a byte written to a buffer reads back, of a GRID cell only bits [1:0]; every
other byte and every register stay as they were. (That an 8-bit write of a number above 255 stores its
low 8 bits is the model's choice, log entry 11.) -/
def Obligations.BufferByteReadsBack : Prop :=
  ∀ (s : State) (off : Nat) (v : Word), s.status.busy = false → BufferOffset off →
    (busRead (busWrite s off 1 v) off 1).1 = (if off < 0x10000 then v &&& 0xFF else v &&& 0x3) ∧
    SameBytesOutside (fun a => a = off) s (busWrite s off 1 v) ∧
    busWrite s off 1 v = { s with mem := (busWrite s off 1 v).mem }

/-- R60, R6, R100: the host's turn, scheduled or by default when nothing is scheduled and BUSY = 0, runs
the line its script stands at. A `rd` or `wr` performs that access at that window offset, whatever
P_BASE is; outside the window RSMASK changes nothing and a read returns a draw of its width. A `label`
goes on, a `bnz` branches to a line with its label where the masked value is not 0 and else goes on, and
past the end of the script nothing changes. (The schedule, the answer outside the window, the count of
draws, how labels resolve and that a line without an access takes a turn are the model's choice, log
entries 3, 5, 6, 8 and 20.) -/
def Obligations.HostTurnPerformsAccess : Prop :=
  ∀ s u : State, s.params.hosts ≤ 1 →
    ((∃ ts, s.schedule = .host :: ts ∧ u = { s with schedule := ts }) ∨
      (s.schedule = [] ∧ s.status.busy = false ∧ u = s)) →
    (∀ off n, s.script[s.pos]? = some (.rd off n) → off < 0x20000 →
      step s = .next { (busRead u off n).2 with
        lastRead := (busRead u off n).1, pos := s.pos + 1 }) ∧
    (∀ off n, s.script[s.pos]? = some (.rd off n) → 0x20000 ≤ off →
      step s = .next { u with
        draws := s.draws + 1
        lastRead := ((Config.freeValue s.draws).setWidth (8 * n)).setWidth 32
        pos := s.pos + 1 }) ∧
    (∀ off n v, s.script[s.pos]? = some (.wr off n v) → off < 0x20000 →
      step s = .next { busWrite u off n v with pos := s.pos + 1 }) ∧
    (∀ off n v, s.script[s.pos]? = some (.wr off n v) → 0x20000 ≤ off →
      step s = .next { u with pos := s.pos + 1 }) ∧
    (∀ l, s.script[s.pos]? = some (.label l) → step s = .next { u with pos := s.pos + 1 }) ∧
    (∀ x mask l, s.script[s.pos]? = some (.bnz x mask l) → hostValue s x &&& mask = 0 →
      step s = .next { u with pos := s.pos + 1 }) ∧
    (∀ x mask l, s.script[s.pos]? = some (.bnz x mask l) → hostValue s x &&& mask ≠ 0 →
      HostLine.label l ∈ s.script →
      ∃ p, s.script[p]? = some (.label l) ∧ step s = .next { u with pos := p }) ∧
    (s.script[s.pos]? = none → step s = .next u)

/-! ## Interrupt (60_exceptions.md) -/

/-- R255, R256: irq is CTRL.IE AND DONE: any completion, of a word that decodes to an error too, with IE
= 1 raises it, a completion with IE = 0 does not; acceptance of a command and a write of 1 to STATUS bit
1 lower it; an access error inside the window and every rejected write leave it as it was. -/
def Obligations.InterruptFollowsDone : Prop :=
  (∀ s : State, s.irq = (s.ie && s.status.done)) ∧
  (∀ s t : State, s.status.busy = true → engineStep s = .next t → t.irq = s.ie) ∧
  (∀ (s : State) (w : Word), s.status.busy = false → (busWrite s 0x00C 4 w).irq = false) ∧
  (∀ (s : State) (v : Word), v.getLsbD 1 = true → (busWrite s 0x008 4 v).irq = false) ∧
  (∀ (s : State) (off n : Nat) (v : Word), off < 0x20000 → ¬ LegalAccess off n →
    (busRead s off n).2.irq = s.irq ∧ (busWrite s off n v).irq = s.irq) ∧
  (∀ (s : State) (off n : Nat) (v : Word), s.status.busy = true →
    (n = 4 ∧ off ∈ [0x00C, 0x010, 0x014, 0x018] ∨ n = 1 ∧ BufferOffset off) →
    (busWrite s off n v).irq = s.irq)

/-! ## Reset (10_state.md R45, 70_reset_and_hazards.md) -/

/-- R45: what every mapped register reads as at power-on reset: ID its constant, every other register 0;
irq is low and no command is pending; every buffer location holds its `initMem` byte, of a GRID cell
bits [1:0]. -/
def Obligations.PowerOnRegisterValues : Prop :=
  busRead State.reset 0x000 4 = (0x52534D01, State.reset) ∧
  (∀ off, RegisterOffset off → off ≠ 0x000 → busRead State.reset off 4 = (0, State.reset)) ∧
  State.reset.irq = false ∧ State.reset.status.busy = false ∧
  (∀ off, BufferOffset off → State.reset.readByte off =
    some (if off < 0x10000 then Config.initMem off else Config.initMem off &&& 3))

/-- R280, R281, R283: a scheduled reset is one step; after a reset at any point every register holds
what it holds at power-on, irq is low, the engine has no enabled step, and DATA_BUF is unchanged; a
reset while BUSY = 0 leaves every byte of every buffer as it was. The parameters, the host's script, its
position, its last value and the schedule are no registers of RSMASK and stay. (The schedule and what a
reset does to the host are the model's choice, log entries 5 and 16.) -/
def Obligations.ResetRestoresRegisters : Prop :=
  ∀ s : State,
    resetPin s = { State.reset with
      params := s.params, mem := (resetPin s).mem, script := s.script, pos := s.pos,
      lastRead := s.lastRead, schedule := s.schedule, draws := (resetPin s).draws } ∧
    (resetPin s).irq = false ∧ engineStep (resetPin s) = .next (resetPin s) ∧
    (∀ ts, s.params.hosts ≤ 1 → s.schedule = .reset :: ts →
      step s = .next (resetPin { s with schedule := ts })) ∧
    (∀ i, i < 4096 → (resetPin s).readByte (0x1000 + i) = s.readByte (0x1000 + i)) ∧
    (s.status.busy = false → SameBytes s (resetPin s))

/-- R282, R35: a reset while BUSY = 1 leaves free draws in the locations that the command named by the
pending word's OPC writes: OUT_BUF[0, d) for RS_BLOCK, OUT_BUF[0, RAW_CW) for ECC_ENCODE, none where
VERSION is not valid and RAW_CW so 0, the DARK bits of the square for APPLY_MASK and SELECT_MASK, every
cell for GRID_CLEAR, none for any other word. No other byte changes, and FUNC is kept unless the command
is GRID_CLEAR. (How draws are numbered is the model's choice, log entry 3; that they stand there
whatever checks the word or its operands would have failed, with a square's side cut at 177, is its
choice too, log entry 7.) -/
def Obligations.AbortedOutputsAreDraws : Prop :=
  ∀ s : State, s.status.busy = true →
    let opc := s.cmd.toNat % 256
    let v := s.config.version.toNat
    let out := if opc = 3 then s.arg1.toNat % 256
      else if opc = 4 then (if 1 ≤ v ∧ v ≤ 40 then rawCw v else 0) else 0
    let side := if opc = 6 ∨ opc = 8 then min (4 * v + 17) 177 else if opc = 5 then 177 else 0
    SameBytesOutside (fun a => InOut out a ∨ InSquare side a) s (resetPin s) ∧
    (∀ j, j < out → (resetPin s).readByte (0x2000 + j) =
      some ((Config.freeValue (s.draws + j)).setWidth 8)) ∧
    (∀ x y, x < side → y < side → (Memory.cellAt (resetPin s).mem x y).dark =
      (Config.freeValue (s.draws + (y * side + x))).getLsbD 0) ∧
    (∀ x y, x < 177 → y < 177 → (Memory.cellAt (resetPin s).mem x y).func =
      if opc = 5 then (Config.freeValue (s.draws + (y * 177 + x))).getLsbD 1
      else (Memory.cellAt s.mem x y).func) ∧
    (resetPin s).draws = s.draws + out + side * side

/-! ## The whole machine -/

/-- R45: the state after power-on reset meets the invariant. -/
def Obligations.ResetMeetsInvariant : Prop := State.Inv State.reset

/-- R36, R41, R110, R112, R251: from every state that meets the invariant, reachable or not, every step
leads to one that does: memory canonical with reserved cell bits 0, GEN the generator of degree GEN_DEG,
BUSY and DONE never both 1, ERRCODE a code of R251. -/
def Obligations.StepKeepsInvariant : Prop :=
  ∀ s t : State, State.Inv s → step s = .next t → State.Inv t

/-- R8, R265, R257: no step changes a parameter; a step is refused only for more than one host or for a
script that branches to a label it does not hold; no command is ever refused. (How labels resolve is the
model's choice, log entry 8.) -/
def Obligations.OnlyHostSideRefusals : Prop :=
  (∀ s t : State, step s = .next t → t.params = s.params) ∧
  (∀ (s : State) (r : Refusal), step s = .refused r →
    (1 < s.params.hosts ∧ r = .multipleHosts) ∨
    (∃ v mask l, s.script[s.pos]? = some (.bnz v mask l) ∧ HostLine.label l ∉ s.script ∧
      r = .undefinedLabel l)) ∧
  (∀ s : State, 1 < s.params.hosts → step s = .refused .multipleHosts) ∧
  (∀ (i : Instr) (s : State) (r : Refusal), exec i s ≠ .refused r)

/-- R294, R290, R70: the results of a command do not depend on its latency: after any number k of host
turns taken while it is pending, the engine's step completes it with the code, registers and memory it
would have completed with at once. (The schedule, and that each engine turn completes the pending
command, are the model's choice, log entries 5 and 17.) -/
def Obligations.LatencyDoesNotChangeResults : Prop :=
  ∀ (s s' : State) (k : Nat) (ts : List Turn), s.params.hosts ≤ 1 → s.status.busy = true →
    s.schedule = List.replicate k .host ++ .engine :: ts →
    Host.Core.run Sys2Proof.core k s = .next s' →
      ∃ t u, engineStep s = .next t ∧ step s' = .next u ∧
        u.status.busy = false ∧ u.status.done = true ∧ u.status.errcode = t.status.errcode ∧
        u.result = t.result ∧ u.bestMask = t.bestMask ∧ u.genDeg = t.genDeg ∧ u.gen = t.gen ∧
        u.score = t.score ∧ u.mem = t.mem

/-- R295, R76, R293: what a command writes depends only on the state R76 lists for it: two states that
agree there complete with one code and, on success, with the same written values, whatever else they
hold. -/
def Obligations.ResultsDependOnlyOnListedInputs : Prop :=
  ∀ s s' : State, s.params = s'.params →
    let v := s.config.version.toNat
    let size := 4 * v + 17
    let same := fun (i : Instr) (out : State → State → Prop) => ∃ t t', exec i s = .next t ∧
      exec i s' = .next t' ∧ t.status.errcode = t'.status.errcode ∧
      (t.status.errcode = 0 → out t t')
    (s.arg0.toNat % 256 = s'.arg0.toNat % 256 → s.arg1.toNat % 256 = s'.arg1.toNat % 256 →
      same .gfMul (fun t t' => t.result = t'.result)) ∧
    (s.arg1.toNat % 256 = s'.arg1.toNat % 256 →
      same .genPoly (fun t t' => t.gen = t'.gen ∧ t.genDeg = t'.genDeg)) ∧
    (s.arg0.toNat % 65536 = s'.arg0.toNat % 65536 → s.arg1.toNat % 256 = s'.arg1.toNat % 256 →
      (∀ i, i < s.arg0.toNat % 65536 → s.readByte (0x1000 + i) = s'.readByte (0x1000 + i)) →
      same .rsBlock (fun t t' => t.gen = t'.gen ∧ t.genDeg = t'.genDeg ∧
        ∀ j, j < s.arg1.toNat % 256 → t.readByte (0x2000 + j) = t'.readByte (0x2000 + j))) ∧
    (s.config = s'.config → (∀ i, i < dataCw (levelOf s.config.ecl) v →
        s.readByte (0x1000 + i) = s'.readByte (0x1000 + i)) →
      same .eccEncode (fun t t' => t.gen = t'.gen ∧ t.genDeg = t'.genDeg ∧
        ∀ i, i < rawCw v → t.readByte (0x2000 + i) = t'.readByte (0x2000 + i))) ∧
    (s.config.version = s'.config.version → (∀ x y, x < size → y < size →
        (Memory.cellAt s.mem x y).dark = (Memory.cellAt s'.mem x y).dark) →
      same .score (fun t t' => t.result = t'.result)) ∧
    (s.config.version = s'.config.version → (∀ x y, x < size → y < size →
        Memory.cellAt s.mem x y = Memory.cellAt s'.mem x y) →
      same .selectMask (fun t t' => t.score = t'.score ∧ t.bestMask = t'.bestMask ∧
        t.result = t'.result ∧ ∀ x y, x < size → y < size →
          Memory.cellAt t.mem x y = Memory.cellAt t'.mem x y) ∧
      ∀ m, same (.applyMask m) (fun t t' => ∀ x y, x < size → y < size →
        Memory.cellAt t.mem x y = Memory.cellAt t'.mem x y)) ∧
    (s.config.ecl = s'.config.ecl → ∀ m,
      same (.formatWord m) (fun t t' => t.result = t'.result)) ∧
    (s.config.version = s'.config.version →
      same .versionWord (fun t t' => t.result = t'.result))
end

