-- ==== Sys2Proof/Laws/Memory.lean ====
section
/-!
SUPPORT. What each memory operation does to the byte at an offset, and that each keeps the canonical
form `Memory.wf`.
-/
namespace Sys2Proof.Machine

/-! Reading the list. -/

theorem Memory.get_append (m n : List Host.Cell) (a : Nat) :
    Memory.get (m ++ n) a = (Memory.get m a).or (Memory.get n a) := by
  induction m with
  | nil => simp [Memory.get]
  | cons c m ih =>
    obtain ⟨k, v⟩ := c
    simp only [List.cons_append, Memory.get]
    split <;> simp_all

theorem Memory.get_filter (p : Nat → Bool) (m : List Host.Cell) (a : Nat) :
    Memory.get (m.filter (fun c => p c.1)) a = if p a then Memory.get m a else none := by
  induction m with
  | nil => simp [Memory.get]
  | cons c m ih =>
    obtain ⟨k, v⟩ := c
    by_cases hk : k = a
    · subst hk
      cases hp : p k <;> simp [hp, Memory.get, ih]
    · cases hp : p k <;> simp [hp, Memory.get, ih, hk]

theorem Memory.get_eq_none (m : List Host.Cell) (a : Nat) (h : ∀ c ∈ m, c.1 ≠ a) :
    Memory.get m a = none := by
  induction m with
  | nil => rfl
  | cons c m ih =>
    obtain ⟨k, v⟩ := c
    have hk : k ≠ a := h (k, v) (by simp)
    simp only [Memory.get, hk, if_false]
    exact ih (fun c hc => h c (by simp [hc]))

theorem Memory.mem_of_get (m : List Host.Cell) (a : Nat) (v : Byte) (h : Memory.get m a = some v) :
    (a, v) ∈ m := by
  induction m with
  | nil => simp [Memory.get] at h
  | cons c m ih =>
    obtain ⟨k, w⟩ := c
    simp only [Memory.get] at h
    split at h
    · simp_all
    · exact List.mem_cons_of_mem _ (ih h)

theorem Memory.get_replaceRegion (m cells : List Host.Cell) (lo hi a : Nat)
    (hcells : ∀ c ∈ cells, lo ≤ c.1 ∧ c.1 < hi) (hle : lo ≤ hi) :
    Memory.get (Memory.replaceRegion m lo hi cells) a =
      if lo ≤ a ∧ a < hi then Memory.get cells a else Memory.get m a := by
  unfold Memory.replaceRegion
  rw [Memory.get_append, Memory.get_append, Memory.get_filter (fun k => decide (k < lo)),
    Memory.get_filter (fun k => decide (hi ≤ k))]
  by_cases h : lo ≤ a ∧ a < hi
  · have h1 : ¬ a < lo := by omega
    have h2 : ¬ hi ≤ a := by omega
    simp [h, h1, h2]
  · have h3 : Memory.get cells a = none := by
      refine Memory.get_eq_none _ _ (fun c hc heq => h ?_)
      have := hcells c hc
      omega
    by_cases h1 : a < lo
    · have h2 : ¬ hi ≤ a := by omega
      simp [h1, h2, h3]
    · have h2 : hi ≤ a := by omega
      have h4 : ¬ a < hi := by omega
      simp [h1, h2, h3, h4]

theorem Memory.get_window (m : List Host.Cell) (lo n a : Nat) :
    Memory.get (Memory.window m lo n) a =
      if lo ≤ a ∧ a < lo + n then Memory.get m a else none := by
  unfold Memory.window
  rw [Memory.get_filter (fun k => decide (lo ≤ k) && decide (k < lo + n))]
  simp

theorem Memory.mapCells_keys (w : List Host.Cell) (lo n : Nat) (f : Nat → Option Byte → Option Byte) :
    ∀ c ∈ Memory.mapCells w lo n f, lo ≤ c.1 ∧ c.1 < lo + n := by
  intro c hc
  simp only [Memory.mapCells, List.mem_filterMap, List.mem_range, Option.map_eq_some_iff] at hc
  obtain ⟨i, hi, b, _, rfl⟩ := hc
  simp only
  omega

theorem Memory.mapCells_succ (w : List Host.Cell) (lo n : Nat)
    (f : Nat → Option Byte → Option Byte) :
    Memory.mapCells w lo (n + 1) f = Memory.mapCells w lo n f ++
      ((f n (Memory.get w (lo + n))).map (fun b => (lo + n, b))).toList := by
  unfold Memory.mapCells
  rw [List.range_succ, List.filterMap_append]
  cases h : f n (Memory.get w (lo + n)) <;> simp [h]

theorem Memory.get_mapCells (w : List Host.Cell) (lo n a : Nat)
    (f : Nat → Option Byte → Option Byte) :
    Memory.get (Memory.mapCells w lo n f) a =
      if lo ≤ a ∧ a < lo + n then f (a - lo) (Memory.get w a) else none := by
  induction n with
  | zero =>
    rw [if_neg (by omega)]
    rfl
  | succ n ih =>
    rw [Memory.mapCells_succ, Memory.get_append, ih]
    by_cases h : a = lo + n
    · subst h
      have h1 : ¬ (lo ≤ lo + n ∧ lo + n < lo + n) := by omega
      have h2 : lo ≤ lo + n ∧ lo + n < lo + (n + 1) := by omega
      rw [if_neg h1, if_pos h2, Nat.add_sub_cancel_left]
      cases hf : f n (Memory.get w (lo + n)) <;> simp [Memory.get]
    · have h3 : Memory.get ((f n (Memory.get w (lo + n))).map (fun b => (lo + n, b))).toList a = none := by
        refine Memory.get_eq_none _ _ (fun c hc heq => h ?_)
        simp only [Option.mem_toList, Option.map_eq_some_iff] at hc
        obtain ⟨b, _, rfl⟩ := hc
        exact heq.symm
      rw [h3, Option.or_none]
      by_cases h1 : lo ≤ a ∧ a < lo + n
      · have h2 : lo ≤ a ∧ a < lo + (n + 1) := by omega
        rw [if_pos h1, if_pos h2]
      · have h2 : ¬ (lo ≤ a ∧ a < lo + (n + 1)) := by omega
        rw [if_neg h1, if_neg h2]

theorem Memory.get_mapRange (m : List Host.Cell) (lo n a : Nat)
    (f : Nat → Option Byte → Option Byte) :
    Memory.get (Memory.mapRange m lo n f) a =
      if lo ≤ a ∧ a < lo + n then f (a - lo) (Memory.get m a) else Memory.get m a := by
  unfold Memory.mapRange
  rw [Memory.get_replaceRegion _ _ _ _ _ (Memory.mapCells_keys _ _ _ _) (by omega),
    Memory.get_mapCells, Memory.get_window]
  by_cases h : lo ≤ a ∧ a < lo + n <;> simp [h]

/-! GRID offsets. -/

theorem gridAddr_inj {x y x' y' : Nat} (hx : x < 256) (hx' : x' < 256)
    (h : gridAddr x y = gridAddr x' y') : x = x' ∧ y = y' := by
  unfold gridAddr at h
  omega

theorem isGridCell_iff (a : Nat) : isGridCell a = true ↔ InSquare 177 a := by
  unfold isGridCell InSquare gridAddr
  simp only [Bool.and_eq_true, decide_eq_true_eq]
  constructor
  · rintro ⟨⟨h1, h2⟩, h3⟩
    exact ⟨(a - 0x10000) % 256, (a - 0x10000) / 256, h3, h2, by omega⟩
  · rintro ⟨x, y, hx, hy, rfl⟩
    omega

@[simp] theorem isGridCell_gridAddr {x y : Nat} (hx : x < 177) (hy : y < 177) :
    isGridCell (gridAddr x y) = true := (isGridCell_iff _).2 ⟨x, y, hx, hy, rfl⟩

theorem isBuffer_of_gridCell {a : Nat} (h : isGridCell a = true) : isBuffer a = true := by
  simp [isBuffer, h]

theorem not_gridCell_of_lt {a : Nat} (h : a < 0x10000) : isGridCell a = false := by
  unfold isGridCell
  have h1 : ¬ 0x10000 ≤ a := by omega
  simp [h1]

theorem Memory.get_mapSquare_step (m : List Host.Cell) (size n : Nat)
    (f : Nat → Nat → Option Byte → Option Byte) (hs : size ≤ 256) (a : Nat) :
    Memory.get ((List.range n).foldl
        (fun m y => Memory.mapRange m (gridAddr 0 y) size (fun x => f x y)) m) a =
      if 0x10000 ≤ a ∧ (a - 0x10000) / 256 < n ∧ (a - 0x10000) % 256 < size then
        f ((a - 0x10000) % 256) ((a - 0x10000) / 256) (Memory.get m a)
      else Memory.get m a := by
  induction n with
  | zero => simp
  | succ n ih =>
    rw [List.range_succ, List.foldl_append, List.foldl_cons, List.foldl_nil, Memory.get_mapRange, ih]
    by_cases h : gridAddr 0 n ≤ a ∧ a < gridAddr 0 n + size
    · unfold gridAddr at h
      have h1 : (a - 0x10000) / 256 = n := by omega
      have h2 : (a - 0x10000) % 256 = a - gridAddr 0 n := by unfold gridAddr; omega
      have h3 : ¬ (0x10000 ≤ a ∧ (a - 0x10000) / 256 < n ∧ (a - 0x10000) % 256 < size) := by omega
      have h4 : 0x10000 ≤ a ∧ (a - 0x10000) / 256 < n + 1 ∧ (a - 0x10000) % 256 < size := by omega
      have h5 : gridAddr 0 n ≤ a ∧ a < gridAddr 0 n + size := by unfold gridAddr; omega
      rw [if_pos h5, if_neg h3, if_pos h4, h1, h2]
    · rw [if_neg h]
      unfold gridAddr at h
      by_cases h3 : 0x10000 ≤ a ∧ (a - 0x10000) / 256 < n ∧ (a - 0x10000) % 256 < size
      · have h4 : 0x10000 ≤ a ∧ (a - 0x10000) / 256 < n + 1 ∧ (a - 0x10000) % 256 < size := by omega
        rw [if_pos h3, if_pos h4]
      · have h4 : ¬ (0x10000 ≤ a ∧ (a - 0x10000) / 256 < n + 1 ∧ (a - 0x10000) % 256 < size) := by
          omega
        rw [if_neg h3, if_neg h4]

/-- A cell of the square after `mapSquare`. -/
theorem Memory.get_mapSquare_cell (m : List Host.Cell) (size : Nat)
    (f : Nat → Nat → Option Byte → Option Byte) (hs : size ≤ 256) {x y : Nat} (hx : x < size)
    (hy : y < size) :
    Memory.get (Memory.mapSquare m size f) (gridAddr x y) =
      f x y (Memory.get m (gridAddr x y)) := by
  unfold Memory.mapSquare
  rw [Memory.get_mapSquare_step _ _ _ _ hs]
  have h1 : (gridAddr x y - 0x10000) / 256 = y := by unfold gridAddr; omega
  have h2 : (gridAddr x y - 0x10000) % 256 = x := by unfold gridAddr; omega
  have h3 : 0x10000 ≤ gridAddr x y := by unfold gridAddr; omega
  rw [h1, h2, if_pos ⟨h3, hy, hx⟩]

/-- An offset outside the square after `mapSquare`. -/
theorem Memory.get_mapSquare_outside (m : List Host.Cell) (size : Nat)
    (f : Nat → Nat → Option Byte → Option Byte) (hs : size ≤ 256) {a : Nat}
    (ha : ¬ InSquare size a) :
    Memory.get (Memory.mapSquare m size f) a = Memory.get m a := by
  unfold Memory.mapSquare
  rw [Memory.get_mapSquare_step _ _ _ _ hs, if_neg]
  rintro ⟨h1, h2, h3⟩
  exact ha ⟨(a - 0x10000) % 256, (a - 0x10000) / 256, h3, h2, by unfold gridAddr; omega⟩

theorem allGridCells_keys (f : Nat → Nat → Byte) :
    ∀ c ∈ allGridCells f, ∃ x y, x < 177 ∧ y < 177 ∧ c = (gridAddr x y, f x y) := by
  intro c hc
  simp only [allGridCells, List.mem_flatMap, List.mem_map, List.mem_range] at hc
  obtain ⟨y, hy, x, hx, rfl⟩ := hc
  exact ⟨x, y, hx, hy, rfl⟩

theorem Memory.get_of_mem_unique (m : List Host.Cell) (a : Nat) (v : Byte) (h : (a, v) ∈ m)
    (hu : ∀ c ∈ m, c.1 = a → c.2 = v) : Memory.get m a = some v := by
  induction m with
  | nil => simp at h
  | cons c m ih =>
    obtain ⟨k, w⟩ := c
    by_cases hk : k = a
    · have := hu (k, w) (by simp) hk
      simp_all [Memory.get]
    · simp only [Memory.get, hk, if_false]
      refine ih ?_ (fun c hc => hu c (by simp [hc]))
      rcases List.mem_cons.1 h with h | h
      · exact absurd (congrArg Prod.fst h).symm hk
      · exact h

theorem Memory.get_fillGrid_cell (m : List Host.Cell) (f : Nat → Nat → Byte) {x y : Nat}
    (hx : x < 177) (hy : y < 177) :
    Memory.get (Memory.fillGrid m f) (gridAddr x y) = some (f x y) := by
  unfold Memory.fillGrid
  rw [Memory.get_replaceRegion _ _ _ _ _ ?_ (by omega), if_pos (by unfold gridAddr; omega)]
  · refine Memory.get_of_mem_unique _ _ _ ?_ ?_
    · simp only [allGridCells, List.mem_flatMap, List.mem_map, List.mem_range]
      exact ⟨y, hy, x, hx, rfl⟩
    · intro c hc heq
      obtain ⟨x', y', hx', hy', rfl⟩ := allGridCells_keys f c hc
      obtain ⟨rfl, rfl⟩ := gridAddr_inj (by omega) (by omega) heq
      rfl
  · intro c hc
    obtain ⟨x', y', hx', hy', rfl⟩ := allGridCells_keys f c hc
    unfold gridAddr
    simp only
    omega

theorem Memory.get_fillGrid_outside (m : List Host.Cell) (f : Nat → Nat → Byte) {a : Nat}
    (ha : a < 0x10000) : Memory.get (Memory.fillGrid m f) a = Memory.get m a := by
  unfold Memory.fillGrid
  rw [Memory.get_replaceRegion _ _ _ _ _ ?_ (by omega), if_neg (by omega)]
  intro c hc
  obtain ⟨x', y', hx', hy', rfl⟩ := allGridCells_keys f c hc
  unfold gridAddr
  simp only
  omega

/-! The byte at an offset. -/

theorem Memory.byteAt_congr {m n : List Host.Cell} {a : Nat} (h : Memory.get m a = Memory.get n a) :
    Memory.byteAt m a = Memory.byteAt n a := by
  unfold Memory.byteAt
  rw [h]

theorem Memory.byteAt_of_get {m : List Host.Cell} {a : Nat} {v : Byte}
    (h : Memory.get m a = some v) :
    Memory.byteAt m a = if isGridCell a then v &&& 3 else v := by
  unfold Memory.byteAt
  rw [h]
  rfl

theorem State.readByte_congr {s t : State} {a : Nat}
    (h : isBuffer a = true → Memory.get t.mem a = Memory.get s.mem a) :
    t.readByte a = s.readByte a := by
  unfold State.readByte
  split
  · rename_i hb
    rw [Memory.byteAt_congr (h hb)]
  · rfl

theorem Memory.readBytes_eq (m : List Host.Cell) (lo n : Nat) :
    Memory.readBytes m lo n = (List.range n).map (fun i => Memory.byteAt m (lo + i)) := by
  unfold Memory.readBytes
  refine List.map_congr_left (fun i hi => Memory.byteAt_congr ?_)
  rw [Memory.get_window, if_pos]
  have := List.mem_range.1 hi
  omega

@[simp] theorem Memory.readBytes_length (m : List Host.Cell) (lo n : Nat) :
    (Memory.readBytes m lo n).length = n := by
  simp [Memory.readBytes]

theorem Memory.readSquare_eq (m : List Host.Cell) (size : Nat) :
    Memory.readSquare m size =
      (List.range size).map (fun y => (List.range size).map (fun x => Memory.cellAt m x y)) := by
  unfold Memory.readSquare
  refine List.map_congr_left (fun y _ => List.map_congr_left (fun x hx => ?_))
  unfold Memory.cellAt
  rw [Memory.byteAt_congr]
  rw [Memory.get_window, if_pos]
  have := List.mem_range.1 hx
  unfold gridAddr
  omega

theorem Memory.get_setBytes (m : List Host.Cell) (lo : Nat) (bs : List Byte) (a : Nat) :
    Memory.get (Memory.setBytes m lo bs) a =
      if lo ≤ a ∧ a < lo + bs.length then bs[a - lo]? else Memory.get m a := by
  unfold Memory.setBytes
  rw [Memory.get_mapRange]

theorem Memory.get_setByte (m : List Host.Cell) (a b : Nat) (v : Byte) :
    Memory.get (Memory.setByte m a v) b =
      if b = a then some (if isGridCell a then v &&& 3 else v) else Memory.get m b := by
  unfold Memory.setByte
  rw [Memory.get_mapRange]
  by_cases h : b = a
  · rw [if_pos h, if_pos (by omega)]
  · rw [if_neg h, if_neg (by omega)]

/-! The canonical form. -/

theorem Memory.wf_nil : Memory.wf [] := ⟨List.Pairwise.nil, fun _ h => absurd h List.not_mem_nil⟩

theorem Memory.wf_filter {m : List Host.Cell} (h : Memory.wf m) (p : Host.Cell → Bool) :
    Memory.wf (m.filter p) :=
  ⟨h.1.filter _, fun c hc => h.2 c (List.mem_of_mem_filter hc)⟩

theorem Memory.wf_replaceRegion {m cells : List Host.Cell} {lo hi : Nat} (h : Memory.wf m)
    (hc : Memory.wf cells) (hk : ∀ c ∈ cells, lo ≤ c.1 ∧ c.1 < hi) (hle : lo ≤ hi) :
    Memory.wf (Memory.replaceRegion m lo hi cells) := by
  unfold Memory.replaceRegion
  refine ⟨?_, ?_⟩
  · rw [List.pairwise_append, List.pairwise_append]
    refine ⟨⟨h.1.filter _, hc.1, ?_⟩, h.1.filter _, ?_⟩
    · intro a ha b hb
      have h1 := List.mem_filter.1 ha
      have h2 := hk b hb
      simp only [decide_eq_true_eq] at h1
      omega
    · intro a ha b hb
      have h1 := List.mem_filter.1 hb
      simp only [decide_eq_true_eq] at h1
      rcases List.mem_append.1 ha with ha | ha
      · have h2 := List.mem_filter.1 ha
        simp only [decide_eq_true_eq] at h2
        omega
      · have h2 := hk a ha
        omega
  · intro c hm
    rcases List.mem_append.1 hm with hm | hm
    · rcases List.mem_append.1 hm with hm | hm
      · exact h.2 c (List.mem_of_mem_filter hm)
      · exact hc.2 c hm
    · exact h.2 c (List.mem_of_mem_filter hm)

/-- What a range update must give for the canonical form to stay: bytes only where a byte is mapped,
and in a GRID cell only bits [1:0]. -/
def Memory.RangeOk (lo n : Nat) (f : Nat → Option Byte → Option Byte) : Prop :=
  ∀ i o b, i < n → f i o = some b →
    isBuffer (lo + i) = true ∧
      ((∀ b', o = some b' → isGridCell (lo + i) = true → b' &&& 3 = b') →
        isGridCell (lo + i) = true → b &&& 3 = b)

theorem Memory.mapCells_pairwise (w : List Host.Cell) (lo n : Nat)
    (f : Nat → Option Byte → Option Byte) :
    (Memory.mapCells w lo n f).Pairwise (fun c d => c.1 < d.1) := by
  induction n with
  | zero => simp [Memory.mapCells]
  | succ n ih =>
    rw [Memory.mapCells_succ, List.pairwise_append]
    refine ⟨ih, ?_, ?_⟩
    · cases f n (Memory.get w (lo + n)) <;> simp
    · intro a ha b hb
      have h1 := Memory.mapCells_keys w lo n f a ha
      simp only [Option.mem_toList, Option.map_eq_some_iff] at hb
      obtain ⟨v, _, rfl⟩ := hb
      simp only
      omega

theorem Memory.wf_mapRange {m : List Host.Cell} {lo n : Nat} {f : Nat → Option Byte → Option Byte}
    (h : Memory.wf m) (hf : Memory.RangeOk lo n f) : Memory.wf (Memory.mapRange m lo n f) := by
  unfold Memory.mapRange
  refine Memory.wf_replaceRegion h ⟨Memory.mapCells_pairwise _ _ _ _, ?_⟩
    (Memory.mapCells_keys _ _ _ _) (by omega)
  intro c hc
  simp only [Memory.mapCells, List.mem_filterMap, List.mem_range, Option.map_eq_some_iff] at hc
  obtain ⟨i, hi, b, hb, rfl⟩ := hc
  refine ⟨(hf i _ b hi hb).1, (hf i _ b hi hb).2 ?_⟩
  intro b' hb' hg
  exact (h.2 _ (List.mem_of_mem_filter (Memory.mem_of_get _ _ _ hb'))).2 hg

theorem Memory.wf_mapSquare {m : List Host.Cell} {size : Nat}
    {f : Nat → Nat → Option Byte → Option Byte} (h : Memory.wf m) (hs : size ≤ 177)
    (hf : ∀ x y o b, f x y o = some b → (∀ b', o = some b' → b' &&& 3 = b') → b &&& 3 = b) :
    Memory.wf (Memory.mapSquare m size f) := by
  unfold Memory.mapSquare
  have key : ∀ n, n ≤ size → Memory.wf ((List.range n).foldl
      (fun m y => Memory.mapRange m (gridAddr 0 y) size (fun x => f x y)) m) := by
    intro n
    induction n with
    | zero => intro _; simpa using h
    | succ n ih =>
      intro hn
      rw [List.range_succ, List.foldl_append, List.foldl_cons, List.foldl_nil]
      refine Memory.wf_mapRange (ih (by omega)) ?_
      intro i o b hi hb
      have hg : isGridCell (gridAddr 0 n + i) = true :=
        (isGridCell_iff _).2 ⟨i, n, by omega, by omega, by unfold gridAddr; omega⟩
      exact ⟨isBuffer_of_gridCell hg, fun ho _ => hf i n o b hb (fun b' hb' => ho b' hb' hg)⟩
  exact key size (le_refl _)

theorem allGridCells_pairwise (f : Nat → Nat → Byte) (n : Nat) :
    ((List.range n).flatMap (fun y =>
      (List.range 177).map (fun x => (gridAddr x y, f x y)))).Pairwise (fun c d => c.1 < d.1) := by
  induction n with
  | zero => simp
  | succ n ih =>
    rw [List.range_succ (n := n), List.flatMap_append, List.pairwise_append]
    refine ⟨ih, ?_, ?_⟩
    · simp only [List.flatMap_cons, List.flatMap_nil, List.append_nil, List.pairwise_map]
      refine List.Pairwise.imp ?_ List.pairwise_lt_range
      intro a b hab
      unfold gridAddr
      omega
    · intro a ha b hb
      simp only [List.mem_flatMap, List.mem_map, List.mem_range, List.mem_singleton] at ha hb
      obtain ⟨y, hy, x, hx, rfl⟩ := ha
      obtain ⟨y', rfl, x', hx', rfl⟩ := hb
      unfold gridAddr
      simp only
      omega

theorem Memory.wf_fillGrid {m : List Host.Cell} {f : Nat → Nat → Byte} (h : Memory.wf m)
    (hf : ∀ x y, f x y &&& 3 = f x y) : Memory.wf (Memory.fillGrid m f) := by
  unfold Memory.fillGrid
  refine Memory.wf_replaceRegion h ⟨allGridCells_pairwise f 177, ?_⟩ ?_ (by omega)
  · intro c hc
    obtain ⟨x, y, hx, hy, rfl⟩ := allGridCells_keys f c hc
    exact ⟨isBuffer_of_gridCell (isGridCell_gridAddr hx hy), fun _ => hf x y⟩
  · intro c hc
    obtain ⟨x, y, hx, hy, rfl⟩ := allGridCells_keys f c hc
    unfold gridAddr
    simp only
    omega

theorem and_three_idem (v : Byte) : v &&& 3 &&& 3 = v &&& 3 := by
  rw [BitVec.and_assoc, BitVec.and_self]

theorem Memory.wf_setByte {m : List Host.Cell} {a : Nat} {v : Byte} (h : Memory.wf m)
    (ha : isBuffer a = true) : Memory.wf (Memory.setByte m a v) := by
  unfold Memory.setByte
  refine Memory.wf_mapRange h ?_
  intro i o b hi hb
  obtain rfl : i = 0 := by omega
  refine ⟨ha, fun _ hg => ?_⟩
  rw [Nat.add_zero] at hg
  simp only [hg, if_true, Option.some.injEq] at hb
  rw [← hb, and_three_idem]

theorem Memory.wf_setOut {m : List Host.Cell} {bs : List Byte} (h : Memory.wf m)
    (hl : bs.length ≤ 4096) : Memory.wf (Memory.setBytes m (outAddr 0) bs) := by
  unfold Memory.setBytes
  refine Memory.wf_mapRange h ?_
  intro i o b hi hb
  refine ⟨?_, fun _ hg => ?_⟩
  · have h1 : 0x2000 ≤ outAddr 0 + i := by unfold outAddr; omega
    have h2 : outAddr 0 + i < 0x3000 := by unfold outAddr; omega
    simp [isBuffer, isOutBuf, h1, h2]
  · rw [not_gridCell_of_lt (by unfold outAddr; omega)] at hg
    exact absurd hg (by simp)

end Sys2Proof.Machine
end

