-- ==== Sys2Proof/Laws/State.lean ====
section
/-!
SUPPORT. One lemma per field per update of State, so that no proof unfolds a record update.
-/
namespace Sys2Proof.Machine

@[simp] theorem State.accept_params (s : State) (w : Word) : (s.accept w).params = s.params := rfl
@[simp] theorem State.accept_ie (s : State) (w : Word) : (s.accept w).ie = s.ie := rfl
@[simp] theorem State.accept_status (s : State) (w : Word) : (s.accept w).status = acceptFlags s.status := rfl
@[simp] theorem State.accept_cmd (s : State) (w : Word) : (s.accept w).cmd = w := rfl
@[simp] theorem State.accept_config (s : State) (w : Word) : (s.accept w).config = s.config := rfl
@[simp] theorem State.accept_arg0 (s : State) (w : Word) : (s.accept w).arg0 = s.arg0 := rfl
@[simp] theorem State.accept_arg1 (s : State) (w : Word) : (s.accept w).arg1 = s.arg1 := rfl
@[simp] theorem State.accept_result (s : State) (w : Word) : (s.accept w).result = s.result := rfl
@[simp] theorem State.accept_bestMask (s : State) (w : Word) : (s.accept w).bestMask = s.bestMask := rfl
@[simp] theorem State.accept_genDeg (s : State) (w : Word) : (s.accept w).genDeg = s.genDeg := rfl
@[simp] theorem State.accept_gen (s : State) (w : Word) : (s.accept w).gen = s.gen := rfl
@[simp] theorem State.accept_score (s : State) (w : Word) : (s.accept w).score = s.score := rfl
@[simp] theorem State.accept_mem (s : State) (w : Word) : (s.accept w).mem = s.mem := rfl
@[simp] theorem State.accept_script (s : State) (w : Word) : (s.accept w).script = s.script := rfl
@[simp] theorem State.accept_pos (s : State) (w : Word) : (s.accept w).pos = s.pos := rfl
@[simp] theorem State.accept_lastRead (s : State) (w : Word) : (s.accept w).lastRead = s.lastRead := rfl
@[simp] theorem State.accept_schedule (s : State) (w : Word) : (s.accept w).schedule = s.schedule := rfl
@[simp] theorem State.accept_draws (s : State) (w : Word) : (s.accept w).draws = s.draws := rfl

@[simp] theorem State.complete_params (s : State) (c : ErrCode) : (s.complete c).params = s.params := rfl
@[simp] theorem State.complete_ie (s : State) (c : ErrCode) : (s.complete c).ie = s.ie := rfl
@[simp] theorem State.complete_status (s : State) (c : ErrCode) : (s.complete c).status = completeFlags s.status c := rfl
@[simp] theorem State.complete_cmd (s : State) (c : ErrCode) : (s.complete c).cmd = s.cmd := rfl
@[simp] theorem State.complete_config (s : State) (c : ErrCode) : (s.complete c).config = s.config := rfl
@[simp] theorem State.complete_arg0 (s : State) (c : ErrCode) : (s.complete c).arg0 = s.arg0 := rfl
@[simp] theorem State.complete_arg1 (s : State) (c : ErrCode) : (s.complete c).arg1 = s.arg1 := rfl
@[simp] theorem State.complete_result (s : State) (c : ErrCode) : (s.complete c).result = s.result := rfl
@[simp] theorem State.complete_bestMask (s : State) (c : ErrCode) : (s.complete c).bestMask = s.bestMask := rfl
@[simp] theorem State.complete_genDeg (s : State) (c : ErrCode) : (s.complete c).genDeg = s.genDeg := rfl
@[simp] theorem State.complete_gen (s : State) (c : ErrCode) : (s.complete c).gen = s.gen := rfl
@[simp] theorem State.complete_score (s : State) (c : ErrCode) : (s.complete c).score = s.score := rfl
@[simp] theorem State.complete_mem (s : State) (c : ErrCode) : (s.complete c).mem = s.mem := rfl
@[simp] theorem State.complete_script (s : State) (c : ErrCode) : (s.complete c).script = s.script := rfl
@[simp] theorem State.complete_pos (s : State) (c : ErrCode) : (s.complete c).pos = s.pos := rfl
@[simp] theorem State.complete_lastRead (s : State) (c : ErrCode) : (s.complete c).lastRead = s.lastRead := rfl
@[simp] theorem State.complete_schedule (s : State) (c : ErrCode) : (s.complete c).schedule = s.schedule := rfl
@[simp] theorem State.complete_draws (s : State) (c : ErrCode) : (s.complete c).draws = s.draws := rfl

@[simp] theorem State.setGenerator_params (s : State) (d : Nat) : (s.setGenerator d).params = s.params := rfl
@[simp] theorem State.setGenerator_ie (s : State) (d : Nat) : (s.setGenerator d).ie = s.ie := rfl
@[simp] theorem State.setGenerator_status (s : State) (d : Nat) : (s.setGenerator d).status = s.status := rfl
@[simp] theorem State.setGenerator_cmd (s : State) (d : Nat) : (s.setGenerator d).cmd = s.cmd := rfl
@[simp] theorem State.setGenerator_config (s : State) (d : Nat) : (s.setGenerator d).config = s.config := rfl
@[simp] theorem State.setGenerator_arg0 (s : State) (d : Nat) : (s.setGenerator d).arg0 = s.arg0 := rfl
@[simp] theorem State.setGenerator_arg1 (s : State) (d : Nat) : (s.setGenerator d).arg1 = s.arg1 := rfl
@[simp] theorem State.setGenerator_result (s : State) (d : Nat) : (s.setGenerator d).result = s.result := rfl
@[simp] theorem State.setGenerator_bestMask (s : State) (d : Nat) : (s.setGenerator d).bestMask = s.bestMask := rfl
@[simp] theorem State.setGenerator_genDeg (s : State) (d : Nat) : (s.setGenerator d).genDeg = BitVec.ofNat 5 d := rfl
@[simp] theorem State.setGenerator_gen (s : State) (d : Nat) : (s.setGenerator d).gen = genFile d := rfl
@[simp] theorem State.setGenerator_score (s : State) (d : Nat) : (s.setGenerator d).score = s.score := rfl
@[simp] theorem State.setGenerator_mem (s : State) (d : Nat) : (s.setGenerator d).mem = s.mem := rfl
@[simp] theorem State.setGenerator_script (s : State) (d : Nat) : (s.setGenerator d).script = s.script := rfl
@[simp] theorem State.setGenerator_pos (s : State) (d : Nat) : (s.setGenerator d).pos = s.pos := rfl
@[simp] theorem State.setGenerator_lastRead (s : State) (d : Nat) : (s.setGenerator d).lastRead = s.lastRead := rfl
@[simp] theorem State.setGenerator_schedule (s : State) (d : Nat) : (s.setGenerator d).schedule = s.schedule := rfl
@[simp] theorem State.setGenerator_draws (s : State) (d : Nat) : (s.setGenerator d).draws = s.draws := rfl

@[simp] theorem State.setResult_params (s : State) (v : Nat) : (s.setResult v).params = s.params := rfl
@[simp] theorem State.setResult_ie (s : State) (v : Nat) : (s.setResult v).ie = s.ie := rfl
@[simp] theorem State.setResult_status (s : State) (v : Nat) : (s.setResult v).status = s.status := rfl
@[simp] theorem State.setResult_cmd (s : State) (v : Nat) : (s.setResult v).cmd = s.cmd := rfl
@[simp] theorem State.setResult_config (s : State) (v : Nat) : (s.setResult v).config = s.config := rfl
@[simp] theorem State.setResult_arg0 (s : State) (v : Nat) : (s.setResult v).arg0 = s.arg0 := rfl
@[simp] theorem State.setResult_arg1 (s : State) (v : Nat) : (s.setResult v).arg1 = s.arg1 := rfl
@[simp] theorem State.setResult_result (s : State) (v : Nat) : (s.setResult v).result = BitVec.ofNat 32 v := rfl
@[simp] theorem State.setResult_bestMask (s : State) (v : Nat) : (s.setResult v).bestMask = s.bestMask := rfl
@[simp] theorem State.setResult_genDeg (s : State) (v : Nat) : (s.setResult v).genDeg = s.genDeg := rfl
@[simp] theorem State.setResult_gen (s : State) (v : Nat) : (s.setResult v).gen = s.gen := rfl
@[simp] theorem State.setResult_score (s : State) (v : Nat) : (s.setResult v).score = s.score := rfl
@[simp] theorem State.setResult_mem (s : State) (v : Nat) : (s.setResult v).mem = s.mem := rfl
@[simp] theorem State.setResult_script (s : State) (v : Nat) : (s.setResult v).script = s.script := rfl
@[simp] theorem State.setResult_pos (s : State) (v : Nat) : (s.setResult v).pos = s.pos := rfl
@[simp] theorem State.setResult_lastRead (s : State) (v : Nat) : (s.setResult v).lastRead = s.lastRead := rfl
@[simp] theorem State.setResult_schedule (s : State) (v : Nat) : (s.setResult v).schedule = s.schedule := rfl
@[simp] theorem State.setResult_draws (s : State) (v : Nat) : (s.setResult v).draws = s.draws := rfl

@[simp] theorem State.writeOut_params (s : State) (bs : List Byte) : (s.writeOut bs).params = s.params := rfl
@[simp] theorem State.writeOut_ie (s : State) (bs : List Byte) : (s.writeOut bs).ie = s.ie := rfl
@[simp] theorem State.writeOut_status (s : State) (bs : List Byte) : (s.writeOut bs).status = s.status := rfl
@[simp] theorem State.writeOut_cmd (s : State) (bs : List Byte) : (s.writeOut bs).cmd = s.cmd := rfl
@[simp] theorem State.writeOut_config (s : State) (bs : List Byte) : (s.writeOut bs).config = s.config := rfl
@[simp] theorem State.writeOut_arg0 (s : State) (bs : List Byte) : (s.writeOut bs).arg0 = s.arg0 := rfl
@[simp] theorem State.writeOut_arg1 (s : State) (bs : List Byte) : (s.writeOut bs).arg1 = s.arg1 := rfl
@[simp] theorem State.writeOut_result (s : State) (bs : List Byte) : (s.writeOut bs).result = s.result := rfl
@[simp] theorem State.writeOut_bestMask (s : State) (bs : List Byte) : (s.writeOut bs).bestMask = s.bestMask := rfl
@[simp] theorem State.writeOut_genDeg (s : State) (bs : List Byte) : (s.writeOut bs).genDeg = s.genDeg := rfl
@[simp] theorem State.writeOut_gen (s : State) (bs : List Byte) : (s.writeOut bs).gen = s.gen := rfl
@[simp] theorem State.writeOut_score (s : State) (bs : List Byte) : (s.writeOut bs).score = s.score := rfl
@[simp] theorem State.writeOut_mem (s : State) (bs : List Byte) : (s.writeOut bs).mem = Memory.setBytes s.mem (outAddr 0) bs := rfl
@[simp] theorem State.writeOut_script (s : State) (bs : List Byte) : (s.writeOut bs).script = s.script := rfl
@[simp] theorem State.writeOut_pos (s : State) (bs : List Byte) : (s.writeOut bs).pos = s.pos := rfl
@[simp] theorem State.writeOut_lastRead (s : State) (bs : List Byte) : (s.writeOut bs).lastRead = s.lastRead := rfl
@[simp] theorem State.writeOut_schedule (s : State) (bs : List Byte) : (s.writeOut bs).schedule = s.schedule := rfl
@[simp] theorem State.writeOut_draws (s : State) (bs : List Byte) : (s.writeOut bs).draws = s.draws := rfl

@[simp] theorem State.applyMask_params (s : State) (m : Nat) : (s.applyMask m).params = s.params := rfl
@[simp] theorem State.applyMask_ie (s : State) (m : Nat) : (s.applyMask m).ie = s.ie := rfl
@[simp] theorem State.applyMask_status (s : State) (m : Nat) : (s.applyMask m).status = s.status := rfl
@[simp] theorem State.applyMask_cmd (s : State) (m : Nat) : (s.applyMask m).cmd = s.cmd := rfl
@[simp] theorem State.applyMask_config (s : State) (m : Nat) : (s.applyMask m).config = s.config := rfl
@[simp] theorem State.applyMask_arg0 (s : State) (m : Nat) : (s.applyMask m).arg0 = s.arg0 := rfl
@[simp] theorem State.applyMask_arg1 (s : State) (m : Nat) : (s.applyMask m).arg1 = s.arg1 := rfl
@[simp] theorem State.applyMask_result (s : State) (m : Nat) : (s.applyMask m).result = s.result := rfl
@[simp] theorem State.applyMask_bestMask (s : State) (m : Nat) : (s.applyMask m).bestMask = s.bestMask := rfl
@[simp] theorem State.applyMask_genDeg (s : State) (m : Nat) : (s.applyMask m).genDeg = s.genDeg := rfl
@[simp] theorem State.applyMask_gen (s : State) (m : Nat) : (s.applyMask m).gen = s.gen := rfl
@[simp] theorem State.applyMask_score (s : State) (m : Nat) : (s.applyMask m).score = s.score := rfl
@[simp] theorem State.applyMask_mem (s : State) (m : Nat) : (s.applyMask m).mem = Memory.mapSquare s.mem s.size (maskByte m) := rfl
@[simp] theorem State.applyMask_script (s : State) (m : Nat) : (s.applyMask m).script = s.script := rfl
@[simp] theorem State.applyMask_pos (s : State) (m : Nat) : (s.applyMask m).pos = s.pos := rfl
@[simp] theorem State.applyMask_lastRead (s : State) (m : Nat) : (s.applyMask m).lastRead = s.lastRead := rfl
@[simp] theorem State.applyMask_schedule (s : State) (m : Nat) : (s.applyMask m).schedule = s.schedule := rfl
@[simp] theorem State.applyMask_draws (s : State) (m : Nat) : (s.applyMask m).draws = s.draws := rfl

@[simp] theorem State.drawn_params (s : State) : (s.drawn).params = s.params := rfl
@[simp] theorem State.drawn_ie (s : State) : (s.drawn).ie = s.ie := rfl
@[simp] theorem State.drawn_status (s : State) : (s.drawn).status = s.status := rfl
@[simp] theorem State.drawn_cmd (s : State) : (s.drawn).cmd = s.cmd := rfl
@[simp] theorem State.drawn_config (s : State) : (s.drawn).config = s.config := rfl
@[simp] theorem State.drawn_arg0 (s : State) : (s.drawn).arg0 = s.arg0 := rfl
@[simp] theorem State.drawn_arg1 (s : State) : (s.drawn).arg1 = s.arg1 := rfl
@[simp] theorem State.drawn_result (s : State) : (s.drawn).result = s.result := rfl
@[simp] theorem State.drawn_bestMask (s : State) : (s.drawn).bestMask = s.bestMask := rfl
@[simp] theorem State.drawn_genDeg (s : State) : (s.drawn).genDeg = s.genDeg := rfl
@[simp] theorem State.drawn_gen (s : State) : (s.drawn).gen = s.gen := rfl
@[simp] theorem State.drawn_score (s : State) : (s.drawn).score = s.score := rfl
@[simp] theorem State.drawn_mem (s : State) : (s.drawn).mem = s.mem := rfl
@[simp] theorem State.drawn_script (s : State) : (s.drawn).script = s.script := rfl
@[simp] theorem State.drawn_pos (s : State) : (s.drawn).pos = s.pos := rfl
@[simp] theorem State.drawn_lastRead (s : State) : (s.drawn).lastRead = s.lastRead := rfl
@[simp] theorem State.drawn_schedule (s : State) : (s.drawn).schedule = s.schedule := rfl
@[simp] theorem State.drawn_draws (s : State) : (s.drawn).draws = s.draws + 1 := rfl

@[simp] theorem State.accessError_params (s : State) : (s.accessError).params = s.params := rfl
@[simp] theorem State.accessError_ie (s : State) : (s.accessError).ie = s.ie := rfl
@[simp] theorem State.accessError_status (s : State) : (s.accessError).status = { s.status with buserr := true } := rfl
@[simp] theorem State.accessError_cmd (s : State) : (s.accessError).cmd = s.cmd := rfl
@[simp] theorem State.accessError_config (s : State) : (s.accessError).config = s.config := rfl
@[simp] theorem State.accessError_arg0 (s : State) : (s.accessError).arg0 = s.arg0 := rfl
@[simp] theorem State.accessError_arg1 (s : State) : (s.accessError).arg1 = s.arg1 := rfl
@[simp] theorem State.accessError_result (s : State) : (s.accessError).result = s.result := rfl
@[simp] theorem State.accessError_bestMask (s : State) : (s.accessError).bestMask = s.bestMask := rfl
@[simp] theorem State.accessError_genDeg (s : State) : (s.accessError).genDeg = s.genDeg := rfl
@[simp] theorem State.accessError_gen (s : State) : (s.accessError).gen = s.gen := rfl
@[simp] theorem State.accessError_score (s : State) : (s.accessError).score = s.score := rfl
@[simp] theorem State.accessError_mem (s : State) : (s.accessError).mem = s.mem := rfl
@[simp] theorem State.accessError_script (s : State) : (s.accessError).script = s.script := rfl
@[simp] theorem State.accessError_pos (s : State) : (s.accessError).pos = s.pos := rfl
@[simp] theorem State.accessError_lastRead (s : State) : (s.accessError).lastRead = s.lastRead := rfl
@[simp] theorem State.accessError_schedule (s : State) : (s.accessError).schedule = s.schedule := rfl
@[simp] theorem State.accessError_draws (s : State) : (s.accessError).draws = s.draws := rfl

@[simp] theorem State.rejectWrite_params (s : State) : (s.rejectWrite).params = s.params := rfl
@[simp] theorem State.rejectWrite_ie (s : State) : (s.rejectWrite).ie = s.ie := rfl
@[simp] theorem State.rejectWrite_status (s : State) : (s.rejectWrite).status = { s.status with ovr := true } := rfl
@[simp] theorem State.rejectWrite_cmd (s : State) : (s.rejectWrite).cmd = s.cmd := rfl
@[simp] theorem State.rejectWrite_config (s : State) : (s.rejectWrite).config = s.config := rfl
@[simp] theorem State.rejectWrite_arg0 (s : State) : (s.rejectWrite).arg0 = s.arg0 := rfl
@[simp] theorem State.rejectWrite_arg1 (s : State) : (s.rejectWrite).arg1 = s.arg1 := rfl
@[simp] theorem State.rejectWrite_result (s : State) : (s.rejectWrite).result = s.result := rfl
@[simp] theorem State.rejectWrite_bestMask (s : State) : (s.rejectWrite).bestMask = s.bestMask := rfl
@[simp] theorem State.rejectWrite_genDeg (s : State) : (s.rejectWrite).genDeg = s.genDeg := rfl
@[simp] theorem State.rejectWrite_gen (s : State) : (s.rejectWrite).gen = s.gen := rfl
@[simp] theorem State.rejectWrite_score (s : State) : (s.rejectWrite).score = s.score := rfl
@[simp] theorem State.rejectWrite_mem (s : State) : (s.rejectWrite).mem = s.mem := rfl
@[simp] theorem State.rejectWrite_script (s : State) : (s.rejectWrite).script = s.script := rfl
@[simp] theorem State.rejectWrite_pos (s : State) : (s.rejectWrite).pos = s.pos := rfl
@[simp] theorem State.rejectWrite_lastRead (s : State) : (s.rejectWrite).lastRead = s.lastRead := rfl
@[simp] theorem State.rejectWrite_schedule (s : State) : (s.rejectWrite).schedule = s.schedule := rfl
@[simp] theorem State.rejectWrite_draws (s : State) : (s.rejectWrite).draws = s.draws := rfl

@[simp] theorem State.nextLine_params (s : State) : (s.nextLine).params = s.params := rfl
@[simp] theorem State.nextLine_ie (s : State) : (s.nextLine).ie = s.ie := rfl
@[simp] theorem State.nextLine_status (s : State) : (s.nextLine).status = s.status := rfl
@[simp] theorem State.nextLine_cmd (s : State) : (s.nextLine).cmd = s.cmd := rfl
@[simp] theorem State.nextLine_config (s : State) : (s.nextLine).config = s.config := rfl
@[simp] theorem State.nextLine_arg0 (s : State) : (s.nextLine).arg0 = s.arg0 := rfl
@[simp] theorem State.nextLine_arg1 (s : State) : (s.nextLine).arg1 = s.arg1 := rfl
@[simp] theorem State.nextLine_result (s : State) : (s.nextLine).result = s.result := rfl
@[simp] theorem State.nextLine_bestMask (s : State) : (s.nextLine).bestMask = s.bestMask := rfl
@[simp] theorem State.nextLine_genDeg (s : State) : (s.nextLine).genDeg = s.genDeg := rfl
@[simp] theorem State.nextLine_gen (s : State) : (s.nextLine).gen = s.gen := rfl
@[simp] theorem State.nextLine_score (s : State) : (s.nextLine).score = s.score := rfl
@[simp] theorem State.nextLine_mem (s : State) : (s.nextLine).mem = s.mem := rfl
@[simp] theorem State.nextLine_script (s : State) : (s.nextLine).script = s.script := rfl
@[simp] theorem State.nextLine_pos (s : State) : (s.nextLine).pos = s.pos + 1 := rfl
@[simp] theorem State.nextLine_lastRead (s : State) : (s.nextLine).lastRead = s.lastRead := rfl
@[simp] theorem State.nextLine_schedule (s : State) : (s.nextLine).schedule = s.schedule := rfl
@[simp] theorem State.nextLine_draws (s : State) : (s.nextLine).draws = s.draws := rfl

@[simp] theorem State.resetRegisters_params (s : State) (m : List Host.Cell) (d : Nat) : (s.resetRegisters m d).params = s.params := rfl
@[simp] theorem State.resetRegisters_ie (s : State) (m : List Host.Cell) (d : Nat) : (s.resetRegisters m d).ie = State.reset.ie := rfl
@[simp] theorem State.resetRegisters_status (s : State) (m : List Host.Cell) (d : Nat) : (s.resetRegisters m d).status = State.reset.status := rfl
@[simp] theorem State.resetRegisters_cmd (s : State) (m : List Host.Cell) (d : Nat) : (s.resetRegisters m d).cmd = State.reset.cmd := rfl
@[simp] theorem State.resetRegisters_config (s : State) (m : List Host.Cell) (d : Nat) : (s.resetRegisters m d).config = State.reset.config := rfl
@[simp] theorem State.resetRegisters_arg0 (s : State) (m : List Host.Cell) (d : Nat) : (s.resetRegisters m d).arg0 = State.reset.arg0 := rfl
@[simp] theorem State.resetRegisters_arg1 (s : State) (m : List Host.Cell) (d : Nat) : (s.resetRegisters m d).arg1 = State.reset.arg1 := rfl
@[simp] theorem State.resetRegisters_result (s : State) (m : List Host.Cell) (d : Nat) : (s.resetRegisters m d).result = State.reset.result := rfl
@[simp] theorem State.resetRegisters_bestMask (s : State) (m : List Host.Cell) (d : Nat) : (s.resetRegisters m d).bestMask = State.reset.bestMask := rfl
@[simp] theorem State.resetRegisters_genDeg (s : State) (m : List Host.Cell) (d : Nat) : (s.resetRegisters m d).genDeg = State.reset.genDeg := rfl
@[simp] theorem State.resetRegisters_gen (s : State) (m : List Host.Cell) (d : Nat) : (s.resetRegisters m d).gen = State.reset.gen := rfl
@[simp] theorem State.resetRegisters_score (s : State) (m : List Host.Cell) (d : Nat) : (s.resetRegisters m d).score = State.reset.score := rfl
@[simp] theorem State.resetRegisters_mem (s : State) (m : List Host.Cell) (d : Nat) : (s.resetRegisters m d).mem = m := rfl
@[simp] theorem State.resetRegisters_script (s : State) (m : List Host.Cell) (d : Nat) : (s.resetRegisters m d).script = s.script := rfl
@[simp] theorem State.resetRegisters_pos (s : State) (m : List Host.Cell) (d : Nat) : (s.resetRegisters m d).pos = s.pos := rfl
@[simp] theorem State.resetRegisters_lastRead (s : State) (m : List Host.Cell) (d : Nat) : (s.resetRegisters m d).lastRead = s.lastRead := rfl
@[simp] theorem State.resetRegisters_schedule (s : State) (m : List Host.Cell) (d : Nat) : (s.resetRegisters m d).schedule = s.schedule := rfl
@[simp] theorem State.resetRegisters_draws (s : State) (m : List Host.Cell) (d : Nat) : (s.resetRegisters m d).draws = d := rfl

/-! The functions of the state that an update leaves alone. -/

@[simp] theorem State.readByte_setGenerator (s : State) (d a : Nat) : (s.setGenerator d).readByte a = s.readByte a := rfl
@[simp] theorem State.readByte_setResult (s : State) (v a : Nat) : (s.setResult v).readByte a = s.readByte a := rfl
@[simp] theorem State.readByte_complete (s : State) (c : ErrCode) (a : Nat) : (s.complete c).readByte a = s.readByte a := rfl
@[simp] theorem State.readByte_accept (s : State) (w : Word) (a : Nat) : (s.accept w).readByte a = s.readByte a := rfl

@[simp] theorem completeFlags_busy (t : Status) (c : ErrCode) : (completeFlags t c).busy = false := rfl
@[simp] theorem completeFlags_done (t : Status) (c : ErrCode) : (completeFlags t c).done = true := rfl
@[simp] theorem completeFlags_ovr (t : Status) (c : ErrCode) : (completeFlags t c).ovr = t.ovr := rfl
@[simp] theorem completeFlags_buserr (t : Status) (c : ErrCode) : (completeFlags t c).buserr = t.buserr := rfl
@[simp] theorem completeFlags_errcode (t : Status) (c : ErrCode) : (completeFlags t c).errcode = errByte c := rfl

end Sys2Proof.Machine
end

