-- ==== Sys2Proof/Laws/Ops.lean ====
section
/-!
SUPPORT. What the shared operations and `exec` can do, said once: how every command ends, what no
command writes, and what writing OUT_BUF and masking the grid do to each byte.
-/
namespace Sys2Proof.Machine

/-! How a command ends. -/

theorem finish_ok (f : State → State) (s : State) :
    finish .ok f s = .next ((f s).complete .ok) := rfl

theorem finish_error {c : ErrCode} (hc : c ≠ .ok) (f : State → State) (s : State) :
    finish c f s = .next (s.complete c) := by
  unfold finish
  rw [if_neg hc]

/-- The effect of each command once its checks have passed. -/
def effectOf (i : Instr) (s : State) : State :=
  match i with
  | .nop => s
  | .gfMul => s.setResult (gfMul s.opA s.opB).toNat
  | .genPoly => s.setGenerator s.opDegree
  | .rsBlock => (s.setGenerator s.opDegree).writeOut (rsRem (s.dataBytes s.opLength) s.opDegree)
  | .eccEncode =>
    (s.setGenerator (eccPerBlock s.level s.version)).writeOut
      (interleave (s.dataBytes (dataCw s.level s.version)) (numBlocks s.level s.version)
        (eccPerBlock s.level s.version))
  | .gridClear => { s with mem := Memory.fillGrid s.mem (fun _ _ => 0) }
  | .applyMask m => s.applyMask m.toNat
  | .score => s.setResult (penalty s.params (darkRows s.square))
  | .selectMask =>
    (State.setResult { s with
      score := fileOf 8 (fun m => BitVec.ofNat 32 (s.trialScores.getD m 0))
      bestMask := BitVec.ofNat 3 (leastIndex s.trialScores) }
        (s.trialScores.getD (leastIndex s.trialScores) 0)).applyMask (leastIndex s.trialScores)
  | .formatWord m => s.setResult (fmtWord s.config.ecl.toNat m.toNat)
  | .versionWord => s.setResult (verWord s.version)

theorem exec_eq_finish (i : Instr) (s : State) :
    exec i s = finish (checkOf i s) (effectOf i) s := by
  cases i <;> rfl

/-- Every command answers a next state; this is all it can be. -/
theorem exec_next (i : Instr) (s : State) :
    exec i s = .next ((if checkOf i s = .ok then effectOf i s else s).complete (checkOf i s)) := by
  rw [exec_eq_finish]
  rfl

theorem exec_ok {i : Instr} {s : State} (h : checkOf i s = .ok) :
    exec i s = .next ((effectOf i s).complete .ok) := by
  rw [exec_next, h]
  rfl

theorem exec_error {i : Instr} {s : State} (h : checkOf i s ≠ .ok) :
    exec i s = .next (s.complete (checkOf i s)) := by
  rw [exec_next, if_neg h]

/-- What no command writes: the flags, CTRL, CMD, CONFIG, ARG0, ARG1, and everything that is not
RSMASK's. -/
theorem effectOf_keeps (i : Instr) (s : State) :
    (effectOf i s).status = s.status ∧ (effectOf i s).ie = s.ie ∧ (effectOf i s).cmd = s.cmd ∧
      (effectOf i s).config = s.config ∧ (effectOf i s).arg0 = s.arg0 ∧
      (effectOf i s).arg1 = s.arg1 ∧ (effectOf i s).params = s.params ∧
      (effectOf i s).script = s.script ∧ (effectOf i s).pos = s.pos ∧
      (effectOf i s).lastRead = s.lastRead ∧ (effectOf i s).schedule = s.schedule ∧
      (effectOf i s).draws = s.draws := by
  cases i <;> exact ⟨rfl, rfl, rfl, rfl, rfl, rfl, rfl, rfl, rfl, rfl, rfl, rfl⟩

theorem errByte_le (c : ErrCode) : (errByte c).toNat ≤ 6 := by cases c <;> decide

theorem errByte_eq_zero {c : ErrCode} : errByte c = 0 ↔ c = .ok := by cases c <;> decide

/-! Files. -/

@[simp] theorem fileOf_getElem {α : Type} (n : Nat) (f : Nat → α) (i : Nat) (h : i < n) :
    (fileOf n f)[i] = f i := by
  simp [fileOf, Vector.getElem_mk]

theorem fileOf_toList {α : Type} (n : Nat) (f : Nat → α) :
    (fileOf n f).toList = (List.range n).map f := by
  simp [fileOf]

/-! Sizes. -/

theorem symbolSize_le {v : Nat} (h : validVersion v) : symbolSize v ≤ 177 := by
  unfold symbolSize
  have := h.2
  omega

theorem symbolSize_lt_256 {v : Nat} (h : validVersion v) : symbolSize v ≤ 256 := by
  have := symbolSize_le h
  omega

theorem genStep_length (g : List Byte) (r : Byte) : (genStep g r).length = g.length + 1 := by
  simp [genStep]

theorem genPoly_succ (d : Nat) : genPoly (d + 1) = genStep (genPoly d) (gfExp d) := by
  simp [genPoly, List.range_succ]

@[simp] theorem genPoly_length (d : Nat) : (genPoly d).length = d + 1 := by
  induction d with
  | zero => rfl
  | succ d ih => rw [genPoly_succ, genStep_length, ih]

theorem remStep_length (g rem : List Byte) (m : Byte) (h : g.length = rem.length + 1)
    (h0 : 0 < rem.length) : (remStep g rem m).length = rem.length := by
  simp only [remStep, List.length_zipWith, List.length_append, List.length_tail, List.length_cons,
    List.length_nil]
  omega

theorem foldl_remStep_length (g : List Byte) (msg : List Byte) :
    ∀ rem : List Byte, g.length = rem.length + 1 → 0 < rem.length →
      (msg.foldl (remStep g) rem).length = rem.length := by
  induction msg with
  | nil => intro rem _ _; rfl
  | cons m msg ih =>
    intro rem h h0
    rw [List.foldl_cons, ih _ (by rw [remStep_length g rem m h h0]; exact h)
      (by rw [remStep_length g rem m h h0]; exact h0), remStep_length g rem m h h0]

@[simp] theorem rsRem_length (msg : List Byte) {d : Nat} (hd : 1 ≤ d) : (rsRem msg d).length = d := by
  unfold rsRem
  rw [foldl_remStep_length _ _ _ (by simp) (by simp; omega)]
  simp

/-! OUT_BUF. -/

theorem isBuffer_outAddr {i : Nat} (h : i < 4096) : isBuffer (outAddr i) = true := by
  have h1 : 0x2000 ≤ outAddr i := by unfold outAddr; omega
  have h2 : outAddr i < 0x3000 := by unfold outAddr; omega
  simp [isBuffer, isOutBuf, h1, h2]

theorem isBuffer_dataAddr {i : Nat} (h : i < 4096) : isBuffer (dataAddr i) = true := by
  have h1 : 0x1000 ≤ dataAddr i := by unfold dataAddr; omega
  have h2 : dataAddr i < 0x2000 := by unfold dataAddr; omega
  simp [isBuffer, isDataBuf, h1, h2]

theorem State.readByte_writeOut (s : State) (bs : List Byte) {i : Nat} (hi : i < bs.length)
    (hl : bs.length ≤ 4096) : (s.writeOut bs).readByte (outAddr i) = bs[i]? := by
  unfold State.readByte
  rw [isBuffer_outAddr (by omega), if_pos rfl, State.writeOut_mem,
    Memory.byteAt_of_get (v := bs[i])]
  · rw [not_gridCell_of_lt (by unfold outAddr; omega)]
    simp [hi]
  · rw [Memory.get_setBytes, if_pos (by unfold outAddr; omega)]
    have h : outAddr i - outAddr 0 = i := by unfold outAddr; omega
    rw [h, List.getElem?_eq_getElem hi]

theorem State.readByte_writeOut_outside (s : State) (bs : List Byte) {a : Nat}
    (ha : ¬ InOut bs.length a) : (s.writeOut bs).readByte a = s.readByte a := by
  refine State.readByte_congr (fun _ => ?_)
  rw [State.writeOut_mem, Memory.get_setBytes, if_neg]
  rintro ⟨h1, h2⟩
  unfold outAddr at h1 h2
  exact ha ⟨a - 0x2000, by omega, by unfold outAddr; omega⟩

/-! The grid. -/

theorem cellOfByte_and_three (b : Byte) : cellOfByte (b &&& 3) = cellOfByte b := by
  unfold cellOfByte
  simp

theorem cellOfByte_xor_one (b : Byte) :
    cellOfByte (b ^^^ 1) = { dark := !(cellOfByte b).dark, func := (cellOfByte b).func } := by
  unfold cellOfByte
  simp

theorem Memory.cellAt_eq (m : List Host.Cell) {x y : Nat} (hx : x < 177) (hy : y < 177) :
    Memory.cellAt m x y =
      cellOfByte ((Memory.get m (gridAddr x y)).getD (Memory.unlisted (gridAddr x y)) &&& 3) := by
  unfold Memory.cellAt Memory.byteAt
  rw [isGridCell_gridAddr hx hy]
  rfl

/-- A cell of the square after a mask is applied (R182). -/
theorem State.cellAt_applyMask (s : State) (m : Nat) {x y : Nat} (hs : s.size ≤ 177)
    (hx : x < s.size) (hy : y < s.size) :
    Memory.cellAt (s.applyMask m).mem x y =
      { dark := xor (Memory.cellAt s.mem x y).dark (inverts m x y (Memory.cellAt s.mem x y))
        func := (Memory.cellAt s.mem x y).func } := by
  have hx' : x < 177 := by omega
  have hy' : y < 177 := by omega
  rw [State.applyMask_mem, Memory.cellAt_eq _ hx' hy', Memory.cellAt_eq _ hx' hy',
    Memory.get_mapSquare_cell _ _ _ (by omega) hx hy]
  unfold maskByte
  generalize hb : (Memory.get s.mem (gridAddr x y)).getD (Memory.unlisted (gridAddr x y)) &&& 3 = b
  have h3 : b &&& 3 = b := by rw [← hb, and_three_idem]
  cases hi : inverts m x y (cellOfByte b)
  · simp only [Bool.false_eq_true, if_false, hi, Bool.xor_false]
    rw [hb]
  · simp only [if_true, Option.getD_some, cellOfByte_and_three, hi]
    rw [cellOfByte_xor_one]
    simp

/-- An offset outside the square after a mask is applied (R182). -/
theorem State.readByte_applyMask_outside (s : State) (m : Nat) {a : Nat} (hs : s.size ≤ 177)
    (ha : ¬ InSquare s.size a) : (s.applyMask m).readByte a = s.readByte a :=
  State.readByte_congr (fun _ => Memory.get_mapSquare_outside _ _ _ (by omega) ha)

/-- The byte of a mapped GRID cell is its two bits. -/
theorem State.readByte_cell (s : State) {x y : Nat} (hx : x < 177) (hy : y < 177) :
    s.readByte (gridAddr x y) = some (Memory.byteAt s.mem (gridAddr x y)) := by
  unfold State.readByte
  rw [isBuffer_of_gridCell (isGridCell_gridAddr hx hy), if_pos rfl]

theorem Memory.byteAt_cell_and_three (m : List Host.Cell) {x y : Nat} (hx : x < 177) (hy : y < 177) :
    Memory.byteAt m (gridAddr x y) &&& 3 = Memory.byteAt m (gridAddr x y) := by
  unfold Memory.byteAt
  rw [isGridCell_gridAddr hx hy, if_pos rfl, and_three_idem]

/-- GRID_CLEAR's memory: every mapped cell 0, every other byte as before (R114). -/
theorem Memory.byteAt_fillGrid (m : List Host.Cell) (f : Nat → Nat → Byte) {x y : Nat}
    (hx : x < 177) (hy : y < 177) :
    Memory.byteAt (Memory.fillGrid m f) (gridAddr x y) = f x y &&& 3 := by
  rw [Memory.byteAt_of_get (Memory.get_fillGrid_cell m f hx hy), isGridCell_gridAddr hx hy, if_pos rfl]

theorem State.readByte_fillGrid_outside (s : State) (f : Nat → Nat → Byte) {a : Nat}
    (ha : isGridCell a = false) :
    State.readByte { s with mem := Memory.fillGrid s.mem f } a = s.readByte a := by
  refine State.readByte_congr (fun hb => Memory.get_fillGrid_outside _ _ ?_)
  simp only [isBuffer, isDataBuf, isOutBuf, ha, Bool.or_false, Bool.or_eq_true, Bool.and_eq_true,
    decide_eq_true_eq] at hb
  omega

end Sys2Proof.Machine
end

