-- ==== Sys2Proof/Laws/Bus.lean ====
section
/-!
SUPPORT. What a bus access can do, said once: which offsets hold a register or a byte, when an access is
legal, every outcome of a read and of a write, and that the memory keeps its canonical form.
-/
namespace Sys2Proof.Machine

/-- The offset of a register (R23). -/
def regOffset : Reg → Nat
  | .id => 0x000
  | .ctrl => 0x004
  | .status => 0x008
  | .cmd => 0x00C
  | .config => 0x010
  | .arg0 => 0x014
  | .arg1 => 0x018
  | .result => 0x01C
  | .bestMask => 0x020
  | .genDeg => 0x024
  | .size => 0x028
  | .rawCw => 0x02C
  | .dataCw => 0x030
  | .blocks => 0x034
  | .gen i => 0x100 + 4 * i
  | .score m => 0x200 + 4 * m

theorem controlRegs_offset : ∀ k < 14, (controlRegs[k]?).map regOffset = some (4 * k) := by decide

/-- A register found at an offset has that offset. -/
theorem regOffset_of_regAt {off : Nat} {r : Reg} (h : regAt off = some r) : off = regOffset r := by
  unfold regAt at h
  split at h
  · cases h
  · split at h
    · have hk := controlRegs_offset (off / 4) (by omega)
      rw [h, Option.map_some, Option.some.injEq] at hk
      omega
    · split at h
      · cases h; simp only [regOffset]; omega
      · split at h
        · cases h; simp only [regOffset]; omega
        · cases h

theorem registerOffset_iff (off : Nat) : RegisterOffset off ↔ regAt off ≠ none := by
  unfold regAt RegisterOffset
  split
  · simp_all
  · split
    · have hk : off / 4 < controlRegs.length := by simp only [controlRegs, List.length]; omega
      rw [List.getElem?_eq_getElem hk]
      simp only [ne_eq, reduceCtorEq, not_false_eq_true, iff_true]
      omega
    · split
      · simp only [ne_eq, reduceCtorEq, not_false_eq_true, iff_true]; omega
      · split
        · simp only [ne_eq, reduceCtorEq, not_false_eq_true, iff_true]; omega
        · simp only [ne_eq, not_true_eq_false, iff_false]; omega

theorem bufferOffset_iff (off : Nat) : BufferOffset off ↔ isBuffer off = true := by
  unfold BufferOffset isBuffer isDataBuf isOutBuf
  rw [← isGridCell_iff]
  simp only [Bool.or_eq_true, Bool.and_eq_true, decide_eq_true_eq]
  constructor
  · rintro (h | h)
    · left; omega
    · exact Or.inr h
  · rintro (h | h)
    · left; omega
    · exact Or.inr h

/-- The access is legal exactly when it reaches a register or a byte. -/
theorem legalAccess_iff (off n : Nat) : LegalAccess off n ↔ targetOf off n ≠ .illegal := by
  unfold LegalAccess targetOf
  rw [registerOffset_iff, bufferOffset_iff]
  by_cases h4 : n = 4
  · subst h4
    cases regAt off <;> simp
  · by_cases h1 : n = 1 ∧ isBuffer off = true
    · simp [h1]
    · simp only [h4, h1, if_false, false_and, false_or, ne_eq, not_true_eq_false]

theorem targetOf_reg {off : Nat} {r : Reg} (h : regAt off = some r) : targetOf off 4 = .reg r := by
  unfold targetOf
  rw [if_pos rfl, h]

theorem targetOf_byte {off : Nat} (h : isBuffer off = true) : targetOf off 1 = .byte off := by
  unfold targetOf
  rw [if_neg (by decide), if_pos ⟨rfl, h⟩]

/-- A draw of a byte is the low 8 bits of the draw. -/
theorem State.drawOfWidth_one (s : State) : s.drawOfWidth 1 = (s.draw.setWidth 8).setWidth 32 := rfl

/-- A draw of a word is the whole draw. -/
theorem State.drawOfWidth_four (s : State) : s.drawOfWidth 4 = s.draw := by
  unfold State.drawOfWidth
  simp

/-- Every outcome of a read. -/
theorem busRead_cases (s : State) (off n : Nat) :
    (∃ r, targetOf off n = .reg r ∧ (s.status.busy && volatileReg r) = false ∧
      busRead s off n = (regValue s r, s)) ∨
    (∃ r, targetOf off n = .reg r ∧ (s.status.busy && volatileReg r) = true ∧
      busRead s off n = (s.draw, s.drawn)) ∨
    (∃ a, targetOf off n = .byte a ∧ (s.status.busy && !isDataBuf a) = false ∧
      busRead s off n = ((Memory.byteAt s.mem a).setWidth 32, s)) ∨
    (∃ a, targetOf off n = .byte a ∧ (s.status.busy && !isDataBuf a) = true ∧
      busRead s off n = (s.drawOfWidth 1, s.drawn)) ∨
    (targetOf off n = .illegal ∧ busRead s off n = (0, s.accessError)) := by
  unfold busRead
  cases targetOf off n with
  | reg r =>
    by_cases h : (s.status.busy && volatileReg r) = true
    · exact .inr (.inl ⟨r, rfl, h, by simp only [h, if_true]⟩)
    · exact .inl ⟨r, rfl, by simpa using h, by simp only [h]; rfl⟩
  | byte a =>
    by_cases h : (s.status.busy && !isDataBuf a) = true
    · exact .inr (.inr (.inr (.inl ⟨a, rfl, h, by simp only [h, if_true]⟩)))
    · exact .inr (.inr (.inl ⟨a, rfl, by simpa using h, by simp only [h]; rfl⟩))
  | illegal => exact .inr (.inr (.inr (.inr ⟨rfl, rfl⟩)))

/-- Every outcome of a write. -/
theorem busWrite_cases (s : State) (off n : Nat) (v : Word) :
    (∃ r, targetOf off n = .reg r ∧ (s.status.busy && gatedReg r) = false ∧
      busWrite s off n v = writeReg s r v) ∨
    (∃ a, targetOf off n = .byte a ∧ s.status.busy = false ∧
      busWrite s off n v = { s with mem := Memory.setByte s.mem a (v.setWidth 8) }) ∨
    (targetOf off n ≠ .illegal ∧ s.status.busy = true ∧ busWrite s off n v = s.rejectWrite) ∨
    (targetOf off n = .illegal ∧ busWrite s off n v = s.accessError) := by
  unfold busWrite
  cases targetOf off n with
  | reg r =>
    by_cases h : (s.status.busy && gatedReg r) = true
    · refine .inr (.inr (.inl ⟨by simp, ?_, by simp only [h, if_true]⟩))
      exact (Bool.and_eq_true _ _ ▸ h).1
    · exact .inl ⟨r, rfl, by simpa using h, by simp only [h]; rfl⟩
  | byte a =>
    by_cases h : s.status.busy = true
    · exact .inr (.inr (.inl ⟨by simp, h, by simp only [h, if_true]⟩))
    · exact .inr (.inl ⟨a, rfl, by simpa using h, by simp only [h]; rfl⟩)
  | illegal => exact .inr (.inr (.inr ⟨rfl, rfl⟩))

/-- A byte that an access reaches is one that memory holds. -/
theorem isBuffer_of_targetOf {off n a : Nat} (h : targetOf off n = .byte a) :
    a = off ∧ isBuffer a = true := by
  unfold targetOf at h
  split at h
  · split at h <;> cases h
  · split at h
    · rename_i h1
      cases h
      exact ⟨rfl, h1.2⟩
    · cases h

/-- A byte that memory holds is read with zeros above it (R62). -/
theorem State.readByte_of_isBuffer (s : State) {a : Nat} (h : isBuffer a = true) :
    s.readByte a = some (Memory.byteAt s.mem a) := by
  unfold State.readByte
  rw [if_pos h]

theorem regAt_gen {i : Nat} (h : i < 31) : regAt (0x100 + 4 * i) = some (.gen i) := by
  unfold regAt
  rw [if_neg (by omega), if_neg (by omega), if_pos (by omega)]
  simp

theorem regAt_score {m : Nat} (h : m < 8) : regAt (0x200 + 4 * m) = some (.score m) := by
  unfold regAt
  rw [if_neg (by omega), if_neg (by omega), if_neg (by omega), if_pos (by omega)]
  simp

theorem regValue_gen (s : State) {i : Nat} (h : i < 31) :
    regValue s (.gen i) = (s.gen[i]).setWidth 32 := by
  simp [regValue, List.getD_eq_getElem?_getD, h]

theorem regValue_score (s : State) {m : Nat} (h : m < 8) : regValue s (.score m) = s.score[m] := by
  simp [regValue, List.getD_eq_getElem?_getD, h]

theorem writeReg_mem (s : State) (r : Reg) (v : Word) : (writeReg s r v).mem = s.mem := by
  cases r <;> rfl

theorem writeReg_params (s : State) (r : Reg) (v : Word) :
    (writeReg s r v).params = s.params := by
  cases r <;> rfl

theorem busRead_mem (s : State) (off n : Nat) : (busRead s off n).2.mem = s.mem := by
  rcases busRead_cases s off n with ⟨r, -, -, h⟩ | ⟨r, -, -, h⟩ | ⟨a, -, -, h⟩ | ⟨a, -, -, h⟩ | ⟨-, h⟩ <;>
    rw [h] <;> rfl

/-- A write keeps memory canonical. -/
theorem busWrite_wf {s : State} (h : Memory.wf s.mem) (off n : Nat) (v : Word) :
    Memory.wf (busWrite s off n v).mem := by
  rcases busWrite_cases s off n v with ⟨r, -, -, hw⟩ | ⟨a, ht, -, hw⟩ | ⟨-, -, hw⟩ | ⟨-, hw⟩
  · rw [hw, writeReg_mem]; exact h
  · rw [hw]; exact Memory.wf_setByte h (isBuffer_of_targetOf ht).2
  · rw [hw]; exact h
  · rw [hw]; exact h

/-- Which of STATUS's four flags each bit of its word is, ERRCODE apart (R25). -/
theorem statusWord_getLsbD (t : Status) :
    (statusWord t).getLsbD 0 = t.busy ∧ (statusWord t).getLsbD 1 = t.done ∧
      (statusWord t).getLsbD 2 = t.ovr ∧ (statusWord t).getLsbD 3 = t.buserr := by
  simp only [statusWord, BitVec.getLsbD_append]
  simp

/-- ERRCODE stands in bits [15:8] of STATUS's word (R25). -/
theorem statusWord_errcode (t : Status) : (statusWord t).extractLsb' 8 8 = t.errcode := by
  unfold statusWord
  ext i hi
  simp only [BitVec.getElem_extractLsb', BitVec.getLsbD_append]
  simp only [show ¬ 8 + i < 1 by omega, show ¬ 8 + i - 1 < 1 by omega,
    show ¬ 8 + i - 1 - 1 < 1 by omega, show ¬ 8 + i - 1 - 1 - 1 < 1 by omega,
    show ¬ 8 + i - 1 - 1 - 1 - 1 < 4 by omega, show 8 + i - 1 - 1 - 1 - 1 - 4 = i by omega,
    hi, if_true, if_false]
  simp [BitVec.getLsbD_eq_getElem hi]

/-- The reserved bits [7:4] and [31:16] of STATUS's word are 0 (R25). -/
theorem statusWord_reserved (t : Status) :
    (statusWord t).extractLsb' 4 4 = 0 ∧ (statusWord t).extractLsb' 16 16 = 0 := by
  constructor
  · apply BitVec.eq_of_getLsbD_eq
    intro i hi
    simp only [statusWord, BitVec.getLsbD_append, BitVec.getLsbD_extractLsb']
    interval_cases i <;> simp
  · apply BitVec.eq_of_getLsbD_eq
    intro i hi
    simp only [statusWord, BitVec.getLsbD_append, BitVec.getLsbD_extractLsb']
    interval_cases i <;> simp

/-- STATUS's word with BUSY set is the word with bit 0 set (R25). -/
theorem statusWord_busy (t : Status) :
    statusWord { t with busy := true } = statusWord { t with busy := false } ||| 1 := by
  apply BitVec.eq_of_getLsbD_eq
  intro i hi
  simp only [statusWord, BitVec.getLsbD_append, BitVec.getLsbD_or]
  rcases i with _ | i
  · simp
  · simp [BitVec.getLsbD_one]

/-- CTRL stores bit 0 and reads its other bits as 0 (R24). -/
theorem ctrlWord_getLsbD (v : Word) : ctrlWord (v.getLsbD 0) = v &&& 0x1 := by
  apply BitVec.eq_of_getLsbD_eq
  intro i hi
  simp only [ctrlWord, BitVec.getLsbD_append, BitVec.getLsbD_and]
  rcases i with _ | i
  · simp
  · simp [BitVec.getLsbD_one]

/-- CONFIG stores bits [5:0] and [9:8] and reads its other bits as 0 (R28). -/
theorem configWord_configOfWord (v : Word) : configWord (configOfWord v) = v &&& 0x33F := by
  apply BitVec.eq_of_getLsbD_eq
  intro i hi
  simp only [configWord, configOfWord, BitVec.getLsbD_append, BitVec.getLsbD_and,
    BitVec.getLsbD_extractLsb']
  interval_cases i <;> simp

end Sys2Proof.Machine
end

