-- ==== Sys2Proof/Laws/PerInstr.lean ====
section
/-!
SUPPORT. One family of lemmas, a lemma per command: the encoding of a command carries its opcode, its
mask index and a zero reserved field (30_encoding.md R90, R91).
-/
namespace Sys2Proof.Laws.EncodeFields

/-- The three fields of a command's word are the ones the table gives it. -/
def Statement (i : Instr) : Prop :=
  opcField (encode i) = opcodeOf i ∧ midxField (encode i) = midxOf i ∧ rsvField (encode i) = 0

theorem nop : Statement .nop := by unfold Statement; decide
theorem gfMul : Statement .gfMul := by unfold Statement; decide
theorem genPoly : Statement .genPoly := by unfold Statement; decide
theorem rsBlock : Statement .rsBlock := by unfold Statement; decide
theorem eccEncode : Statement .eccEncode := by unfold Statement; decide
theorem gridClear : Statement .gridClear := by unfold Statement; decide
theorem applyMask (m : BitVec 4) : Statement (.applyMask m) := by
  unfold Statement; revert m; decide
theorem score : Statement .score := by unfold Statement; decide
theorem selectMask : Statement .selectMask := by unfold Statement; decide
theorem formatWord (m : BitVec 4) : Statement (.formatWord m) := by
  unfold Statement; revert m; decide
theorem versionWord : Statement .versionWord := by unfold Statement; decide

end Sys2Proof.Laws.EncodeFields
end

