-- ==== Sys2Proof/Laws/Step.lean ====
section
/-!
SUPPORT. What one step can be, said once: the turn taken, the outcome of each kind of turn, and that the
masked square and an aborted command's buffers keep memory canonical.
-/
namespace Sys2Proof.Machine

theorem step_multipleHosts {s : State} (h : 1 < s.params.hosts) :
    step s = .refused .multipleHosts := by
  unfold step
  rw [if_pos h]

theorem step_engineTurn {s : State} {ts : List Turn} (h : s.params.hosts ≤ 1)
    (hs : s.schedule = .engine :: ts) : step s = engineStep { s with schedule := ts } := by
  unfold step
  rw [if_neg (by omega), hs]

theorem step_hostTurn {s : State} {ts : List Turn} (h : s.params.hosts ≤ 1)
    (hs : s.schedule = .host :: ts) : step s = hostStep { s with schedule := ts } := by
  unfold step
  rw [if_neg (by omega), hs]

theorem step_resetTurn {s : State} {ts : List Turn} (h : s.params.hosts ≤ 1)
    (hs : s.schedule = .reset :: ts) : step s = .next (resetPin { s with schedule := ts }) := by
  unfold step
  rw [if_neg (by omega), hs]

theorem step_defaultTurn {s : State} (h : s.params.hosts ≤ 1) (hs : s.schedule = []) :
    step s = if s.status.busy then engineStep s else hostStep s := by
  unfold step
  rw [if_neg (by omega), hs]

/-- A step that is not refused for its hosts is a turn of the engine, of the host, or a reset, taken
from a state that differs from `s` in `schedule` at most. -/
theorem step_cases (s : State) :
    (1 < s.params.hosts ∧ step s = .refused .multipleHosts) ∨
    ∃ ts, step s = engineStep { s with schedule := ts } ∨
      step s = hostStep { s with schedule := ts } ∨
      step s = .next (resetPin { s with schedule := ts }) := by
  by_cases h : 1 < s.params.hosts
  · exact .inl ⟨h, step_multipleHosts h⟩
  · have h' : s.params.hosts ≤ 1 := by omega
    match hs : s.schedule with
    | .engine :: ts => exact .inr ⟨ts, .inl (step_engineTurn h' hs)⟩
    | .host :: ts => exact .inr ⟨ts, .inr (.inl (step_hostTurn h' hs))⟩
    | .reset :: ts => exact .inr ⟨ts, .inr (.inr (step_resetTurn h' hs))⟩
    | [] =>
      refine .inr ⟨[], ?_⟩
      have he : ({ s with schedule := [] } : State) = s := by rw [← hs]
      rw [he, step_defaultTurn h' hs]
      cases s.status.busy
      · exact .inr (.inl rfl)
      · exact .inl rfl

/-- Every outcome of the engine's turn. -/
theorem engineStep_cases (s : State) :
    (s.status.busy = false ∧ engineStep s = .next s) ∨
    (∃ i, s.status.busy = true ∧ decode s.cmd = .ok i ∧ engineStep s = exec i s) ∨
    (∃ c, s.status.busy = true ∧ decode s.cmd = .error c ∧ engineStep s = finish c id s) := by
  unfold engineStep
  cases hb : s.status.busy
  · exact .inl ⟨rfl, rfl⟩
  · cases hd : decode s.cmd with
    | ok i => exact .inr (.inl ⟨i, rfl, rfl, rfl⟩)
    | error c => exact .inr (.inr ⟨c, rfl, rfl, rfl⟩)

/-- Every outcome of the host's turn, the script's position and the value read apart. -/
theorem hostStep_cases (s : State) :
    (∃ p, hostStep s = .next { s with pos := p }) ∨
    (∃ addr n, hostStep s = .next (State.reply (platformRead s addr n)).nextLine) ∨
    (∃ addr n v, hostStep s = .next (platformWrite s addr n v).nextLine) ∨
    (∃ v mask l, s.script[s.pos]? = some (.bnz v mask l) ∧ labelLine s.script s.pos l = none ∧
      hostStep s = .refused (.undefinedLabel l)) := by
  unfold hostStep
  match s.script[s.pos]? with
  | none => exact .inl ⟨s.pos, rfl⟩
  | some (.rd off n) => exact .inr (.inl ⟨_, _, rfl⟩)
  | some (.wr off n v) => exact .inr (.inr (.inl ⟨_, _, _, rfl⟩))
  | some (.label _) => exact .inl ⟨s.pos + 1, rfl⟩
  | some (.bnz v mask l) =>
    by_cases h : hostValue s v &&& mask ≠ 0
    · match hl : labelLine s.script s.pos l with
      | some p => exact .inl ⟨p, (if_pos h).trans (by rw [hl])⟩
      | none => exact .inr (.inr (.inr ⟨v, mask, l, rfl, hl, (if_pos h).trans (by rw [hl])⟩))
    · exact .inl ⟨s.pos + 1, if_neg h⟩

/-! Memory stays canonical. -/

theorem xor_one_and_three (b : Byte) : ((b &&& 3) ^^^ 1) &&& 3 = (b &&& 3) ^^^ 1 := by
  apply BitVec.eq_of_getLsbD_eq
  intro i hi
  interval_cases i <;> simp

theorem cellBits_and_three (b c : Byte) :
    ((b &&& 2) ||| (c &&& 1)) &&& 3 = (b &&& 2) ||| (c &&& 1) := by
  apply BitVec.eq_of_getLsbD_eq
  intro i hi
  interval_cases i <;> simp

theorem State.applyMask_wf {s : State} (h : Memory.wf s.mem) (m : Nat) (hs : s.size ≤ 177) :
    Memory.wf (s.applyMask m).mem := by
  rw [State.applyMask_mem]
  refine Memory.wf_mapSquare h hs (fun x y o b hb ho => ?_)
  unfold maskByte at hb
  simp only at hb
  split at hb
  · cases hb
    exact xor_one_and_three _
  · exact ho b hb

theorem rawCw_le {v : Nat} (h : validVersion v) : rawCw v ≤ 4096 := by
  have hall : ∀ v < 41, rawCw v ≤ 4096 := by decide
  exact hall v (by have := h.2; omega)

theorem drawOut_wf {s : State} (h : Memory.wf s.mem) {n : Nat} (hn : n ≤ 4096) :
    Memory.wf (drawOut s n).1 := by
  unfold drawOut
  refine Memory.wf_mapRange h ?_
  intro i o b hi hb
  have h1 : outAddr 0 + i = outAddr i := by unfold outAddr; omega
  rw [h1]
  refine ⟨isBuffer_outAddr (by omega), fun _ hg => ?_⟩
  rw [not_gridCell_of_lt (by unfold outAddr; omega)] at hg
  cases hg

theorem abortRawCw_le (s : State) : abortRawCw s ≤ 4096 := by
  unfold abortRawCw
  split
  · exact rawCw_le (by assumption)
  · omega

theorem abortSide_le (s : State) : abortSide s ≤ 177 := Nat.min_le_right _ _

theorem opDegree_lt (s : State) : s.opDegree < 256 := (s.arg1.extractLsb' 0 8).isLt

theorem drawDark_wf {s : State} (h : Memory.wf s.mem) : Memory.wf (drawDark s).1 := by
  unfold drawDark
  refine Memory.wf_mapSquare h (abortSide_le s) (fun x y o b hb _ => ?_)
  cases hb
  exact cellBits_and_three _ _

theorem drawGrid_wf {s : State} (h : Memory.wf s.mem) : Memory.wf (drawGrid s).1 :=
  Memory.wf_fillGrid h (fun _ _ => and_three_idem _)

/-- An aborted command leaves memory canonical. -/
theorem resetBuffers_wf {s : State} (h : Memory.wf s.mem) : Memory.wf (resetBuffers s).1 := by
  unfold resetBuffers
  split
  · split
    · rename_i i _
      have hd : s.opDegree ≤ 4096 := by have := opDegree_lt s; omega
      cases i <;>
        first
          | exact h
          | exact drawOut_wf h hd
          | exact drawOut_wf h (abortRawCw_le s)
          | exact drawGrid_wf h
          | exact drawDark_wf h
    · exact h
  · exact h

/-- A reset with no command pending leaves every buffer, and the count of draws, as it was (R281). -/
theorem resetBuffers_idle {s : State} (h : s.status.busy = false) :
    resetBuffers s = (s.mem, s.draws) := by
  unfold resetBuffers
  rw [h]
  rfl

/-! What an aborted command leaves at each offset (R282). -/

theorem get_drawOut (s : State) (n a : Nat) :
    Memory.get (drawOut s n).1 a =
      if outAddr 0 ≤ a ∧ a < outAddr 0 + n then
        some ((Config.freeValue (s.draws + (a - outAddr 0))).setWidth 8)
      else Memory.get s.mem a := by
  unfold drawOut
  rw [Memory.get_mapRange]

theorem get_drawDark_cell (s : State) {x y : Nat} (hx : x < abortSide s) (hy : y < abortSide s) :
    Memory.get (drawDark s).1 (gridAddr x y) =
      some ((((Memory.get s.mem (gridAddr x y)).getD (Memory.unlisted (gridAddr x y))) &&& 2) |||
        ((Config.freeValue (s.draws + (y * abortSide s + x))).setWidth 8 &&& 1)) := by
  have := abortSide_le s
  unfold drawDark
  rw [Memory.get_mapSquare_cell _ _ _ (by omega) hx hy]

theorem get_drawDark_outside (s : State) {a : Nat} (ha : ¬ InSquare (abortSide s) a) :
    Memory.get (drawDark s).1 a = Memory.get s.mem a := by
  have := abortSide_le s
  unfold drawDark
  rw [Memory.get_mapSquare_outside _ _ _ (by omega) ha]

/-- Above 0x0A an opcode byte names no command (R91). -/
theorem decode_badOpcode : ∀ k < 256, 10 < k → decode (BitVec.ofNat 32 k) = .error .badOpcode := by
  decide +kernel

/-- What a reset leaves in the buffers while a command is pending, by the word's OPC (R282). -/
theorem resetBuffers_busy {s : State} (h : s.status.busy = true) :
    resetBuffers s =
      if s.cmd.toNat % 256 = 3 then drawOut s s.opDegree
      else if s.cmd.toNat % 256 = 4 then drawOut s (abortRawCw s)
      else if s.cmd.toNat % 256 = 5 then drawGrid s
      else if s.cmd.toNat % 256 = 6 ∨ s.cmd.toNat % 256 = 8 then drawDark s
      else (s.mem, s.draws) := by
  have hk : s.cmd &&& 0xFF = BitVec.ofNat 32 (s.cmd.toNat % 256) := by
    apply BitVec.eq_of_toNat_eq
    rw [BitVec.toNat_and, BitVec.toNat_ofNat]
    exact (Nat.and_two_pow_sub_one_eq_mod s.cmd.toNat 8).trans (by omega)
  have hlt : s.cmd.toNat % 256 < 256 := Nat.mod_lt _ (by decide)
  unfold resetBuffers
  rw [h, if_pos rfl, hk]
  generalize s.cmd.toNat % 256 = k at hlt
  by_cases h10 : k ≤ 10
  · interval_cases k <;> rfl
  · rw [decode_badOpcode k hlt (by omega), if_neg (by omega), if_neg (by omega), if_neg (by omega),
      if_neg (by omega)]

theorem get_drawGrid_cell (s : State) {x y : Nat} (hx : x < 177) (hy : y < 177) :
    Memory.get (drawGrid s).1 (gridAddr x y) =
      some ((Config.freeValue (s.draws + (y * 177 + x))).setWidth 8 &&& 3) :=
  Memory.get_fillGrid_cell _ _ hx hy

/-! Labels of a host script. -/

/-- A branch goes to a line that holds its label. -/
theorem labelLine_some {script : List HostLine} {pos l p : Nat} (hpos : pos ≤ script.length)
    (h : labelLine script pos l = some p) : script[p]? = some (.label l) := by
  unfold labelLine at h
  split at h
  · rename_i k hk
    obtain ⟨hlt, hp, -⟩ := List.findIdx?_eq_some_iff_getElem.1 hk
    cases h
    rw [List.length_reverse] at hlt
    rw [List.getElem_reverse, List.getElem_take, beq_iff_eq] at hp
    simp only [List.length_take, Nat.min_eq_left hpos] at hp hlt
    rw [← hp, List.getElem?_eq_getElem]
  · obtain ⟨k, hk, rfl⟩ := Option.map_eq_some_iff.1 h
    obtain ⟨hlt, hp, -⟩ := List.findIdx?_eq_some_iff_getElem.1 hk
    rw [List.getElem_drop, beq_iff_eq] at hp
    rw [← hp, List.getElem?_eq_getElem]

/-- A branch finds no line only where the label stands nowhere. -/
theorem labelLine_none {script : List HostLine} {pos l : Nat}
    (h : labelLine script pos l = none) : HostLine.label l ∉ script := by
  intro hm
  unfold labelLine at h
  rw [← List.take_append_drop pos script, List.mem_append] at hm
  split at h
  · cases h
  · rename_i h1
    rw [Option.map_eq_none_iff] at h
    rw [List.findIdx?_eq_none_iff] at h h1
    rcases hm with hm | hm
    · exact absurd (h1 _ (List.mem_reverse.2 hm)) (by simp)
    · exact absurd (h _ hm) (by simp)

end Sys2Proof.Machine
end

