-- ==== Sys2Proof/Tests/Slice0.lean ====
section
/-!
SUPPORT. Tests: the WellFormed check, decoded words, at most two vectors of spec/95_test_vectors.md per
command, bus, interrupt and reset vectors, the spec's tables, and a witness for the hypotheses of each
statement that has any. Every expected value is copied from spec/.
-/
namespace Sys2Proof.Tests
open Sys2Proof Sys2Proof.Machine

/-! ## Helpers -/

/-- The reset state with CONFIG, ARG0 and ARG1 written. -/
def regs (config arg0 arg1 : Word) : State :=
  { State.reset with config := configOfWord config, arg0 := arg0, arg1 := arg1 }

/-- The reset state with a pending command word and the turns to come. -/
def pending (w : Word) (ts : List Turn) : State := { State.reset.accept w with schedule := ts }

/-- Bytes listed from an offset on. -/
def cellsFrom (lo : Nat) (bs : List Byte) : List Host.Cell := bs.zipIdx.map (fun p => (lo + p.2, p.1))

/-- The state with these data codewords in DATA_BUF. -/
def withData (s : State) (bs : List Byte) : State := { s with mem := cellsFrom 0x1000 bs }

/-- A grid from the spec's drawing, a number a row: the leftmost module is bit 20, a 1 is dark (in
`dark`) or a function module (in `func`). -/
def gridOf (dark func : List Nat) : List Host.Cell :=
  (dark.zip func).zipIdx.flatMap (fun r => (List.range 21).map (fun x =>
    (gridAddr x r.2, (if r.1.1.testBit (20 - x) then 1 else 0) |||
      (if r.1.2.testBit (20 - x) then 2 else 0))))

/-- The state after the next step runs a command word. -/
def after (w : Nat) (s : State) : State :=
  match step (s.withFetchWord 32 w) with
  | .next t => t
  | .fault f => nomatch f
  | .refused _ => s

/-- The bytes from an offset. -/
def bytesAt (s : State) (lo n : Nat) : List (Option Byte) :=
  (List.range n).map (fun i => s.readByte (lo + i))

/-- A line of modules from the spec's drawing. -/
def lineOf (t : String) : List Bool := t.toList.map (fun c => c == '#')

/-! ## WellFormed (R93) -/

theorem test_wellFormed_refuses_mask_8 : (Instr.applyMask 8).wellFormed = false := by decide
theorem test_wellFormed_refuses_format_mask_15 : (Instr.formatWord 15).wellFormed = false := by decide
theorem test_wellFormed_accepts_mask_7 : (Instr.applyMask 7).wellFormed = true := by decide

/-! ## Decode: each command's word, bit by bit from R90 and R91 -/

theorem test_decode_nop : decode 0b00000000000000000000_0000_00000000 = .ok .nop := by decide
theorem test_decode_gfMul : decode 0b00000000000000000000_0000_00000001 = .ok .gfMul := by decide
theorem test_decode_genPoly : decode 0b00000000000000000000_0000_00000010 = .ok .genPoly := by decide
theorem test_decode_rsBlock : decode 0b00000000000000000000_0000_00000011 = .ok .rsBlock := by decide
theorem test_decode_eccEncode : decode 0b00000000000000000000_0000_00000100 = .ok .eccEncode := by decide
theorem test_decode_gridClear : decode 0b00000000000000000000_0000_00000101 = .ok .gridClear := by decide
theorem test_decode_applyMask : decode 0b00000000000000000000_0101_00000110 = .ok (.applyMask 5) := by
  decide
theorem test_decode_score : decode 0b00000000000000000000_0000_00000111 = .ok .score := by decide
theorem test_decode_selectMask : decode 0b00000000000000000000_0000_00001000 = .ok .selectMask := by
  decide
theorem test_decode_formatWord : decode 0b00000000000000000000_0110_00001001 = .ok (.formatWord 6) := by
  decide
theorem test_decode_versionWord : decode 0b00000000000000000000_0000_00001010 = .ok .versionWord := by
  decide

/-- V-ERR-1 to V-ERR-8 and V-ERR-10: the words that decode to an error. -/
theorem test_decode_errors :
    decode 0x0000000B = .error .badOpcode ∧ decode 0xFFFFFFFF = .error .badOpcode ∧
    decode 0x00001000 = .error .reservedBits ∧ decode 0x00000100 = .error .reservedBits ∧
    decode 0x00000107 = .error .reservedBits ∧ decode 0x80000006 = .error .reservedBits ∧
    decode 0x00000806 = .error .invalidMask ∧ decode 0x00000F09 = .error .invalidMask ∧
    decode 0x00001F06 = .error .reservedBits := by decide

theorem test_decodeTableWord : decodeTableWord 32 0x306 = some (.applyMask 3) ∧
    decodeTableWord 32 0x0B = none := by decide

/-! ## Control -/

/-- R113's example: a NOP from reset leaves STATUS 0x00000002. -/
theorem test_nop_status : statusWord (after 0x0 State.reset).status = 0x00000002 := by decide

/-- V-CLR-1: a cell outside the 21-by-21 square is cleared too; DATA_BUF is kept. -/
theorem test_gridClear_outside_square :
    let t := after 0x5 { regs 1 0 0 with mem := [(0x1000, 0x40), (0x100B0, 3)] }
    t.readByte 0x1000 = some 0x40 ∧ t.readByte 0x100B0 = some 0 := by decide +kernel

/-! ## GF_MUL, GEN_POLY, RS_BLOCK -/

/-- V-GF-11. -/
theorem test_gfMul_not_aes : (after 0x1 (regs 0 0x53 0xCA)).result = 0x8F := by decide

/-- V-GF-17: bits [31:8] of the operands are ignored. -/
theorem test_gfMul_high_bits : (after 0x1 (regs 0 0xFFFFFF02 0x180)).result = 0x1D := by decide

/-- V-GEN-31, V-GEN-32: degree 7, bits [31:8] ignored, zeros above. -/
theorem test_genPoly_7 : (after 0x2 (regs 0 0 0x107)).gen.toList =
    [0x01, 0x7F, 0x7A, 0x9A, 0xA4, 0x0B, 0x44, 0x75] ++ List.replicate 23 0 := by decide +kernel

/-- V-ERR-15. -/
theorem test_genPoly_31 : statusWord (after 0x2 (regs 0 0 31)).status = 0x00000502 := by decide

/-- V-RS-3. -/
theorem test_rsBlock_hello_world :
    bytesAt (after 0x3 (withData (regs 0 16 10)
      [0x20, 0x5B, 0x0B, 0x78, 0xD1, 0x72, 0xDC, 0x4D, 0x43, 0x40, 0xEC, 0x11, 0xEC, 0x11, 0xEC,
        0x11])) 0x2000 10 =
      [0xC4, 0x23, 0x27, 0x77, 0xEB, 0xD7, 0xE7, 0xE2, 0x5D, 0x17].map some := by decide +kernel

/-- V-ERR-18. -/
theorem test_rsBlock_priority : statusWord (after 0x3 (regs 0 5000 0)).status = 0x00000502 := by decide

/-- R130: the antilog table of the spec, entry by entry. -/
theorem test_exp_table :
    let t : List Byte := [0x01, 0x02, 0x04, 0x08, 0x10, 0x20, 0x40, 0x80, 0x1D, 0x3A, 0x74, 0xE8, 0xCD, 0x87, 0x13, 0x26] ++
    [0x4C, 0x98, 0x2D, 0x5A, 0xB4, 0x75, 0xEA, 0xC9, 0x8F, 0x03, 0x06, 0x0C, 0x18, 0x30, 0x60, 0xC0] ++
    [0x9D, 0x27, 0x4E, 0x9C, 0x25, 0x4A, 0x94, 0x35, 0x6A, 0xD4, 0xB5, 0x77, 0xEE, 0xC1, 0x9F, 0x23] ++
    [0x46, 0x8C, 0x05, 0x0A, 0x14, 0x28, 0x50, 0xA0, 0x5D, 0xBA, 0x69, 0xD2, 0xB9, 0x6F, 0xDE, 0xA1] ++
    [0x5F, 0xBE, 0x61, 0xC2, 0x99, 0x2F, 0x5E, 0xBC, 0x65, 0xCA, 0x89, 0x0F, 0x1E, 0x3C, 0x78, 0xF0] ++
    [0xFD, 0xE7, 0xD3, 0xBB, 0x6B, 0xD6, 0xB1, 0x7F, 0xFE, 0xE1, 0xDF, 0xA3, 0x5B, 0xB6, 0x71, 0xE2] ++
    [0xD9, 0xAF, 0x43, 0x86, 0x11, 0x22, 0x44, 0x88, 0x0D, 0x1A, 0x34, 0x68, 0xD0, 0xBD, 0x67, 0xCE] ++
    [0x81, 0x1F, 0x3E, 0x7C, 0xF8, 0xED, 0xC7, 0x93, 0x3B, 0x76, 0xEC, 0xC5, 0x97, 0x33, 0x66, 0xCC] ++
    [0x85, 0x17, 0x2E, 0x5C, 0xB8, 0x6D, 0xDA, 0xA9, 0x4F, 0x9E, 0x21, 0x42, 0x84, 0x15, 0x2A, 0x54] ++
    [0xA8, 0x4D, 0x9A, 0x29, 0x52, 0xA4, 0x55, 0xAA, 0x49, 0x92, 0x39, 0x72, 0xE4, 0xD5, 0xB7, 0x73] ++
    [0xE6, 0xD1, 0xBF, 0x63, 0xC6, 0x91, 0x3F, 0x7E, 0xFC, 0xE5, 0xD7, 0xB3, 0x7B, 0xF6, 0xF1, 0xFF] ++
    [0xE3, 0xDB, 0xAB, 0x4B, 0x96, 0x31, 0x62, 0xC4, 0x95, 0x37, 0x6E, 0xDC, 0xA5, 0x57, 0xAE, 0x41] ++
    [0x82, 0x19, 0x32, 0x64, 0xC8, 0x8D, 0x07, 0x0E, 0x1C, 0x38, 0x70, 0xE0, 0xDD, 0xA7, 0x53, 0xA6] ++
    [0x51, 0xA2, 0x59, 0xB2, 0x79, 0xF2, 0xF9, 0xEF, 0xC3, 0x9B, 0x2B, 0x56, 0xAC, 0x45, 0x8A, 0x09] ++
    [0x12, 0x24, 0x48, 0x90, 0x3D, 0x7A, 0xF4, 0xF5, 0xF7, 0xF3, 0xFB, 0xEB, 0xCB, 0x8B, 0x0B, 0x16] ++
    [0x2C, 0x58, 0xB0, 0x7D, 0xFA, 0xE9, 0xCF, 0x83, 0x1B, 0x36, 0x6C, 0xD8, 0xAD, 0x47, 0x8E]
    t.length = 255 ∧ t.head? = some (gfExp 0) ∧
      ∀ i < 254, t[i + 1]? = (t[i]?).map (fun b => gfMul b 0x02) := by decide +kernel

/-! ## Capacity, ECC_ENCODE -/

/-- R158: the raw modules of versions 1 to 40. -/
theorem test_rawModules_table : (List.range 40).map (fun k => rawModules (k + 1)) =
    [208, 359, 567, 807, 1079, 1383, 1568, 1936, 2336, 2768,
     3232, 3728, 4256, 4651, 5243, 5867, 6523, 7211, 7931, 8683,
     9252, 10068, 10916, 11796, 12708, 13652, 14628, 15371, 16411, 17483,
     18587, 19723, 20891, 22091, 23008, 24272, 25568, 26896, 28256, 29648] := by
  decide +kernel

/-- R158: DATA_CW for versions 1 to 40, levels L, M, Q, H. -/
theorem test_dataCw_table : (List.range 40).map (fun k =>
    (dataCw .low (k + 1), dataCw .medium (k + 1), dataCw .quartile (k + 1), dataCw .high (k + 1))) =
    [(19, 16, 13, 9), (34, 28, 22, 16), (55, 44, 34, 26), (80, 64, 48, 36)] ++
    [(108, 86, 62, 46), (136, 108, 76, 60), (156, 124, 88, 66), (194, 154, 110, 86)] ++
    [(232, 182, 132, 100), (274, 216, 154, 122), (324, 254, 180, 140), (370, 290, 206, 158)] ++
    [(428, 334, 244, 180), (461, 365, 261, 197), (523, 415, 295, 223), (589, 453, 325, 253)] ++
    [(647, 507, 367, 283), (721, 563, 397, 313), (795, 627, 445, 341), (861, 669, 485, 385)] ++
    [(932, 714, 512, 406), (1006, 782, 568, 442), (1094, 860, 614, 464), (1174, 914, 664, 514)] ++
    [(1276, 1000, 718, 538), (1370, 1062, 754, 596), (1468, 1128, 808, 628), (1531, 1193, 871, 661)] ++
    [(1631, 1267, 911, 701), (1735, 1373, 985, 745), (1843, 1455, 1033, 793), (1955, 1541, 1115, 845)] ++
    [(2071, 1631, 1171, 901), (2191, 1725, 1231, 961), (2306, 1812, 1286, 986), (2434, 1914, 1354, 1054)] ++
    [(2566, 1992, 1426, 1096), (2702, 2102, 1502, 1142), (2812, 2216, 1582, 1222), (2956, 2334, 1666, 1276)] := by
  decide +kernel

/-- V-CFG-12 and V-CFG-17. -/
theorem test_derived_registers :
    (busRead (regs 0x00000227 0 0) 0x034 4).1 = 0x430F1E4D ∧
    (busRead (regs 0x00000227 0 0) 0x030 4).1 = 1222 ∧
    (busRead (regs 0xFFFFFFFF 0 0) 0x010 4).1 = 0x0000033F ∧
    (busRead (regs 0xFFFFFFFF 0 0) 0x028 4).1 = 0 := by decide +kernel

/-- V-ECC-3: unequal blocks. -/
theorem test_eccEncode_5Q :
    bytesAt (after 0x4 (withData (regs 0x00000305 0 0) ((List.range 62).map (BitVec.ofNat 8)))) 0x2000
      134 = ([0x00, 0x0F, 0x1E, 0x2E, 0x01, 0x10, 0x1F, 0x2F, 0x02, 0x11, 0x20, 0x30, 0x03, 0x12, 0x21, 0x31] ++
    [0x04, 0x13, 0x22, 0x32, 0x05, 0x14, 0x23, 0x33, 0x06, 0x15, 0x24, 0x34, 0x07, 0x16, 0x25, 0x35] ++
    [0x08, 0x17, 0x26, 0x36, 0x09, 0x18, 0x27, 0x37, 0x0A, 0x19, 0x28, 0x38, 0x0B, 0x1A, 0x29, 0x39] ++
    [0x0C, 0x1B, 0x2A, 0x3A, 0x0D, 0x1C, 0x2B, 0x3B, 0x0E, 0x1D, 0x2C, 0x3C, 0x2D, 0x3D, 0x82, 0x55] ++
    [0x12, 0x44, 0x20, 0xD8, 0x02, 0xE0, 0x39, 0x83, 0x92, 0xE7, 0xE2, 0x1C, 0x2D, 0x70, 0x21, 0x51] ++
    [0x7B, 0xAD, 0x9C, 0x4D, 0x10, 0x5F, 0x80, 0x5E, 0x8E, 0xEB, 0x9E, 0xAB, 0x83, 0x44, 0xD8, 0xD5] ++
    [0x41, 0x83, 0xD3, 0x4B, 0x61, 0xF2, 0x0D, 0xF9, 0xDA, 0x83, 0x43, 0x76, 0xDC, 0x57, 0xF1, 0x4A] ++
    [0xEB, 0x6E, 0xAF, 0x1C, 0xC7, 0x6E, 0x9E, 0x24, 0x03, 0x41, 0xBC, 0xA4, 0xDF, 0x1D, 0x8B, 0xA8] ++
    [0x95, 0x84, 0x67, 0x9A, 0x8A, 0x13]).map some := by decide +kernel

/-- V-ERR-12. -/
theorem test_eccEncode_version_41 : statusWord (after 0x4 (regs 0x29 0 0)).status = 0x00000402 := by
  decide

/-! ## Masks, penalty, selection -/

/-- V-MASK-10 and V-MASK-1: function modules keep their colour. -/
theorem test_applyMask_function_modules :
    bytesAt (after 0x006 { regs 1 0 0 with
      mem := cellsFrom 0x10000 ([2, 3] ++ List.replicate 20 0) }) 0x10000 4 =
      [some 2, some 3, some 1, some 0] := by decide +kernel

/-- V-MASK-1 to V-MASK-8: rows 0 and 1 of each mask. -/
theorem test_maskBit_rows :
    (List.range 8).map (fun m => (List.range 2).map (fun y =>
      (List.range 12).map (fun x => maskBit m x y))) =
    [["#.#.#.#.#.#.", ".#.#.#.#.#.#"], ["############", "............"],
      ["#..#..#..#..", "#..#..#..#.."], ["#..#..#..#..", "..#..#..#..#"],
      ["###...###...", "###...###..."], ["############", "#.....#....."],
      ["############", "###...###..."], ["#.#.#.#.#.#.", "...###...###"]].map (List.map lineOf) := by
  decide +kernel

/-- V-LINE-8, V-LINE-10, V-LINE-4: single lines, LIGHT and NOT_LIGHT. -/
theorem test_lines :
    finderPenalty .light (lineOf "..#.###.#....#.###.#.") = 160 ∧
    finderPenalty .notLight (lineOf "..#.###.#....#.###.#.") = 80 ∧
    finderPenalty .light (lineOf "#.###.#.###.#........") = 80 ∧
    finderPenalty .notLight (lineOf "#.###.#.###.#........") = 40 ∧
    runPenalty (lineOf "######...............") = 17 ∧
    runPenalty (lineOf "#####.#####.#####.###") = 9 := by decide +kernel

/-- V-PEN-10: rule (d) where the two settings differ. -/
theorem test_balance :
    balancePenalty .exact 1 441 = 90 ∧ balancePenalty .truncatedPercent 1 441 = 100 ∧
    balancePenalty .exact 199 441 = 0 ∧ balancePenalty .truncatedPercent 199 441 = 10 ∧
    balancePenalty .exact 243 441 = 10 ∧ balancePenalty .truncatedPercent 441 441 = 100 := by decide

/-- The unmasked grid of V-SEL-1. -/
def helloDark : List Nat :=
  [ 0b111111100101101111111,
    0b100000100110001000001,
    0b101110100000101011101,
    0b101110100110001011101,
    0b101110100000001011101,
    0b100000100011101000001,
    0b111111101010101111111,
    0b000000000000100000000,
    0b000000100111100000000,
    0b111111010011011101000,
    0b101011101100001001010,
    0b111110000011011101000,
    0b110011111100000000001,
    0b000000000110000001100,
    0b111111100011110110010,
    0b100000100110100011010,
    0b101110100001110110010,
    0b101110100001011001100,
    0b101110100000001000000,
    0b100000100011011111000,
    0b111111100000000110010 ]

/-- The function modules of V-SEL-1. -/
def helloFunc : List Nat :=
  [ 0b111111111000011111111,
    0b111111111000011111111,
    0b111111111000011111111,
    0b111111111000011111111,
    0b111111111000011111111,
    0b111111111000011111111,
    0b111111111111111111111,
    0b111111111000011111111,
    0b111111111000011111111,
    0b000000100000000000000,
    0b000000100000000000000,
    0b000000100000000000000,
    0b000000100000000000000,
    0b111111111000000000000,
    0b111111111000000000000,
    0b111111111000000000000,
    0b111111111000000000000,
    0b111111111000000000000,
    0b111111111000000000000,
    0b111111111000000000000,
    0b111111111000000000000 ]

/-- The state of V-SEL-1 before its command. -/
def hello : State := { regs 1 0 0 with mem := gridOf helloDark helloFunc }

/-- V-PEN-9. -/
theorem test_score_hello : (after 0x7 hello).result = 1547 := by decide +kernel

/-- V-SEL-1. -/
theorem test_selectMask_hello :
    let t := after 0x8 hello
    t.score.toList = [1240, 1354, 1167, 1270, 1265, 1239, 1255, 1352] ∧ t.bestMask = 2 ∧
      t.result = 1167 := by decide +kernel

/-! ## Format and version words -/

/-- R234: the 32 format words, levels M, L, H, Q (ECL 0 to 3), masks 0 to 7. -/
theorem test_format_table : (List.range 32).map (fun d => fmtWord (d / 8) (d % 8)) =
    [0x5412, 0x5125, 0x5E7C, 0x5B4B, 0x45F9, 0x40CE, 0x4F97, 0x4AA0,
     0x77C4, 0x72F3, 0x7DAA, 0x789D, 0x662F, 0x6318, 0x6C41, 0x6976,
     0x1689, 0x13BE, 0x1CE7, 0x19D0, 0x0762, 0x0255, 0x0D0C, 0x083B,
     0x355F, 0x3068, 0x3F31, 0x3A06, 0x24B4, 0x2183, 0x2EDA, 0x2BED] := by
  decide +kernel

/-- R234: the 34 version words. -/
theorem test_version_table : (List.range 34).map (fun k => verWord (k + 7)) =
    [0x07C94, 0x085BC, 0x09A99, 0x0A4D3, 0x0BBF6, 0x0C762, 0x0D847, 0x0E60D, 0x0F928, 0x10B78,
     0x1145D, 0x12A17, 0x13532, 0x149A6, 0x15683, 0x168C9, 0x177EC, 0x18EC4, 0x191E1, 0x1AFAB,
     0x1B08E, 0x1CC1A, 0x1D33F, 0x1ED75, 0x1F250, 0x209D5, 0x216F0, 0x228BA, 0x2379F, 0x24B0B,
     0x2542E, 0x26A64, 0x27541, 0x28C69] := by
  decide +kernel

/-- V-FMT-5. -/
theorem test_formatWord : (after 0x509 (regs 0x301 0 0)).result = 0x2183 := by decide +kernel

/-- V-FMT-7. -/
theorem test_formatWord_mask_8 : statusWord (after 0x809 (regs 1 0 0)).status = 0x00000302 := by decide

/-- V-VER-2. -/
theorem test_versionWord : (after 0xA (regs 0x28 0 0)).result = 0x28C69 := by decide +kernel

/-- R233: version 6 has no version word. -/
theorem test_versionWord_6 : statusWord (after 0xA (regs 6 0 0)).status = 0x00000402 := by decide

/-! ## Bus, interrupt, reset -/

/-- V-BUS-1, V-BUS-3, V-BUS-5, V-BUS-8: value read and STATUS. -/
theorem test_bus_reads :
    (busRead State.reset 0x000 4).1 = 0x52534D01 ∧
    (busRead State.reset 0x002 4).1 = 0 ∧
    statusWord (busRead State.reset 0x002 4).2.status = 0x8 ∧
    statusWord (busRead State.reset 0x17C 4).2.status = 0x8 ∧
    statusWord (busRead State.reset 0x100B1 1).2.status = 0x8 := by decide

/-- V-BUS-10 and V-BUS-15. -/
theorem test_bus_writes :
    (busRead (busWrite State.reset 0x10015 1 0xFF) 0x10015 1).1 = 0x3 ∧
    statusWord (busWrite { State.reset with status :=
      { busy := false, done := true, ovr := true, buserr := true, errcode := 3 } } 0x8 4
      0xFFFFFFFF).status = 0x300 := by decide

/-- V-BSY-1: a write while busy is dropped and sets OVR. -/
theorem test_busy_write :
    statusWord (busWrite (pending 5 []) 0x014 4 0x55).status = 0x5 ∧
    (busWrite (pending 5 []) 0x014 4 0x55).arg0 = 0 := by decide

/-- V-IRQ-1. -/
theorem test_irq : (after 0x0 { State.reset with ie := true }).irq = true ∧
    (busWrite (after 0x0 { State.reset with ie := true }) 0x8 4 0x2).irq = false := by decide

/-- V-RST-2: a busy ECC_ENCODE aborted; OUT_BUF[26..] and DATA_BUF keep their bytes. -/
theorem test_reset_abort :
    let s := { pending 0x4 [] with config := configOfWord 1, mem := [(0x1000, 0x40), (0x201A, 0xAA)] }
    statusWord (resetPin s).status = 0 ∧ (resetPin s).readByte 0x1000 = some 0x40 ∧
      (resetPin s).readByte 0x201A = some 0xAA := by decide +kernel

/-- P1-style script: a host line reaches the bus with the script's own offset. -/
theorem test_host_turn : ∃ t, step { State.reset with script := issue .gfMul } = .next t ∧
    t.cmd = 0x1 ∧ t.status.busy = true ∧ t.pos = 1 := ⟨_, rfl, by decide, by decide, by decide⟩

/-! ## Witnesses: a concrete case for the hypotheses of each statement -/

theorem witness_DecodeEncodeRoundTrip :
    (Instr.formatWord 7).wellFormed = true ∧ decode 0x709 = .ok (.formatWord 7) := by decide

theorem witness_EveryWordDecodesByPriority :
    10 < (0x0B : Word).toNat % 256 ∧
    ((0x100A : Word).toNat % 256 ≤ 10 ∧ (0x100A : Word).toNat / 4096 ≠ 0) ∧
    ((0x10A : Word).toNat % 256 ≤ 10 ∧ (0x10A : Word).toNat / 4096 = 0 ∧
      (0x10A : Word).toNat / 256 % 16 ≠ 0) ∧
    ((0x809 : Word).toNat / 4096 = 0 ∧ (0x809 : Word).toNat % 256 = 9 ∧
      8 ≤ (0x809 : Word).toNat / 256 % 16) ∧
    ((0x706 : Word).toNat % 256 = 6 ∧ (0x706 : Word).toNat / 4096 = 0 ∧
      (0x706 : Word).toNat / 256 % 16 < 8) := by decide

theorem witness_StepRunsDecodedCommand_scheduled :
    let s := pending 0x306 [.engine, .host]
    s.params.hosts ≤ 1 ∧ s.schedule = [.engine, .host] ∧ s.status.busy = true ∧
      decode s.cmd = .ok (.applyMask 3) := by decide

theorem witness_StepRunsDecodedCommand_default :
    let s := pending 0x306 []
    s.params.hosts ≤ 1 ∧ s.schedule = [] ∧ s.status.busy = true ∧
      decode s.cmd = .ok (.applyMask 3) := by decide

theorem witness_IllegalWordCompletesWithCode :
    let s := pending 0x806 [.engine]
    s.params.hosts ≤ 1 ∧ s.schedule = [.engine] ∧ s.status.busy = true ∧
      decode s.cmd = .error .invalidMask := by decide

theorem witness_CmdWriteIsAccepted :
    State.reset.status.busy = false ∧ (pending 0x1 []).status.busy = true := by decide

theorem witness_FailingCommandWritesOnlyStatus :
    ∃ t, exec .genPoly (regs 0 0 31) = .next t ∧ t.status.errcode ≠ 0 := ⟨_, rfl, by decide⟩

theorem witness_FirstFailingCheckSetsCode :
    let s := pending 0x003 [.engine]
    s.params.hosts ≤ 1 ∧ s.schedule = [.engine] ∧ s.status.busy = true := by decide

theorem witness_ResultRegistersHaveTheirWriters :
    ∃ t, exec .genPoly (regs 0 0 1) = .next t ∧ t.genDeg ≠ (regs 0 0 1).genDeg := ⟨_, rfl, by decide⟩

theorem witness_ResultRegistersHaveTheirWriters_result :
    ∃ t, exec .gfMul (regs 0 1 1) = .next t ∧ t.result ≠ (regs 0 1 1).result := ⟨_, rfl, by decide⟩

theorem witness_ResultRegistersHaveTheirWriters_selectMask :
    (after 0x8 hello).bestMask ≠ hello.bestMask ∧ (after 0x8 hello).score ≠ hello.score := by
  obtain ⟨h1, h2, -⟩ := test_selectMask_hello
  refine ⟨by rw [h2]; decide, fun h => ?_⟩
  rw [h] at h1
  exact absurd h1 (by decide)

theorem witness_BuffersHaveTheirWriters :
    ∃ t, exec (.applyMask 1) { regs 1 0 0 with mem := [(0x10000, 0)] } = .next t ∧
      (Memory.cellAt t.mem 0 0).dark ≠ (Memory.cellAt [(0x10000, 0)] 0 0).dark :=
  ⟨_, rfl, by decide +kernel⟩

theorem witness_BuffersHaveTheirWriters_func :
    ∃ t, exec .gridClear { State.reset with mem := [(0x10000, 2)] } = .next t ∧
      (Memory.cellAt t.mem 0 0).func ≠ (Memory.cellAt [(0x10000, 2)] 0 0).func :=
  ⟨_, rfl, by decide +kernel⟩

theorem witness_BuffersHaveTheirWriters_out :
    ∃ t, exec .rsBlock { regs 0 0 1 with mem := [(0x2000, 7)] } = .next t ∧
      t.readByte 0x2000 ≠ State.readByte { regs 0 0 1 with mem := [(0x2000, 7)] } 0x2000 :=
  ⟨_, rfl, by decide +kernel⟩

theorem witness_ProductAgreesWithLogTables :
    (0xFF : Byte) ≠ 0 ∧ gfLog 0x02 = some 1 ∧ gfLog 0x04 = some 2 := by decide +kernel

theorem witness_encodings :
    ((0x101 : Word).toNat % 256 = 0x01 ∧ 256 ≤ (0x101 : Word).toNat) ∧
    ((0x1F06 : Word).toNat % 256 = 0x06 ∧ 4096 ≤ (0x1F06 : Word).toNat) ∧
    ((0x809 : Word).toNat % 256 = 0x09 ∧ (0x809 : Word).toNat < 4096 ∧
      8 ≤ (0x809 : Word).toNat / 256) ∧ (7 : BitVec 4).toNat < 8 := by decide

theorem witness_FieldLaws : (0xFF : Byte) ≠ 0 := by decide

theorem witness_GeneratorIsMonicWithRoots : 29 < (30 : Nat) ∧ 0 < (1 : Nat) := by decide

theorem witness_ShiftRegisterIsRemainder : 1 ≤ (1 : Nat) ∧ 1 ≤ (30 : Nat) := by decide

theorem witness_GenPolyBuildsGenerator :
    (1 ≤ (regs 0 0 1).arg1.toNat % 256 ∧ (regs 0 0 30).arg1.toNat % 256 ≤ 30) ∧
    ¬ (1 ≤ (regs 0 0 0x100).arg1.toNat % 256 ∧ (regs 0 0 0x100).arg1.toNat % 256 ≤ 30) ∧
    ¬ (1 ≤ (regs 0 0 31).arg1.toNat % 256 ∧ (regs 0 0 31).arg1.toNat % 256 ≤ 30) := by decide

theorem witness_RsBlockWritesRemainder :
    let s := withData (regs 0 3 1) [1, 2, 3]
    (1 ≤ s.arg1.toNat % 256 ∧ s.arg1.toNat % 256 ≤ 30) ∧ s.arg0.toNat % 65536 ≤ 4096 ∧
      ([1, 2, 3] : List Byte).length = s.arg0.toNat % 65536 ∧
      ∀ i, i < s.arg0.toNat % 65536 → s.readByte (0x1000 + i) = ([1, 2, 3] : List Byte)[i]? := by
  decide +kernel

theorem witness_RsBlockWritesRemainder_errors :
    ¬ (1 ≤ (regs 0 3 31).arg1.toNat % 256 ∧ (regs 0 3 31).arg1.toNat % 256 ≤ 30) ∧
    (1 ≤ (regs 0 4097 30).arg1.toNat % 256 ∧ (regs 0 4097 30).arg1.toNat % 256 ≤ 30 ∧
      4096 < (regs 0 4097 30).arg0.toNat % 65536) ∧
    (regs 0 4096 30).arg0.toNat % 65536 ≤ 4096 := by decide

theorem witness_version_ranges :
    (1 ≤ (regs 1 0 0).config.version.toNat ∧ (regs 1 0 0).config.version.toNat ≤ 40) ∧
    (1 ≤ (regs 40 0 0).config.version.toNat ∧ (regs 40 0 0).config.version.toNat ≤ 40) ∧
    ¬ (1 ≤ (regs 0 0 0).config.version.toNat ∧ (regs 0 0 0).config.version.toNat ≤ 40) ∧
    ¬ (1 ≤ (regs 41 0 0).config.version.toNat ∧ (regs 41 0 0).config.version.toNat ≤ 40) := by decide

theorem witness_InterleavePlaces :
    let data : List Byte := [1, 2, 3, 4, 5]
    1 < 2 ∧ 1 < data.length / 2 ∧ 2 - data.length % 2 ≤ 1 ∧ 1 ≤ 2 ∧ 0 < 2 := by decide

theorem witness_EccEncodeWritesCodewords :
    let s := withData (regs 0x201 0 0) [1, 2, 3, 4, 5, 6, 7, 8, 9]
    (1 ≤ s.config.version.toNat ∧ s.config.version.toNat ≤ 40) ∧
      ([1, 2, 3, 4, 5, 6, 7, 8, 9] : List Byte).length = dataCw (levelOf s.config.ecl) 1 ∧
      ∀ i, i < 9 → s.readByte (0x1000 + i) = ([1, 2, 3, 4, 5, 6, 7, 8, 9] : List Byte)[i]? := by
  decide +kernel

theorem witness_ApplyMaskInvertsSelectedModules :
    (7 : BitVec 4).toNat < 8 ∧ 8 ≤ (8 : BitVec 4).toNat ∧
      (1 ≤ (regs 40 0 0).config.version.toNat ∧ (regs 40 0 0).config.version.toNat ≤ 40) ∧
      ¬ (1 ≤ (regs 0 0 0).config.version.toNat ∧ (regs 0 0 0).config.version.toNat ≤ 40) := by decide

theorem witness_MaskAlgebra :
    (∃ t u, exec (.applyMask 3) (regs 1 0 0) = .next t ∧ exec (.applyMask 5) t = .next u) ∧
      (3 : BitVec 4).toNat < 8 ∧ (5 : BitVec 4).toNat < 8 :=
  ⟨⟨_, _, rfl, rfl⟩, by decide, by decide⟩

theorem witness_RunPenaltySumsMaximalRuns :
    MaximalRuns [(true, 5), (false, 1), (true, 6)] := by
  refine ⟨by decide, ?_⟩
  simp

theorem witness_BalancePenaltyFormula : 0 < 441 ∧ 199 ≤ 441 ∧ 441 ≤ 2 * 221 := by decide

theorem witness_PenaltyFitsRegisters :
    (lineOf "#.").length ≤ 177 ∧ ∀ r ∈ [lineOf "#.", lineOf ".#"], r.length = 2 := by decide

theorem witness_ChosenMaskHasLeastScore :
    ∃ t, exec .selectMask hello = .next t ∧ t.status.errcode = 0 := ⟨_, rfl, by decide +kernel⟩

theorem witness_CommittedGridHasReportedScore :
    ∃ t u, exec .selectMask hello = .next t ∧ t.status.errcode = 0 ∧ exec .score t = .next u :=
  ⟨_, _, rfl, by decide +kernel, rfl⟩

theorem witness_BchIsPolynomialRemainder : 0 < (0x537 : Nat) ∧ 0 < (0x1F25 : Nat) := by decide

theorem witness_FormatWordWritesWord : (7 : BitVec 4).toNat < 8 ∧ 8 ≤ (8 : BitVec 4).toNat := by decide

theorem witness_VersionWordWritesWord :
    (7 ≤ (regs 7 0 0).config.version.toNat ∧ (regs 7 0 0).config.version.toNat ≤ 40) ∧
    (7 ≤ (regs 40 0 0).config.version.toNat ∧ (regs 40 0 0).config.version.toNat ≤ 40) ∧
    ¬ (7 ≤ (regs 6 0 0).config.version.toNat ∧ (regs 6 0 0).config.version.toNat ≤ 40) ∧
    ¬ (7 ≤ (regs 41 0 0).config.version.toNat ∧ (regs 41 0 0).config.version.toNat ≤ 40) := by decide

theorem witness_LegalAccess :
    LegalAccess 0x034 4 ∧ LegalAccess 0x178 4 ∧ LegalAccess 0x21C 4 ∧ LegalAccess 0x1000 1 ∧
    LegalAccess 0x2FFF 1 ∧ LegalAccess 0x1B0B0 1 := by
  refine ⟨?_, ?_, ?_, ?_, ?_, ?_⟩
  · exact .inl ⟨rfl, by unfold RegisterOffset; omega⟩
  · exact .inl ⟨rfl, by unfold RegisterOffset; omega⟩
  · exact .inl ⟨rfl, by unfold RegisterOffset; omega⟩
  · exact .inr ⟨rfl, .inl (by omega)⟩
  · exact .inr ⟨rfl, .inl (by omega)⟩
  · exact .inr ⟨rfl, .inr ⟨176, 176, by omega, by omega, rfl⟩⟩

/-- Accesses inside the window that are not legal, at the edges of what is mapped. -/
theorem witness_IllegalAccess :
    (¬ LegalAccess 0x038 4 ∧ ¬ LegalAccess 0x002 4 ∧ ¬ LegalAccess 0x004 2 ∧
    ¬ LegalAccess 0x1000 4 ∧ ¬ LegalAccess 0x3000 1 ∧ ¬ LegalAccess 0x1FFFF 1) ∧
    ∀ off ∈ [0x038, 0x002, 0x004, 0x1000, 0x3000, 0x1FFFF], off < 0x20000 := by
  refine ⟨?_, by decide⟩
  unfold LegalAccess RegisterOffset BufferOffset InSquare gridAddr
  refine ⟨?_, ?_, ?_, ?_, ?_, ?_⟩ <;> rintro (⟨h, h'⟩ | ⟨h, h' | ⟨x, y, hx, hy, h'⟩⟩) <;> omega

/-- The clauses of LegalReadsReturnTheirValues, BusyWritesAreDropped and StatusWriteOneToClear: a busy
and an idle state, and offsets at both ends of each region. -/
theorem witness_busy :
    (pending 0x4 []).status.busy = true ∧ State.reset.status.busy = false ∧ RegisterOffset 0x100 ∧
    RegisterOffset 0x178 ∧ RegisterOffset 0x21C ∧ RegisterOffset 0x01C ∧ BufferOffset 0x1000 ∧
    BufferOffset 0x2000 ∧ BufferOffset 0x2FFF ∧ BufferOffset 0x10000 ∧ BufferOffset 0x1B0B0 ∧
    30 < 31 ∧ 7 < 8 ∧ 4095 < 4096 ∧ (0x01C : Nat) ∉ [0x004, 0x008, 0x00C, 0x010, 0x014, 0x018] := by
  refine ⟨rfl, rfl, ?_, ?_, ?_, ?_, ?_, ?_, ?_, ?_, ?_, by decide, by decide, by decide, by decide⟩
  · unfold RegisterOffset; omega
  · unfold RegisterOffset; omega
  · unfold RegisterOffset; omega
  · unfold RegisterOffset; omega
  · exact .inl (by omega)
  · exact .inl (by omega)
  · exact .inl (by omega)
  · exact .inr ⟨0, 0, by omega, by omega, rfl⟩
  · exact .inr ⟨176, 176, by omega, by omega, rfl⟩

/-- A state whose next turn is the host's, scheduled, at the only line of its script. -/
def atLine (l : HostLine) : State := { State.reset with schedule := [.host], script := [l] }

/-- Each kind of access, inside and outside the window, in a scheduled turn. -/
theorem witness_HostTurnPerformsAccess :
    (∀ l, (atLine l).params.hosts ≤ 1 ∧ (atLine l).schedule = .host :: [] ∧
      (atLine l).script[(atLine l).pos]? = some l) ∧
    (∃ t, step (atLine (.rd 0x1FFFF 1)) = .next t ∧ t.status.buserr = true) ∧
    (∃ t, step (atLine (.rd 0x20000 4)) = .next t ∧ t.status.buserr = false ∧ t.draws = 1) ∧
    (∃ t, step (atLine (.wr 0x014 4 7)) = .next t ∧ t.arg0 = 7) ∧
    (∃ t, step (atLine (.wr 0x20000 4 7)) = .next t ∧ t.status.buserr = false ∧ t.pos = 1) :=
  ⟨fun _ => ⟨Nat.le_refl 1, rfl, rfl⟩, ⟨_, rfl, rfl⟩, ⟨_, rfl, rfl, rfl⟩, ⟨_, rfl, rfl⟩, ⟨_, rfl, rfl, rfl⟩⟩

/-- The host's turn by default, at a branch that is taken. -/
theorem witness_HostTurnPerformsAccess_default :
    let s := { State.reset with script := waitIdle, pos := 2, lastRead := 1 }
    s.schedule = [] ∧ s.status.busy = false ∧ s.script[s.pos]? = some (.bnz .last 1 1) ∧
      hostValue s .last &&& 1 ≠ 0 ∧ HostLine.label 1 ∈ s.script ∧
      step s = .next { s with pos := 0 } :=
  ⟨rfl, rfl, rfl, by decide, by decide, rfl⟩

/-- A branch not taken, a label, and the end of the script. -/
theorem witness_HostTurnPerformsAccess_other :
    hostValue State.reset .last &&& 1 = 0 ∧
    step (atLine (.bnz .last 1 1)) = .next { atLine (.bnz .last 1 1) with schedule := [], pos := 1 } ∧
    step (atLine (.label 1)) = .next { atLine (.label 1) with schedule := [], pos := 1 } ∧
    State.reset.script[State.reset.pos]? = none ∧ step State.reset = .next State.reset :=
  ⟨by decide, rfl, rfl, rfl, rfl⟩

theorem witness_InterruptFollowsDone :
    (pending 0x0B []).status.busy = true ∧ (∃ t, engineStep (pending 0x0B []) = .next t) ∧
      (0x2 : Word).getLsbD 1 = true ∧ BufferOffset 0x1000 ∧
      (busWrite (pending 0x0B []) 0x018 4 1).status.ovr = true ∧
      (busWrite (pending 0x0B []) 0x1000 1 1).status.ovr = true := by
  refine ⟨rfl, ⟨_, rfl⟩, by decide, ?_, by decide +kernel, by decide +kernel⟩
  unfold BufferOffset
  omega

theorem witness_ResetRestoresRegisters :
    (pending 0x4 [.reset]).params.hosts ≤ 1 ∧ (pending 0x4 [.reset]).schedule = [.reset] ∧
      State.reset.status.busy = false := by decide

theorem witness_AbortedOutputsAreDraws :
    (∀ w, (pending w []).status.busy = true ∧ (pending w []).cmd = w) ∧
      (0x003 : Word).toNat % 256 = 3 ∧ (0x104 : Word).toNat % 256 = 4 ∧ (0x005 : Word).toNat % 256 = 5 ∧
      (0x706 : Word).toNat % 256 = 6 ∧ (0x008 : Word).toNat % 256 = 8 ∧
      (regs 40 0 0).config.version.toNat = 40 ∧ (regs 63 0 0).config.version.toNat = 63 :=
  ⟨fun _ => ⟨rfl, rfl⟩, by decide⟩

/-- R282: an aborted RS_BLOCK (d = 10) leaves OUT_BUF[0, 10) unspecified, n above 4096 or not. -/
theorem test_reset_abort_rsBlock :
    let s := { pending 0x3 [] with
      arg0 := 5000, arg1 := 10, mem := [(0x2000, 0xAA), (0x200A, 0xBB)] }
    (resetPin s).readByte 0x2000 = some ((Config.freeValue 0).setWidth 8) ∧
      (resetPin s).readByte 0x200A = some 0xBB := ⟨rfl, rfl⟩

/-- R282 with R35: RAW_CW is 0 where VERSION is not valid, so an aborted ECC_ENCODE keeps OUT_BUF. -/
theorem test_reset_abort_invalid_version :
    let s := { pending 0x4 [] with mem := [(0x2000, 0xAA)] }
    (resetPin s).readByte 0x2000 = some 0xAA := rfl

/-- The invariant holds of a state with a listed byte and a pending command, and a step follows. -/
theorem witness_StepKeepsInvariant :
    State.Inv { pending 0x0 [] with mem := [(0x1000, 0xFF), (0x10000, 3)] } ∧
    ∃ t, step { pending 0x0 [] with mem := [(0x1000, 0xFF), (0x10000, 3)] } = .next t :=
  ⟨⟨by unfold Memory.wf; decide, by decide, by decide, by decide, by decide⟩, _, rfl⟩

/-- Two states that agree where the commands read and differ elsewhere. -/
theorem witness_ResultsDependOnlyOnListedInputs :
    let s := withData (regs 1 3 1) [1, 2, 3]
    let s' := { withData (regs 1 0xFF0003 0xF01) [1, 2, 3] with result := 7, ie := true }
    s ≠ s' ∧ s.params = s'.params ∧ s.arg0.toNat % 65536 = s'.arg0.toNat % 65536 ∧
      s.arg0.toNat % 256 = s'.arg0.toNat % 256 ∧ s.arg1.toNat % 256 = s'.arg1.toNat % 256 ∧
      s.config = s'.config ∧ s.mem = s'.mem := by decide +kernel

theorem witness_OnlyHostSideRefusals :
    1 < ({ State.reset with params := { State.reset.params with hosts := 2 } }).params.hosts ∧
    step { State.reset with script := [.bnz (.lit 1) 1 5] } = .refused (.undefinedLabel 5) :=
  ⟨by decide, rfl⟩

theorem witness_LatencyDoesNotChangeResults :
    let s := pending 0x1 [.host, .engine]
    s.params.hosts ≤ 1 ∧ s.status.busy = true ∧
      s.schedule = List.replicate 1 .host ++ [.engine] ∧
      Host.Core.run Sys2Proof.core 1 s = .next { s with schedule := [.engine] } :=
  ⟨by decide, by decide, by decide, rfl⟩

end Sys2Proof.Tests
end

section
/-!
PROOFS. No step changes a parameter, and a step is refused only on the host's side (O58).
-/
namespace Sys2Proof.Machine

/-! The parameters through a bus access. -/

@[simp] theorem State.reply_params (r : Word × State) : (State.reply r).params = r.2.params := rfl

@[simp] theorem busRead_params (s : State) (off n : Nat) :
    (busRead s off n).2.params = s.params := by
  rcases busRead_cases s off n with
    ⟨r, -, -, h⟩ | ⟨r, -, -, h⟩ | ⟨a, -, -, h⟩ | ⟨a, -, -, h⟩ | ⟨-, h⟩ <;> simp [h]

@[simp] theorem busWrite_params (s : State) (off n : Nat) (v : Word) :
    (busWrite s off n v).params = s.params := by
  rcases busWrite_cases s off n v with ⟨r, -, -, h⟩ | ⟨a, -, -, h⟩ | ⟨-, -, h⟩ | ⟨-, h⟩ <;>
    simp [h, writeReg_params]

@[simp] theorem platformRead_params (s : State) (addr n : Nat) :
    (platformRead s addr n).2.params = s.params := by
  unfold platformRead
  cases windowOffset s.params.pBase addr <;> simp

@[simp] theorem platformWrite_params (s : State) (addr n : Nat) (v : Word) :
    (platformWrite s addr n v).params = s.params := by
  unfold platformWrite
  cases windowOffset s.params.pBase addr <;> simp

/-! The parameters through a command. -/

@[simp] theorem effectOf_params (i : Instr) (s : State) : (effectOf i s).params = s.params := by
  obtain ⟨-, -, -, -, -, -, hp, -⟩ := effectOf_keeps i s
  exact hp

/-- However a command ends, it answers a next state; its parameters are the old ones if its effect
keeps them (R257). -/
theorem finish_next_params (c : ErrCode) {f : State → State} {s : State}
    (hf : (f s).params = s.params) : ∃ t, finish c f s = .next t ∧ t.params = s.params := by
  by_cases hc : c = .ok
  · subst hc
    exact ⟨_, finish_ok f s, by simp [hf]⟩
  · exact ⟨_, finish_error hc f s, by simp⟩

theorem exec_next_params (i : Instr) (s : State) :
    ∃ t, exec i s = .next t ∧ t.params = s.params := by
  rw [exec_eq_finish]
  exact finish_next_params _ (effectOf_params i s)

theorem exec_ne_refused (i : Instr) (s : State) (r : Refusal) : exec i s ≠ .refused r := by
  obtain ⟨t, ht, -⟩ := exec_next_params i s
  simp [ht]

/-! Each kind of turn. -/

/-- The engine's turn is never refused, whatever word is pending (R94, R250). -/
theorem engineStep_next_params (s : State) :
    ∃ t, engineStep s = .next t ∧ t.params = s.params := by
  rcases engineStep_cases s with ⟨-, h⟩ | ⟨i, -, -, h⟩ | ⟨c, -, -, h⟩ <;> rw [h]
  · exact ⟨s, rfl, rfl⟩
  · exact exec_next_params i s
  · exact finish_next_params c rfl

/-- The host's turn keeps the parameters, or is refused at a branch to a label that its script does
not hold. -/
theorem hostStep_next_or_undefinedLabel (s : State) :
    (∃ t, hostStep s = .next t ∧ t.params = s.params) ∨
    (∃ v mask l, s.script[s.pos]? = some (.bnz v mask l) ∧ HostLine.label l ∉ s.script ∧
      hostStep s = .refused (.undefinedLabel l)) := by
  rcases hostStep_cases s with
    ⟨p, h⟩ | ⟨addr, n, h⟩ | ⟨addr, n, v, h⟩ | ⟨v, mask, l, hline, hl, h⟩
  · exact .inl ⟨_, h, rfl⟩
  · exact .inl ⟨_, h, by simp⟩
  · exact .inl ⟨_, h, by simp⟩
  · exact .inr ⟨v, mask, l, hline, labelLine_none hl, h⟩

/-- Every step keeps the parameters, or is refused for one of two reasons, both of the host's side:
more than one host (R265), or a branch to a label that the script does not hold. -/
theorem step_next_or_refused (s : State) :
    (∃ t, step s = .next t ∧ t.params = s.params) ∨
    (1 < s.params.hosts ∧ step s = .refused .multipleHosts) ∨
    (∃ v mask l, s.script[s.pos]? = some (.bnz v mask l) ∧ HostLine.label l ∉ s.script ∧
      step s = .refused (.undefinedLabel l)) := by
  rcases step_cases s with hosts | ⟨ts, h | h | h⟩
  · exact .inr (.inl hosts)
  · rw [h]
    exact .inl (engineStep_next_params { s with schedule := ts })
  · rw [h]
    exact (hostStep_next_or_undefinedLabel { s with schedule := ts }).imp_right .inr
  · exact .inl ⟨_, h, rfl⟩

/-- Settles O58: every step keeps the parameters or is refused on the host's side, more than one host
is always refused, and every command answers a next state. -/
theorem onlyHostSideRefusals : Obligations.OnlyHostSideRefusals := by
  refine ⟨fun s t h => ?_, fun s r h => ?_, fun s => step_multipleHosts, exec_ne_refused⟩
  · rcases step_next_or_refused s with ⟨t', h', hp⟩ | ⟨-, h'⟩ | ⟨v, mask, l, -, -, h'⟩
    · cases h'.symm.trans h
      exact hp
    · cases h'.symm.trans h
    · cases h'.symm.trans h
  · rcases step_next_or_refused s with ⟨t', h', -⟩ | ⟨hosts, h'⟩ | ⟨v, mask, l, hline, hl, h'⟩
    · cases h'.symm.trans h
    · cases h'.symm.trans h
      exact .inl ⟨hosts, rfl⟩
    · cases h'.symm.trans h
      exact .inr ⟨v, mask, l, hline, hl, rfl⟩

end Sys2Proof.Machine
end

section
/-!
PROOFS. The invariant `State.Inv`: the state after power-on reset meets it, and every step keeps it
(O56, O57).
-/
namespace Sys2Proof.Machine

/-! What the invariant depends on. -/

/-- The invariant reads memory, the generator file and STATUS, and no other field. -/
theorem State.Inv.congr {s t : State} (h : s.Inv) (hmem : t.mem = s.mem)
    (hdeg : t.genDeg = s.genDeg) (hgen : t.gen = s.gen) (hstatus : t.status = s.status) : t.Inv where
  memory := hmem ▸ h.memory
  degree := hdeg ▸ h.degree
  generator := by rw [hgen, hdeg]; exact h.generator
  flags := hstatus ▸ h.flags
  code := hstatus ▸ h.code

theorem State.Inv.withSchedule {s : State} (h : s.Inv) (ts : List Turn) :
    State.Inv { s with schedule := ts } := h.congr rfl rfl rfl rfl

theorem State.Inv.withMem {s : State} (h : s.Inv) {m : List Host.Cell} (hm : Memory.wf m) :
    State.Inv { s with mem := m } := ⟨hm, h.degree, h.generator, h.flags, h.code⟩

theorem State.Inv.withStatus {s : State} (h : s.Inv) {st : Status}
    (hflags : (st.busy && st.done) = false) (hcode : st.errcode.toNat ≤ 6) :
    State.Inv { s with status := st } := ⟨h.memory, h.degree, h.generator, hflags, hcode⟩

/-! Reset. -/

/-- After any reset the registers meet the invariant, so canonical buffers are all it takes. -/
theorem State.resetRegisters_inv (s : State) {m : List Host.Cell} (hm : Memory.wf m) (d : Nat) :
    (s.resetRegisters m d).Inv := ⟨hm, Nat.zero_le _, rfl, rfl, Nat.zero_le _⟩

theorem resetPin_inv {s : State} (h : s.Inv) : (resetPin s).Inv :=
  s.resetRegisters_inv (resetBuffers_wf h.memory) _

/-- Settles O56: no buffer cell is listed, GEN is all zeros, and the flags and ERRCODE are 0. -/
theorem resetMeetsInvariant : Obligations.ResetMeetsInvariant :=
  State.resetRegisters_inv State.reset Memory.wf_nil 0

/-! The tables bound what ECC_ENCODE writes. -/

theorem eccPerBlock_bounds {v : Nat} (h : validVersion v) (lv : Level) :
    1 ≤ eccPerBlock lv v ∧ eccPerBlock lv v ≤ 30 := by
  have hall : ∀ v < 41, 1 ≤ v → 1 ≤ eccPerBlock lv v ∧ eccPerBlock lv v ≤ 30 := by
    cases lv <;> decide
  exact hall v (by have := h.2; omega) h.1

/-- RAW_CW codewords and one more per block still fit OUT_BUF. -/
theorem codewords_le {v : Nat} (h : validVersion v) (lv : Level) :
    dataCw lv v + numBlocks lv v + eccPerBlock lv v * numBlocks lv v ≤ 4096 := by
  have hall : ∀ v < 41, dataCw lv v + numBlocks lv v + eccPerBlock lv v * numBlocks lv v ≤ 4096 := by
    cases lv <;> decide
  exact hall v (by have := h.2; omega)

theorem columnsOf_length_le (blocks : List (List Byte)) (n : Nat) :
    (columnsOf blocks n).length ≤ n * blocks.length := by
  induction n with
  | zero => simp [columnsOf]
  | succ n ih =>
    have hcolumn : (blocks.filterMap (fun b => b[n]?)).length ≤ blocks.length :=
      List.length_filterMap_le _ _
    have hsucc : columnsOf blocks (n + 1) =
        columnsOf blocks n ++ blocks.filterMap (fun b => b[n]?) := by
      simp [columnsOf, List.range_succ]
    rw [hsucc, List.length_append, Nat.succ_mul]
    omega

theorem cutBlocks_length (ns : List Nat) (data : List Byte) :
    (cutBlocks ns data).length = ns.length := by
  induction ns generalizing data with
  | nil => rfl
  | cons n ns ih => simp [cutBlocks, ih]

theorem splitBlocks_length (data : List Byte) (nb : Nat) : (splitBlocks data nb).length = nb := by
  simp [splitBlocks, cutBlocks_length, blockLens]

/-- At most one codeword more per block than data and EC codewords together. -/
theorem interleave_length_le (data : List Byte) (nb e : Nat) :
    (interleave data nb e).length ≤ data.length + nb + e * nb := by
  have hdata := columnsOf_length_le (splitBlocks data nb) (longestLen data.length nb)
  have hec := columnsOf_length_le ((splitBlocks data nb).map (fun b => rsRem b e)) e
  rw [List.length_map, splitBlocks_length] at hec
  rw [splitBlocks_length] at hdata
  have hlongest : longestLen data.length nb * nb ≤ data.length + nb := by
    have hle : longestLen data.length nb ≤ data.length / nb + 1 := by
      unfold longestLen
      split <;> omega
    calc longestLen data.length nb * nb
        ≤ (data.length / nb + 1) * nb := Nat.mul_le_mul_right _ hle
      _ = data.length / nb * nb + nb := Nat.succ_mul _ _
      _ ≤ data.length + nb := Nat.add_le_add_right (Nat.div_mul_le_self _ _) _
  unfold interleave
  rw [List.length_append]
  omega

/-- ECC_ENCODE's codewords fit OUT_BUF (R160). -/
theorem interleave_length_le_outBuf {s : State} (h : validVersion s.version) :
    (interleave (s.dataBytes (dataCw s.level s.version)) (numBlocks s.level s.version)
      (eccPerBlock s.level s.version)).length ≤ 4096 := by
  refine (interleave_length_le _ _ _).trans ?_
  rw [State.dataBytes, Memory.readBytes_length]
  exact codewords_le h s.level

/-! What a command's checks guarantee once they have passed (R252). -/

theorem firstFailing_eq_ok {c d : ErrCode} : firstFailing c d = .ok ↔ c = .ok ∧ d = .ok := by
  unfold firstFailing
  split <;> simp_all

theorem checkVersion_eq_ok {s : State} : checkVersion s = .ok ↔ validVersion s.version := by
  unfold checkVersion
  rw [ite_eq_left_iff]
  simp

theorem checkDegree_eq_ok {s : State} :
    checkDegree s = .ok ↔ 1 ≤ s.opDegree ∧ s.opDegree ≤ 30 := by
  unfold checkDegree
  rw [ite_eq_left_iff]
  simp

/-- The square of a valid VERSION lies in the mapped grid. -/
theorem State.size_le_of_checkVersion {s : State} (h : checkVersion s = .ok) : s.size ≤ 177 :=
  symbolSize_le (checkVersion_eq_ok.1 h)

/-! The operations of a command. -/

theorem State.Inv.complete {s : State} (h : s.Inv) (c : ErrCode) : (s.complete c).Inv :=
  h.withStatus rfl (errByte_le c)

theorem State.Inv.setResult {s : State} (h : s.Inv) (v : Nat) : (s.setResult v).Inv :=
  h.congr rfl rfl rfl rfl

/-- GEN becomes the generator of the degree that GEN_DEG holds, if that degree fits it (R128). -/
theorem State.Inv.setGenerator {s : State} (h : s.Inv) {d : Nat} (hd : 1 ≤ d ∧ d ≤ 30) :
    (s.setGenerator d).Inv := by
  have hnat : (BitVec.ofNat 5 d).toNat = d := by
    rw [BitVec.toNat_ofNat]
    omega
  have hne : BitVec.ofNat 5 d ≠ 0 := by
    intro h0
    rw [h0] at hnat
    simp at hnat
    omega
  refine ⟨h.memory, ?_, ?_, h.flags, h.code⟩
  · rw [State.setGenerator_genDeg, hnat]
    exact hd.2
  · rw [State.setGenerator_gen, State.setGenerator_genDeg, if_neg hne, hnat]

theorem State.Inv.writeOut {s : State} (h : s.Inv) {bs : List Byte} (hl : bs.length ≤ 4096) :
    (s.writeOut bs).Inv := h.withMem (Memory.wf_setOut h.memory hl)

theorem State.Inv.applyMask {s : State} (h : s.Inv) (m : Nat) (hs : s.size ≤ 177) :
    (s.applyMask m).Inv := h.withMem (State.applyMask_wf h.memory m hs)

theorem State.Inv.fillGrid {s : State} (h : s.Inv) {f : Nat → Nat → Byte}
    (hf : ∀ x y, f x y &&& 3 = f x y) : State.Inv { s with mem := Memory.fillGrid s.mem f } :=
  h.withMem (Memory.wf_fillGrid h.memory hf)

/-! The engine's turn. -/

/-- The effect of a command whose checks have passed keeps the invariant. -/
theorem State.Inv.effectOf {s : State} (h : s.Inv) {i : Instr} (hc : checkOf i s = .ok) :
    (effectOf i s).Inv := by
  cases i with
  | nop => exact h
  | gfMul => exact h.setResult _
  | genPoly => exact h.setGenerator (checkDegree_eq_ok.1 hc)
  | rsBlock =>
    have hd := checkDegree_eq_ok.1 (firstFailing_eq_ok.1 hc).1
    refine (h.setGenerator hd).writeOut ?_
    rw [rsRem_length _ hd.1]
    omega
  | eccEncode =>
    have hv := checkVersion_eq_ok.1 hc
    exact (h.setGenerator (eccPerBlock_bounds hv s.level)).writeOut (interleave_length_le_outBuf hv)
  | gridClear => exact h.fillGrid (fun _ _ => rfl)
  | applyMask m => exact h.applyMask _ (State.size_le_of_checkVersion (firstFailing_eq_ok.1 hc).2)
  | score => exact h.setResult _
  | selectMask =>
    refine State.Inv.applyMask ?_ _ (State.size_le_of_checkVersion (s := s) hc)
    exact h.congr rfl rfl rfl rfl
  | formatWord m => exact h.setResult _
  | versionWord => exact h.setResult _

/-- However a command ends, it leaves the invariant if its effect does. -/
theorem State.Inv.finish {s t : State} {c : ErrCode} {f : State → State} (h : s.Inv)
    (hf : c = .ok → (f s).Inv) (ht : finish c f s = .next t) : t.Inv := by
  by_cases hc : c = .ok
  · subst hc
    cases (finish_ok f s).symm.trans ht
    exact (hf rfl).complete _
  · cases (finish_error hc f s).symm.trans ht
    exact h.complete _

theorem engineStep_inv {s t : State} (h : s.Inv) (ht : engineStep s = .next t) : t.Inv := by
  rcases engineStep_cases s with ⟨-, hs⟩ | ⟨i, -, -, hs⟩ | ⟨c, -, -, hs⟩ <;> rw [hs] at ht
  · cases ht
    exact h
  · exact h.finish h.effectOf ((exec_eq_finish i s).symm.trans ht)
  · exact h.finish (fun _ => h) ht

/-! The host's turn. -/

theorem State.Inv.accessError {s : State} (h : s.Inv) : s.accessError.Inv :=
  h.withStatus h.flags h.code

theorem State.Inv.rejectWrite {s : State} (h : s.Inv) : s.rejectWrite.Inv :=
  h.withStatus h.flags h.code

theorem State.Inv.drawn {s : State} (h : s.Inv) : s.drawn.Inv := h.congr rfl rfl rfl rfl

/-- Acceptance sets BUSY and clears DONE at once (R110). -/
theorem State.Inv.accept {s : State} (h : s.Inv) (w : Word) : (s.accept w).Inv :=
  State.Inv.congr (h.withStatus (st := acceptFlags s.status) rfl h.code) rfl rfl rfl rfl

/-- Write-1-to-clear only lowers flags (R26). -/
theorem State.Inv.clearOnWrite {s : State} (h : s.Inv) (v : Word) :
    State.Inv { s with status := clearOnWrite s.status v } := by
  refine h.withStatus ?_ h.code
  show (s.status.busy && (s.status.done && !v.getLsbD 1)) = false
  rw [← Bool.and_assoc, h.flags, Bool.false_and]

theorem State.Inv.writeReg {s : State} (h : s.Inv) (r : Reg) (v : Word) : (writeReg s r v).Inv := by
  cases r with
  | status => exact h.clearOnWrite v
  | cmd => exact h.accept v
  | _ => exact h.congr rfl rfl rfl rfl

theorem State.Inv.busRead {s : State} (h : s.Inv) (off n : Nat) : (busRead s off n).2.Inv := by
  rcases busRead_cases s off n with
    ⟨r, -, -, hr⟩ | ⟨r, -, -, hr⟩ | ⟨a, -, -, hr⟩ | ⟨a, -, -, hr⟩ | ⟨-, hr⟩ <;> rw [hr]
  · exact h
  · exact h.drawn
  · exact h
  · exact h.drawn
  · exact h.accessError

theorem State.Inv.busWrite {s : State} (h : s.Inv) (off n : Nat) (v : Word) :
    (busWrite s off n v).Inv := by
  rcases busWrite_cases s off n v with ⟨r, -, -, hw⟩ | ⟨a, ht, -, hw⟩ | ⟨-, -, hw⟩ | ⟨-, hw⟩ <;>
    rw [hw]
  · exact h.writeReg r v
  · exact h.withMem (Memory.wf_setByte h.memory (isBuffer_of_targetOf ht).2)
  · exact h.rejectWrite
  · exact h.accessError

theorem State.Inv.platformRead {s : State} (h : s.Inv) (addr n : Nat) :
    (platformRead s addr n).2.Inv := by
  unfold Machine.platformRead
  cases windowOffset s.params.pBase addr with
  | none => exact h.drawn
  | some off => exact h.busRead off n

theorem State.Inv.platformWrite {s : State} (h : s.Inv) (addr n : Nat) (v : Word) :
    (platformWrite s addr n v).Inv := by
  unfold Machine.platformWrite
  cases windowOffset s.params.pBase addr with
  | none => exact h
  | some off => exact h.busWrite off n v

theorem hostStep_inv {s t : State} (h : s.Inv) (ht : hostStep s = .next t) : t.Inv := by
  rcases hostStep_cases s with
    ⟨p, hs⟩ | ⟨addr, n, hs⟩ | ⟨addr, n, v, hs⟩ | ⟨v, mask, l, -, -, hs⟩ <;> cases hs.symm.trans ht
  · exact h.congr rfl rfl rfl rfl
  · exact (h.platformRead addr n).congr rfl rfl rfl rfl
  · exact (h.platformWrite addr n v).congr rfl rfl rfl rfl

/-- Settles O57: a step is a turn of the engine, of the host, or a reset, and each keeps the
invariant. -/
theorem stepKeepsInvariant : Obligations.StepKeepsInvariant := by
  intro s t h ht
  rcases step_cases s with ⟨-, hs⟩ | ⟨ts, hs | hs | hs⟩
  · cases hs.symm.trans ht
  · exact engineStep_inv (h.withSchedule ts) (hs.symm.trans ht)
  · exact hostStep_inv (h.withSchedule ts) (hs.symm.trans ht)
  · cases hs.symm.trans ht
    exact resetPin_inv (h.withSchedule ts)

end Sys2Proof.Machine
end

section
/-!
PROOFS. Which command may write which result register and which buffer (O10, O11).
-/
namespace Sys2Proof.Machine

/-! What a command keeps. -/

/-- What neither completion nor a command's effect changes, the command keeps. -/
theorem exec_keeps {α : Type} (f : State → α) {i : Instr} {s t : State}
    (hcomplete : ∀ (u : State) (c : ErrCode), f (u.complete c) = f u)
    (heffect : checkOf i s = .ok → f (effectOf i s) = f s) (h : exec i s = .next t) :
    f t = f s := by
  by_cases hc : checkOf i s = .ok
  · cases (exec_ok hc).symm.trans h
    exact (hcomplete _ _).trans (heffect hc)
  · cases (exec_error hc).symm.trans h
    exact hcomplete _ _

/-! The result registers. -/

theorem effectOf_bestMask {i : Instr} (hi : i ≠ .selectMask) (s : State) :
    (effectOf i s).bestMask = s.bestMask := by
  cases i with
  | selectMask => exact absurd rfl hi
  | _ => rfl

theorem effectOf_score {i : Instr} (hi : i ≠ .selectMask) (s : State) :
    (effectOf i s).score = s.score := by
  cases i with
  | selectMask => exact absurd rfl hi
  | _ => rfl

/-- The commands that build a generator polynomial (R34, R36, R76). -/
def BuildsGenerator (i : Instr) : Prop := i = .genPoly ∨ i = .rsBlock ∨ i = .eccEncode

theorem effectOf_generator {i : Instr} (hi : ¬ BuildsGenerator i) (s : State) :
    (effectOf i s).genDeg = s.genDeg ∧ (effectOf i s).gen = s.gen := by
  cases i with
  | genPoly => exact absurd (.inl rfl) hi
  | rsBlock => exact absurd (.inr (.inl rfl)) hi
  | eccEncode => exact absurd (.inr (.inr rfl)) hi
  | _ => exact ⟨rfl, rfl⟩

/-- The commands that answer a number in RESULT (R32, R76). -/
def WritesResult (i : Instr) : Prop :=
  i = .gfMul ∨ i = .score ∨ i = .selectMask ∨ i = .versionWord ∨ ∃ m, i = .formatWord m

theorem effectOf_result {i : Instr} (hi : ¬ WritesResult i) (s : State) :
    (effectOf i s).result = s.result := by
  cases i with
  | gfMul => exact absurd (.inl rfl) hi
  | score => exact absurd (.inr (.inl rfl)) hi
  | selectMask => exact absurd (.inr (.inr (.inl rfl))) hi
  | versionWord => exact absurd (.inr (.inr (.inr (.inl rfl)))) hi
  | formatWord m => exact absurd (.inr (.inr (.inr (.inr ⟨m, rfl⟩)))) hi
  | _ => rfl

/-- Settles O10: a command that is not among a register's writers keeps it. -/
theorem resultRegistersHaveTheirWriters : Obligations.ResultRegistersHaveTheirWriters := by
  intro i s t h
  refine ⟨?_, ?_, ?_, ?_⟩
  · exact not_imp_comm.1 fun hi =>
      exec_keeps State.bestMask (fun _ _ => rfl) (fun _ => effectOf_bestMask hi s) h
  · exact not_imp_comm.1 fun hi =>
      exec_keeps State.score (fun _ _ => rfl) (fun _ => effectOf_score hi s) h
  · intro hchanged
    by_contra hi
    have hdeg := exec_keeps State.genDeg (fun _ _ => rfl) (fun _ => (effectOf_generator hi s).1) h
    have hgen := exec_keeps State.gen (fun _ _ => rfl) (fun _ => (effectOf_generator hi s).2) h
    exact hchanged.elim (fun hne => hne hdeg) (fun hne => hne hgen)
  · exact not_imp_comm.1 fun hi =>
      exec_keeps State.result (fun _ _ => rfl) (fun _ => effectOf_result hi s) h

/-! The buffers. -/

/-- The commands that write OUT_BUF (R39, R76). -/
def WritesOutBuf (i : Instr) : Prop := i = .rsBlock ∨ i = .eccEncode

/-- The commands that write GRID (R41, R76). -/
def WritesGrid (i : Instr) : Prop := i = .gridClear ∨ i = .selectMask ∨ ∃ m, i = .applyMask m

/-- Bytes that fit OUT_BUF land in it. -/
theorem isOutBuf_of_inOut {n a : Nat} (hn : n ≤ 4096) (h : InOut n a) : isOutBuf a = true := by
  obtain ⟨i, hi, rfl⟩ := h
  simp only [isOutBuf, Bool.and_eq_true, decide_eq_true_eq]
  unfold outAddr
  omega

theorem State.readByte_writeOut_notOutBuf (s : State) {bs : List Byte} (hl : bs.length ≤ 4096)
    {a : Nat} (ha : isOutBuf a = false) : (s.writeOut bs).readByte a = s.readByte a :=
  s.readByte_writeOut_outside bs (fun hin => by simp [isOutBuf_of_inOut hl hin] at ha)

theorem State.readByte_applyMask_notGridCell (s : State) (m : Nat) (hs : s.size ≤ 177) {a : Nat}
    (ha : isGridCell a = false) : (s.applyMask m).readByte a = s.readByte a := by
  refine s.readByte_applyMask_outside m hs (fun ⟨x, y, hx, hy, hxy⟩ => ?_)
  have hcell : isGridCell a = true := (isGridCell_iff a).2 ⟨x, y, by omega, by omega, hxy⟩
  simp [hcell] at ha

/-- The effect of a command whose checks have passed changes a byte of OUT_BUF only if the command
writes OUT_BUF, a GRID cell only if it writes GRID, and no other byte. -/
theorem effectOf_readByte {i : Instr} {s : State} (hc : checkOf i s = .ok) {a : Nat}
    (hout : WritesOutBuf i → isOutBuf a = false) (hgrid : WritesGrid i → isGridCell a = false) :
    (effectOf i s).readByte a = s.readByte a := by
  cases i with
  | rsBlock =>
    have hd := checkDegree_eq_ok.1 (firstFailing_eq_ok.1 hc).1
    refine State.readByte_writeOut_notOutBuf _ ?_ (hout (.inl rfl))
    rw [rsRem_length _ hd.1]
    omega
  | eccEncode =>
    exact State.readByte_writeOut_notOutBuf _
      (interleave_length_le_outBuf (checkVersion_eq_ok.1 hc)) (hout (.inr rfl))
  | gridClear => exact s.readByte_fillGrid_outside _ (hgrid (.inl rfl))
  | applyMask m =>
    exact s.readByte_applyMask_notGridCell _
      (State.size_le_of_checkVersion (firstFailing_eq_ok.1 hc).2) (hgrid (.inr (.inr ⟨m, rfl⟩)))
  | selectMask =>
    exact State.readByte_applyMask_notGridCell _ _ (State.size_le_of_checkVersion (s := s) hc)
      (hgrid (.inr (.inl rfl)))
  | _ => rfl

theorem exec_readByte {i : Instr} {s t : State} (h : exec i s = .next t) {a : Nat}
    (hout : WritesOutBuf i → isOutBuf a = false) (hgrid : WritesGrid i → isGridCell a = false) :
    t.readByte a = s.readByte a :=
  exec_keeps (State.readByte · a) (fun _ _ => rfl) (fun hc => effectOf_readByte hc hout hgrid) h

/-- A mapped cell whose byte reads as before is the same cell. -/
theorem Memory.cellAt_of_readByte {s t : State} {x y : Nat} (hx : x < 177) (hy : y < 177)
    (h : t.readByte (gridAddr x y) = s.readByte (gridAddr x y)) :
    Memory.cellAt t.mem x y = Memory.cellAt s.mem x y := by
  rw [t.readByte_cell hx hy, s.readByte_cell hx hy, Option.some.injEq] at h
  exact congrArg cellOfByte h

theorem isDataBuf_disjoint {a : Nat} (h : isDataBuf a = true) :
    isOutBuf a = false ∧ isGridCell a = false := by
  simp only [isDataBuf, Bool.and_eq_true, decide_eq_true_eq] at h
  refine ⟨?_, not_gridCell_of_lt (by omega)⟩
  simp only [isOutBuf, Bool.and_eq_false_iff, decide_eq_false_iff_not]
  omega

theorem isOutBuf_not_gridCell {a : Nat} (h : isOutBuf a = true) : isGridCell a = false := by
  simp only [isOutBuf, Bool.and_eq_true, decide_eq_true_eq] at h
  exact not_gridCell_of_lt (by omega)

theorem isOutBuf_gridAddr (x y : Nat) : isOutBuf (gridAddr x y) = false := by
  simp only [isOutBuf, Bool.and_eq_false_iff, decide_eq_false_iff_not]
  unfold gridAddr
  omega

/-- A command that does not write GRID keeps every mapped cell. -/
theorem exec_cellAt {i : Instr} {s t : State} (h : exec i s = .next t) (hi : ¬ WritesGrid i)
    {x y : Nat} (hx : x < 177) (hy : y < 177) :
    Memory.cellAt t.mem x y = Memory.cellAt s.mem x y :=
  Memory.cellAt_of_readByte hx hy
    (exec_readByte h (fun _ => isOutBuf_gridAddr x y) (fun hw => absurd hw hi))

/-- A mask inverts DARK bits of the square and no FUNC bit anywhere (R182). -/
theorem State.cellAt_applyMask_func (s : State) (m : Nat) (hs : s.size ≤ 177) {x y : Nat}
    (hx : x < 177) (hy : y < 177) :
    (Memory.cellAt (s.applyMask m).mem x y).func = (Memory.cellAt s.mem x y).func := by
  by_cases hin : x < s.size ∧ y < s.size
  · rw [s.cellAt_applyMask m hs hin.1 hin.2]
  · refine congrArg GridCell.func (Memory.cellAt_of_readByte hx hy ?_)
    refine s.readByte_applyMask_outside m hs (fun ⟨x', y', hx', hy', haddr⟩ => hin ?_)
    obtain ⟨rfl, rfl⟩ := gridAddr_inj (by omega) (by omega) haddr
    exact ⟨hx', hy'⟩

/-- Only GRID_CLEAR writes a FUNC bit: the other two writers of GRID apply a mask. -/
theorem exec_cellAt_func {i : Instr} {s t : State} (h : exec i s = .next t) (hi : i ≠ .gridClear)
    {x y : Nat} (hx : x < 177) (hy : y < 177) :
    (Memory.cellAt t.mem x y).func = (Memory.cellAt s.mem x y).func := by
  by_cases hw : WritesGrid i
  · refine exec_keeps (fun u => (Memory.cellAt u.mem x y).func) (fun _ _ => rfl) (fun hc => ?_) h
    obtain rfl | rfl | ⟨m, rfl⟩ := hw
    · exact absurd rfl hi
    · exact State.cellAt_applyMask_func _ _ (State.size_le_of_checkVersion (s := s) hc) hx hy
    · exact s.cellAt_applyMask_func _
        (State.size_le_of_checkVersion (firstFailing_eq_ok.1 hc).2) hx hy
  · exact congrArg GridCell.func (exec_cellAt h hw hx hy)

/-- Settles O11: DATA_BUF is disjoint from what any command writes, and a command that is not among
a location's writers keeps it. -/
theorem buffersHaveTheirWriters : Obligations.BuffersHaveTheirWriters := by
  intro i s t h
  refine ⟨fun a ha => ?_, fun a ha => ?_, fun x y hx hy => ?_, fun x y hx hy => ?_⟩
  · exact exec_readByte h (fun _ => (isDataBuf_disjoint ha).1) (fun _ => (isDataBuf_disjoint ha).2)
  · exact not_imp_comm.1 fun hi =>
      exec_readByte h (fun hw => absurd hw hi) (fun _ => isOutBuf_not_gridCell ha)
  · exact not_imp_comm.1 fun hi => exec_cellAt_func h hi hx hy
  · exact not_imp_comm.1 fun hi => congrArg GridCell.dark (exec_cellAt h hi hx hy)

end Sys2Proof.Machine
end

section
/-!
PROOFS. What a legal read returns, what a write to a register stores, and what reads as what at
power-on reset (O46, O48, O49, O53).
-/
namespace Sys2Proof.Machine

/-! An access to a register or a byte, by BUSY. -/

theorem busRead_reg {s : State} {off : Nat} {r : Reg} (hr : regAt off = some r)
    (h : s.status.busy = false ∨ volatileReg r = false) :
    busRead s off 4 = (regValue s r, s) := by
  have hquiet : (s.status.busy && volatileReg r) = false := Bool.and_eq_false_iff.2 h
  simp [busRead, targetOf_reg hr, hquiet]

theorem busRead_volatileReg {s : State} {off : Nat} {r : Reg} (hr : regAt off = some r)
    (hb : s.status.busy = true) (hv : volatileReg r = true) :
    busRead s off 4 = (s.draw, s.drawn) := by
  simp [busRead, targetOf_reg hr, hb, hv]

theorem busRead_byte {s : State} {a : Nat} (ha : isBuffer a = true)
    (h : s.status.busy = false ∨ isDataBuf a = true) :
    busRead s a 1 = ((Memory.byteAt s.mem a).setWidth 32, s) := by
  have hquiet : (s.status.busy && !isDataBuf a) = false := by
    rwa [Bool.and_eq_false_iff, Bool.not_eq_false']
  simp [busRead, targetOf_byte ha, hquiet]

theorem busRead_volatileByte {s : State} {a : Nat} (ha : isBuffer a = true)
    (hb : s.status.busy = true) (hd : isDataBuf a = false) :
    busRead s a 1 = (s.drawOfWidth 1, s.drawn) := by
  simp [busRead, targetOf_byte ha, hb, hd]

/-- A read that no command disturbs returns the byte with zeros above it (R62). -/
theorem busRead_readByte {s : State} {a : Nat} (ha : isBuffer a = true)
    (h : s.status.busy = false ∨ isDataBuf a = true) :
    ∃ b, s.readByte a = some b ∧ busRead s a 1 = (b.setWidth 32, s) :=
  ⟨_, s.readByte_of_isBuffer ha, busRead_byte ha h⟩

theorem busWrite_reg {s : State} {off : Nat} {r : Reg} (hr : regAt off = some r) (v : Word)
    (h : s.status.busy = false ∨ gatedReg r = false) :
    busWrite s off 4 v = writeReg s r v := by
  have hopen : (s.status.busy && gatedReg r) = false := Bool.and_eq_false_iff.2 h
  simp [busWrite, targetOf_reg hr, hopen]

/-! Values. -/

theorem ctrlWord_toNat (ie : Bool) : (ctrlWord ie).toNat = if ie then 1 else 0 := by
  cases ie <;> rfl

theorem configWord_toNat (c : ConfigReg) :
    (configWord c).toNat = c.ecl.toNat * 256 + c.version.toNat := by
  have hversion := c.version.isLt
  simp only [configWord, BitVec.toNat_append, BitVec.toNat_ofNat, Nat.zero_mod, Nat.zero_shiftLeft,
    Nat.zero_or, Nat.or_zero]
  rw [← Nat.shiftLeft_add_eq_or_of_lt hversion, Nat.shiftLeft_eq, Nat.shiftLeft_eq]
  omega

/-- STATUS alone shows the flags. -/
theorem regValue_withStatus {r : Reg} (hr : r ≠ .status) (s : State) (st : Status) :
    regValue { s with status := st } r = regValue s r := by
  cases r with
  | status => exact absurd rfl hr
  | _ => rfl

/-- The registers below GEN that hold their value while a command runs, STATUS apart (R68). -/
theorem regAt_settled :
    ∀ off ∈ [0x000, 0x004, 0x00C, 0x010, 0x014, 0x018, 0x028, 0x02C, 0x030, 0x034],
      ∃ r ∈ controlRegs, regAt off = some r ∧ volatileReg r = false ∧ r ≠ .status := by
  decide

/-- RESULT, BEST_MASK and GEN_DEG are volatile (R68). -/
theorem regAt_result_volatile :
    ∀ off ∈ [0x01C, 0x020, 0x024],
      ∃ r ∈ controlRegs, regAt off = some r ∧ volatileReg r = true := by
  decide

/-- From 0x100 up every register is an entry of GEN or SCORE, and so volatile (R68). -/
theorem volatileReg_of_regAt {off : Nat} {r : Reg} (hr : regAt off = some r) (hoff : 0x100 ≤ off) :
    volatileReg r = true := by
  have heq := regOffset_of_regAt hr
  cases r with
  | gen i => rfl
  | score m => rfl
  | _ => simp [regOffset] at heq; omega

theorem RegisterOffset.exists_regAt {off : Nat} (h : RegisterOffset off) :
    ∃ r, regAt off = some r :=
  Option.ne_none_iff_exists'.1 ((registerOffset_iff off).1 h)

theorem isDataBuf_of_lt {i : Nat} (h : i < 4096) : isDataBuf (0x1000 + i) = true := by
  simp only [isDataBuf, Bool.and_eq_true, decide_eq_true_eq]
  omega

theorem isBuffer_of_isDataBuf {a : Nat} (h : isDataBuf a = true) : isBuffer a = true := by
  simp [isBuffer, h]

/-! Reads. -/

/-- While BUSY = 1 a settled register reads as if no command were pending (R68). -/
theorem busRead_settled_busy (s : State) {off : Nat}
    (hoff : off ∈ [0x000, 0x004, 0x00C, 0x010, 0x014, 0x018, 0x028, 0x02C, 0x030, 0x034]) :
    busRead s off 4 =
      ((busRead { s with status := { s.status with busy := false } } off 4).1, s) := by
  obtain ⟨r, -, hr, hv, hne⟩ := regAt_settled off hoff
  rw [busRead_reg hr (.inr hv), busRead_reg hr (.inr hv)]
  exact congrArg (·, s) (regValue_withStatus hne s _).symm

/-- While BUSY = 1 STATUS reads as if no command were pending, its BUSY bit apart (R68). -/
theorem busRead_status_busy {s : State} (hb : s.status.busy = true) :
    busRead s 0x008 4 =
      ((busRead { s with status := { s.status with busy := false } } 0x008 4).1 ||| 1, s) := by
  have hr : regAt 0x008 = some .status := rfl
  have hself : ({ s.status with busy := true } : Status) = s.status := by rw [← hb]
  rw [busRead_reg hr (.inr rfl), busRead_reg hr (.inr rfl)]
  exact congrArg (·, s) ((congrArg statusWord hself).symm.trans (statusWord_busy s.status))

/-- STATUS's word, whatever BUSY is, and each of its fields (R25). -/
theorem busRead_status (s : State) :
    ∃ w, busRead s 0x008 4 = (w, s) ∧ w.getLsbD 0 = s.status.busy ∧ w.getLsbD 1 = s.status.done ∧
      w.getLsbD 2 = s.status.ovr ∧ w.getLsbD 3 = s.status.buserr ∧ w.extractLsb' 4 4 = 0 ∧
      w.extractLsb' 8 8 = s.status.errcode ∧ w.extractLsb' 16 16 = 0 := by
  obtain ⟨hbusy, hdone, hovr, hbuserr⟩ := statusWord_getLsbD s.status
  obtain ⟨hlow, hhigh⟩ := statusWord_reserved s.status
  exact ⟨statusWord s.status, busRead_reg (r := .status) rfl (.inr rfl), hbusy, hdone, hovr, hbuserr,
    hlow, statusWord_errcode s.status, hhigh⟩

/-- With BUSY = 0 the result registers and every byte read what they hold. -/
theorem busRead_idle {s : State} (hb : s.status.busy = false) :
    busRead s 0x01C 4 = (s.result, s) ∧ busRead s 0x020 4 = (s.bestMask.setWidth 32, s) ∧
      busRead s 0x024 4 = (s.genDeg.setWidth 32, s) ∧
      (∀ i (h : i < 31), busRead s (0x100 + 4 * i) 4 = ((s.gen[i]).setWidth 32, s)) ∧
      (∀ m (h : m < 8), busRead s (0x200 + 4 * m) 4 = (s.score[m], s)) ∧
      (∀ off, BufferOffset off → ∃ b, s.readByte off = some b ∧
        busRead s off 1 = (b.setWidth 32, s)) := by
  refine ⟨busRead_reg (r := .result) rfl (.inl hb), busRead_reg (r := .bestMask) rfl (.inl hb),
    busRead_reg (r := .genDeg) rfl (.inl hb), fun i hi => ?_, fun m hm => ?_, fun off hoff => ?_⟩
  · rw [busRead_reg (regAt_gen hi) (.inl hb), regValue_gen s hi]
  · rw [busRead_reg (regAt_score hm) (.inl hb), regValue_score s hm]
  · exact busRead_readByte ((bufferOffset_iff off).1 hoff) (.inl hb)

/-- While BUSY = 1 every location that a command may be writing reads as a fresh draw of the read's
width (R68). -/
theorem busRead_volatile {s : State} (hb : s.status.busy = true) :
    (∀ off, (off ∈ [0x01C, 0x020, 0x024] ∨ RegisterOffset off ∧ 0x100 ≤ off) →
      busRead s off 4 = (s.draw, s.drawn)) ∧
    (∀ off, BufferOffset off → 0x2000 ≤ off → busRead s off 1 = (s.drawOfWidth 1, s.drawn)) := by
  constructor
  · rintro off (hlow | ⟨hreg, hhigh⟩)
    · obtain ⟨r, -, hr, hv⟩ := regAt_result_volatile off hlow
      exact busRead_volatileReg hr hb hv
    · obtain ⟨r, hr⟩ := hreg.exists_regAt
      exact busRead_volatileReg hr hb (volatileReg_of_regAt hr hhigh)
  · intro off hoff hhigh
    have hd : isDataBuf off = false := by
      simp only [isDataBuf, Bool.and_eq_false_iff, decide_eq_false_iff_not]
      omega
    exact busRead_volatileByte ((bufferOffset_iff off).1 hoff) hb hd

/-- Settles O46: a register or DATA_BUF that no command writes reads the same whatever BUSY is, and
any other location what it holds while BUSY = 0, else a draw. -/
theorem legalReadsReturnTheirValues : Obligations.LegalReadsReturnTheirValues := by
  intro s
  have hdata : ∀ {i}, i < 4096 → isBuffer (0x1000 + i) = true :=
    fun hi => isBuffer_of_isDataBuf (isDataBuf_of_lt hi)
  refine ⟨busRead_status s, busRead_reg (r := .id) rfl (.inr rfl),
    ⟨_, busRead_reg (r := .ctrl) rfl (.inr rfl), ctrlWord_toNat s.ie⟩,
    busRead_reg (r := .cmd) rfl (.inr rfl),
    ⟨_, busRead_reg (r := .config) rfl (.inr rfl), configWord_toNat s.config⟩,
    busRead_reg (r := .arg0) rfl (.inr rfl), busRead_reg (r := .arg1) rfl (.inr rfl),
    fun i hi => busRead_readByte (hdata hi) (.inr (isDataBuf_of_lt hi)), busRead_idle, fun hb => ?_⟩
  refine ⟨fun off => busRead_settled_busy s, busRead_status_busy hb, fun i hi => ?_,
    busRead_volatile hb⟩
  rw [busRead_byte (hdata hi) (.inr (isDataBuf_of_lt hi)),
    busRead_byte (hdata hi) (.inr (isDataBuf_of_lt hi))]

/-! Writes. -/

/-- A register outside CTRL, STATUS, CMD, CONFIG, ARG0 and ARG1 ignores writes and is never gated
(R26, R67). -/
theorem writeReg_readOnly {r : Reg}
    (h : regOffset r ∉ [0x004, 0x008, 0x00C, 0x010, 0x014, 0x018]) :
    gatedReg r = false ∧ ∀ s v, writeReg s r v = s := by
  cases r with
  | ctrl | status | cmd | config | arg0 | arg1 => simp [regOffset] at h
  | _ => exact ⟨rfl, fun _ _ => rfl⟩

theorem busWrite_readOnly (s : State) (v : Word) {off : Nat} (hoff : RegisterOffset off)
    (h : off ∉ [0x004, 0x008, 0x00C, 0x010, 0x014, 0x018]) : busWrite s off 4 v = s := by
  obtain ⟨r, hr⟩ := hoff.exists_regAt
  rw [regOffset_of_regAt hr] at h
  obtain ⟨hgate, hkeep⟩ := writeReg_readOnly h
  rw [busWrite_reg hr v (.inr hgate), hkeep]

/-- A flag after write-1-to-clear: lowered by a 1, else kept (R26). -/
theorem and_not_eq_ite (flag bit : Bool) : (flag && !bit) = if bit then false else flag := by
  cases bit <;> simp

/-- Settles O48: STATUS is not gated by BUSY, and a read-only register is neither gated nor written. -/
theorem statusWriteOneToClear : Obligations.StatusWriteOneToClear := by
  intro s v
  refine ⟨⟨_, busWrite_reg (r := .status) rfl v (.inr rfl), rfl, rfl, rfl, ?_, ?_, ?_⟩,
    fun off => busWrite_readOnly s v⟩
  · exact and_not_eq_ite s.status.done (v.getLsbD 1)
  · exact and_not_eq_ite s.status.ovr (v.getLsbD 2)
  · exact and_not_eq_ite s.status.buserr (v.getLsbD 3)

/-- With BUSY = 0 what a register write stores is what the register then reads as. -/
theorem busRead_busWrite_reg {s : State} {off : Nat} {r : Reg} (hr : regAt off = some r) (v : Word)
    (hb : s.status.busy = false) (hstatus : (writeReg s r v).status = s.status) :
    busRead (busWrite s off 4 v) off 4 = (regValue (writeReg s r v) r, writeReg s r v) := by
  rw [busWrite_reg hr v (.inl hb), busRead_reg hr (.inl (hstatus ▸ hb))]

/-- Settles O49: each register's word is read back from the fields that the write stored. -/
theorem writableRegistersReadBack : Obligations.WritableRegistersReadBack := by
  intro s v hb
  refine ⟨?_, ⟨configOfWord v, busWrite_reg (r := .config) rfl v (.inl hb), ?_⟩,
    busRead_busWrite_reg (r := .arg0) rfl v hb rfl, busRead_busWrite_reg (r := .arg1) rfl v hb rfl⟩
  · rw [busRead_busWrite_reg (r := .ctrl) rfl v hb rfl, ← ctrlWord_getLsbD]
    rfl
  · rw [busRead_busWrite_reg (r := .config) rfl v hb rfl, ← configWord_configOfWord]
    rfl

/-! Power-on reset. -/

/-- A file filled with one value reads it everywhere, past its end too if that is the default. -/
theorem toList_replicate_getD {α : Type} (n i : Nat) (a : α) :
    (Vector.replicate n a).toList.getD i a = a := by
  rw [Vector.toList_replicate, List.getD_eq_getElem?_getD, List.getElem?_getD_replicate_default_eq]

theorem regValue_reset {r : Reg} (hr : r ≠ .id) : regValue State.reset r = 0 := by
  cases r with
  | id => exact absurd rfl hr
  | gen i => exact congrArg (BitVec.setWidth 32) (toList_replicate_getD 31 i (0 : Byte))
  | score m => exact toList_replicate_getD 8 m (0 : Word)
  | _ => rfl

/-- No cell is listed at power-on, so every byte is its `initMem` byte (R45, R281). -/
theorem State.readByte_reset {off : Nat} (h : BufferOffset off) :
    State.reset.readByte off =
      some (if off < 0x10000 then Config.initMem off else Config.initMem off &&& 3) := by
  have hbyte : Memory.byteAt State.reset.mem off =
      if isGridCell off then Config.initMem off &&& 3 else Config.initMem off := rfl
  rw [State.reset.readByte_of_isBuffer ((bufferOffset_iff off).1 h), hbyte]
  by_cases hlt : off < 0x10000
  · rw [not_gridCell_of_lt hlt, if_pos hlt]
    rfl
  · have hcell : isGridCell off = true := by
      rcases h with h | h
      · omega
      · exact (isGridCell_iff off).2 h
    rw [hcell, if_neg hlt, if_pos rfl]

/-- Settles O53: ID alone is not 0 among the registers, and no buffer cell is listed. -/
theorem powerOnRegisterValues : Obligations.PowerOnRegisterValues := by
  refine ⟨busRead_reg (r := .id) rfl (.inl rfl), fun off hoff hne => ?_, rfl, rfl,
    fun off => State.readByte_reset⟩
  obtain ⟨r, hr⟩ := hoff.exists_regAt
  have hid : r ≠ .id := by
    rintro rfl
    exact hne (regOffset_of_regAt hr)
  rw [busRead_reg hr (.inl rfl), regValue_reset hid]

end Sys2Proof.Machine
end

section
/-!
PROOFS. Access errors, the side effects of a read, writes while a command is pending, and a buffer byte
that reads back (O44, O45, O47, O50).
-/
namespace Sys2Proof.Machine

/-! Access errors. -/

theorem targetOf_illegal {off n : Nat} (h : ¬ LegalAccess off n) : targetOf off n = .illegal :=
  not_not.1 (mt (legalAccess_iff off n).2 h)

theorem busRead_illegal (s : State) {off n : Nat} (h : ¬ LegalAccess off n) :
    busRead s off n = (0, s.accessError) := by
  simp [busRead, targetOf_illegal h]

theorem busWrite_illegal (s : State) {off n : Nat} (h : ¬ LegalAccess off n) (v : Word) :
    busWrite s off n v = s.accessError := by
  simp [busWrite, targetOf_illegal h]

/-! Legal accesses. -/

/-- A legal read leaves the state as it was, or takes a draw because a command is pending (R66, R68). -/
theorem busRead_legal (s : State) {off n : Nat} (h : LegalAccess off n) :
    (busRead s off n).2 = s ∨ s.status.busy = true ∧ (busRead s off n).2 = s.drawn := by
  rcases busRead_cases s off n with
    ⟨r, -, -, hr⟩ | ⟨r, -, hb, hr⟩ | ⟨a, -, -, hr⟩ | ⟨a, -, hb, hr⟩ | ⟨hill, -⟩
  · exact .inl (congrArg Prod.snd hr)
  · exact .inr ⟨Bool.and_elim_left hb, congrArg Prod.snd hr⟩
  · exact .inl (congrArg Prod.snd hr)
  · exact .inr ⟨Bool.and_elim_left hb, congrArg Prod.snd hr⟩
  · exact absurd hill ((legalAccess_iff off n).1 h)

theorem busRead_legal_idle {s : State} {off n : Nat} (h : LegalAccess off n)
    (hb : s.status.busy = false) : (busRead s off n).2 = s := by
  rcases busRead_legal s h with hr | ⟨hbusy, -⟩
  · exact hr
  · simp [hb] at hbusy

/-- No register write raises BUSERR: STATUS lowers flags, and CMD sets BUSY and clears DONE (R26, R110). -/
theorem writeReg_buserr {s : State} {r : Reg} {v : Word}
    (h : (writeReg s r v).status.buserr = true) : s.status.buserr = true := by
  cases r with
  | status => exact Bool.and_elim_left h
  | _ => exact h

theorem busWrite_legal_buserr {s : State} {off n : Nat} {v : Word} (hlegal : LegalAccess off n)
    (h : (busWrite s off n v).status.buserr = true) : s.status.buserr = true := by
  rcases busWrite_cases s off n v with ⟨r, -, -, hw⟩ | ⟨a, -, -, hw⟩ | ⟨-, -, hw⟩ | ⟨hill, -⟩
  · exact writeReg_buserr (hw ▸ h)
  · rwa [hw] at h
  · rwa [hw] at h
  · exact absurd hill ((legalAccess_iff off n).1 hlegal)

/-- Settles O44: an access that reaches no register and no byte is an access error, and no other
access raises BUSERR. -/
theorem illegalAccessSetsBuserr : Obligations.IllegalAccessSetsBuserr := by
  intro s off n v
  refine ⟨fun _ h => ⟨busRead_illegal s h, busWrite_illegal s h v⟩,
    fun h => ⟨?_, busWrite_legal_buserr h⟩⟩
  rcases busRead_legal s h with hr | ⟨-, hr⟩
  · rw [hr]
  · rw [hr]
    rfl

/-- Settles O45: a legal read at most takes a draw, and none with BUSY = 0. -/
theorem readsHaveNoSideEffect : Obligations.ReadsHaveNoSideEffect := by
  intro s off n
  refine ⟨fun h => ?_, fun _ h => congrArg Prod.snd (busRead_illegal s h), fun h hb => ?_⟩
  · rcases busRead_legal s h with hr | ⟨-, hr⟩
    · rw [hr]
    · rw [hr]
      rfl
  · have hkeep := busRead_legal_idle h hb
    exact ⟨hkeep, by rw [hkeep]⟩

/-! Writes while a command is pending. -/

/-- CMD, CONFIG, ARG0 and ARG1 are the registers whose write is rejected while BUSY = 1 (R67). -/
theorem regAt_gated :
    ∀ off ∈ [0x00C, 0x010, 0x014, 0x018],
      ∃ r ∈ controlRegs, regAt off = some r ∧ gatedReg r = true := by
  decide

theorem busWrite_gatedReg_busy {s : State} (hb : s.status.busy = true) (v : Word) {off : Nat}
    (hoff : off ∈ [0x00C, 0x010, 0x014, 0x018]) : busWrite s off 4 v = s.rejectWrite := by
  obtain ⟨r, -, hr, hgate⟩ := regAt_gated off hoff
  simp [busWrite, targetOf_reg hr, hb, hgate]

theorem busWrite_byte_busy {s : State} (hb : s.status.busy = true) (v : Word) {off : Nat}
    (hoff : BufferOffset off) : busWrite s off 1 v = s.rejectWrite := by
  simp [busWrite, targetOf_byte ((bufferOffset_iff off).1 hoff), hb]

/-- Write-1-to-clear neither reads nor writes BUSY (R26). -/
theorem clearOnWrite_of_busy {t : Status} (hb : t.busy = true) (v : Word) :
    clearOnWrite t v = { clearOnWrite { t with busy := false } v with busy := true } := by
  rw [← hb]
  rfl

/-- While BUSY = 1 a write to STATUS clears the flags it would clear if no command were pending (R67). -/
theorem busWrite_status_busy {s : State} (hb : s.status.busy = true) (v : Word) :
    busWrite s 0x008 4 v = { s with status :=
      { (busWrite { s with status := { s.status with busy := false } } 0x008 4 v).status with
        busy := true } } := by
  have hr : regAt 0x008 = some .status := rfl
  rw [busWrite_reg hr v (.inr rfl), busWrite_reg hr v (.inr rfl)]
  exact congrArg (fun t => ({ s with status := t } : State)) (clearOnWrite_of_busy hb v)

/-- Settles O47: CTRL and STATUS are not gated by BUSY, the other writable registers and every buffer
are, and neither a read-only register nor an access error looks at BUSY. -/
theorem busyWritesAreDropped : Obligations.BusyWritesAreDropped := by
  intro s v
  refine ⟨fun off => busWrite_readOnly s v, fun off n _ h => busWrite_illegal s h v, fun hb => ?_⟩
  exact ⟨busWrite_reg (r := .ctrl) rfl v (.inr rfl), busWrite_status_busy hb v,
    fun off => busWrite_gatedReg_busy hb v, fun off => busWrite_byte_busy hb v⟩

/-! A buffer byte. -/

theorem busWrite_byte {s : State} {a : Nat} (ha : isBuffer a = true) (hb : s.status.busy = false)
    (v : Word) :
    busWrite s a 1 v = { s with mem := Memory.setByte s.mem a (v.setWidth 8) } := by
  simp [busWrite, targetOf_byte ha, hb]

/-- A stored byte is what its offset then holds, of a GRID cell bits [1:0] (R41). -/
theorem Memory.byteAt_setByte (m : List Host.Cell) (a : Nat) (v : Byte) :
    Memory.byteAt (Memory.setByte m a v) a = if isGridCell a then v &&& 3 else v := by
  rw [Memory.byteAt_of_get ((Memory.get_setByte m a a v).trans (if_pos rfl))]
  split
  · exact and_three_idem v
  · rfl

/-- With BUSY = 0 the byte that a write stores is what the offset then reads as. -/
theorem busRead_busWrite_byte {s : State} {a : Nat} (ha : isBuffer a = true)
    (hb : s.status.busy = false) (v : Word) :
    busRead (busWrite s a 1 v) a 1 =
      ((if isGridCell a then v.setWidth 8 &&& 3 else v.setWidth 8).setWidth 32,
        busWrite s a 1 v) := by
  have hidle : (busWrite s a 1 v).status.busy = false := by rwa [busWrite_byte ha hb]
  rw [busRead_byte ha (.inl hidle), busWrite_byte ha hb, Memory.byteAt_setByte]

/-- The buffer offsets from 0x10000 up are the GRID cells (R38 to R40). -/
theorem BufferOffset.isGridCell_eq {off : Nat} (h : BufferOffset off) :
    isGridCell off = decide (0x10000 ≤ off) := by
  rcases h with h | h
  · rw [not_gridCell_of_lt (by omega), eq_comm, decide_eq_false_iff_not]
    omega
  · rw [(isGridCell_iff off).2 h, eq_comm, decide_eq_true_eq]
    obtain ⟨x, y, -, -, rfl⟩ := h
    unfold gridAddr
    omega

/-- The byte of a word, zero-extended, is its low 8 bits. -/
theorem setWidth_byte (v : Word) : (v.setWidth 8).setWidth 32 = v &&& 0xFF := by
  apply BitVec.eq_of_toNat_eq
  have hmask : v.toNat &&& 0xFF = v.toNat % 256 := Nat.and_two_pow_sub_one_eq_mod v.toNat 8
  rw [BitVec.toNat_setWidth, BitVec.toNat_setWidth, BitVec.toNat_and]
  exact (Nat.mod_eq_of_lt (by omega)).trans hmask.symm

theorem setWidth_byte_and_three (v : Word) : (v.setWidth 8 &&& 3).setWidth 32 = v &&& 0x3 := by
  rw [BitVec.setWidth_and, setWidth_byte, BitVec.and_assoc]
  rfl

/-- Settles O50: the byte stored is the byte read, and storing it touches one offset of memory. -/
theorem bufferByteReadsBack : Obligations.BufferByteReadsBack := by
  intro s off v hb hoff
  have ha := (bufferOffset_iff off).1 hoff
  refine ⟨?_, fun a hne => State.readByte_congr fun _ => ?_, ?_⟩
  · rw [busRead_busWrite_byte ha hb, hoff.isGridCell_eq]
    by_cases hlt : off < 0x10000
    · rw [if_pos hlt, decide_eq_false (by omega), if_neg Bool.false_ne_true, setWidth_byte]
    · rw [if_neg hlt, decide_eq_true (by omega), if_pos rfl, setWidth_byte_and_three]
  · rw [busWrite_byte ha hb]
    exact (Memory.get_setByte s.mem off a _).trans (if_neg hne)
  · rw [busWrite_byte ha hb]

end Sys2Proof.Machine
end

section
/-!
PROOFS. What the host's turn does at each kind of line of its script (O51).
-/
namespace Sys2Proof.Machine

/-! Accesses at a window offset. -/

/-- The window holds the offsets below 0x20000, wherever P_BASE puts it (R60). -/
theorem windowOffset_add (p off : Nat) :
    windowOffset p (p + off) = if off < 0x20000 then some off else none := by
  simp [windowOffset]

theorem platformRead_inside (s : State) {off : Nat} (h : off < 0x20000) (n : Nat) :
    platformRead s (s.params.pBase + off) n = busRead s off n := by
  unfold platformRead
  rw [windowOffset_add, if_pos h]

theorem platformRead_outside (s : State) {off : Nat} (h : 0x20000 ≤ off) (n : Nat) :
    platformRead s (s.params.pBase + off) n = (s.drawOfWidth n, s.drawn) := by
  unfold platformRead
  rw [windowOffset_add, if_neg (by omega)]

theorem platformWrite_inside (s : State) {off : Nat} (h : off < 0x20000) (n : Nat) (v : Word) :
    platformWrite s (s.params.pBase + off) n v = busWrite s off n v := by
  unfold platformWrite
  rw [windowOffset_add, if_pos h]

theorem platformWrite_outside (s : State) {off : Nat} (h : 0x20000 ≤ off) (n : Nat) (v : Word) :
    platformWrite s (s.params.pBase + off) n v = s := by
  unfold platformWrite
  rw [windowOffset_add, if_neg (by omega)]

/-! No access moves the script. -/

theorem writeReg_pos (s : State) (r : Reg) (v : Word) : (writeReg s r v).pos = s.pos := by
  cases r <;> rfl

theorem busRead_pos (s : State) (off n : Nat) : (busRead s off n).2.pos = s.pos := by
  rcases busRead_cases s off n with
    ⟨r, -, -, h⟩ | ⟨r, -, -, h⟩ | ⟨a, -, -, h⟩ | ⟨a, -, -, h⟩ | ⟨-, h⟩ <;> rw [h] <;> rfl

theorem busWrite_pos (s : State) (off n : Nat) (v : Word) : (busWrite s off n v).pos = s.pos := by
  rcases busWrite_cases s off n v with ⟨r, -, -, h⟩ | ⟨a, -, -, h⟩ | ⟨-, -, h⟩ | ⟨-, h⟩ <;> rw [h]
  · exact writeReg_pos s r v
  · rfl
  · rfl

/-! The host's turn, by the line its script stands at. -/

theorem hostStep_end {s : State} (hl : s.script[s.pos]? = none) : hostStep s = .next s := by
  simp only [hostStep, hl]

theorem hostStep_rd {s : State} {off n : Nat} (hl : s.script[s.pos]? = some (.rd off n)) :
    hostStep s = .next (State.reply (platformRead s (s.params.pBase + off) n)).nextLine := by
  simp only [hostStep, hl]

theorem hostStep_wr {s : State} {off n : Nat} {v : Word}
    (hl : s.script[s.pos]? = some (.wr off n v)) :
    hostStep s = .next (platformWrite s (s.params.pBase + off) n v).nextLine := by
  simp only [hostStep, hl]

theorem hostStep_label {s : State} {l : Nat} (hl : s.script[s.pos]? = some (.label l)) :
    hostStep s = .next s.nextLine := by
  simp only [hostStep, hl]

theorem hostStep_bnz_zero {s : State} {x : HostValue} {mask : Word} {l : Nat}
    (hl : s.script[s.pos]? = some (.bnz x mask l)) (hx : hostValue s x &&& mask = 0) :
    hostStep s = .next s.nextLine := by
  simp only [hostStep, hl, hx, ne_eq, not_true_eq_false, if_false]

/-- A branch that is taken goes to a line with its label, if the script holds one. -/
theorem hostStep_bnz_taken {s : State} {x : HostValue} {mask : Word} {l : Nat}
    (hl : s.script[s.pos]? = some (.bnz x mask l)) (hx : hostValue s x &&& mask ≠ 0)
    (hmem : HostLine.label l ∈ s.script) :
    ∃ p, s.script[p]? = some (.label l) ∧ hostStep s = .next { s with pos := p } := by
  obtain ⟨hpos, -⟩ := List.getElem?_eq_some_iff.1 hl
  cases hlabel : labelLine s.script s.pos l with
  | none => exact absurd hmem (labelLine_none hlabel)
  | some p => exact ⟨p, labelLine_some hpos.le hlabel, by
    simp only [hostStep, hl, if_pos hx, hlabel]⟩

theorem hostStep_rd_inside {s : State} {off n : Nat} (hl : s.script[s.pos]? = some (.rd off n))
    (h : off < 0x20000) :
    hostStep s = .next { (busRead s off n).2 with
      lastRead := (busRead s off n).1, pos := s.pos + 1 } := by
  rw [hostStep_rd hl, platformRead_inside s h, ← busRead_pos s off n]
  rfl

theorem hostStep_rd_outside {s : State} {off n : Nat} (hl : s.script[s.pos]? = some (.rd off n))
    (h : 0x20000 ≤ off) :
    hostStep s = .next { s with
      draws := s.draws + 1
      lastRead := ((Config.freeValue s.draws).setWidth (8 * n)).setWidth 32
      pos := s.pos + 1 } := by
  rw [hostStep_rd hl, platformRead_outside s h]
  rfl

theorem hostStep_wr_inside {s : State} {off n : Nat} {v : Word}
    (hl : s.script[s.pos]? = some (.wr off n v)) (h : off < 0x20000) :
    hostStep s = .next { busWrite s off n v with pos := s.pos + 1 } := by
  rw [hostStep_wr hl, platformWrite_inside s h, ← busWrite_pos s off n v]
  rfl

theorem hostStep_wr_outside {s : State} {off n : Nat} {v : Word}
    (hl : s.script[s.pos]? = some (.wr off n v)) (h : 0x20000 ≤ off) :
    hostStep s = .next s.nextLine := by
  rw [hostStep_wr hl, platformWrite_outside s h]

/-- A step in which the host's turn comes, scheduled or by default, is the host's turn in a state that
differs in the turns to come at most. -/
theorem step_eq_hostStep {s u : State} (hhosts : s.params.hosts ≤ 1)
    (hu : (∃ ts, s.schedule = .host :: ts ∧ u = { s with schedule := ts }) ∨
      (s.schedule = [] ∧ s.status.busy = false ∧ u = s)) :
    step s = hostStep u ∧ u = { s with schedule := u.schedule } := by
  rcases hu with ⟨ts, hs, rfl⟩ | ⟨hs, hb, rfl⟩
  · exact ⟨step_hostTurn hhosts hs, rfl⟩
  · refine ⟨?_, rfl⟩
    rw [step_defaultTurn hhosts hs, if_neg (by simp [hb])]

/-- Settles O51: the step is the host's turn, and each kind of line has its outcome there. -/
theorem hostTurnPerformsAccess : Obligations.HostTurnPerformsAccess := by
  intro s u hhosts hu
  obtain ⟨hstep, hsched⟩ := step_eq_hostStep hhosts hu
  generalize u.schedule = ts at hsched
  subst hsched
  rw [hstep]
  exact ⟨fun _ _ hl h => hostStep_rd_inside hl h, fun _ _ hl h => hostStep_rd_outside hl h,
    fun _ _ _ hl h => hostStep_wr_inside hl h, fun _ _ _ hl h => hostStep_wr_outside hl h,
    fun _ hl => hostStep_label hl, fun _ _ _ hl hx => hostStep_bnz_zero hl hx,
    fun _ _ _ hl hx hmem => hostStep_bnz_taken (s := { s with schedule := ts }) hl hx hmem,
    fun hl => hostStep_end hl⟩

end Sys2Proof.Machine
end

section
/-!
PROOFS. How many codewords the interleaving puts out (R156, R157), and that what a command writes depends
only on the inputs R76 lists for it (O60).
-/
namespace Sys2Proof.Machine

/-! The length of the interleaved codewords. -/

/-- Column n holds a codeword of each block that is longer than n. -/
theorem sum_min_length_succ (blocks : List (List Byte)) (n : Nat) :
    (blocks.map (fun b => min b.length (n + 1))).sum =
      (blocks.map (fun b => min b.length n)).sum + (blocks.filterMap (fun b => b[n]?)).length := by
  induction blocks with
  | nil => rfl
  | cons b blocks ih =>
    by_cases hn : n < b.length
    · simp only [List.map_cons, List.sum_cons, List.filterMap_cons, List.getElem?_eq_getElem hn,
        List.length_cons, ih]
      omega
    · simp only [List.map_cons, List.sum_cons, List.filterMap_cons,
        List.getElem?_eq_none (Nat.le_of_not_lt hn), ih]
      omega

theorem columnsOf_length (blocks : List (List Byte)) (n : Nat) :
    (columnsOf blocks n).length = (blocks.map (fun b => min b.length n)).sum := by
  induction n with
  | zero => simp [columnsOf]
  | succ n ih =>
    rw [sum_min_length_succ, ← ih]
    simp [columnsOf, List.range_succ]

/-- Enough columns read every codeword of every block. -/
theorem columnsOf_length_of_le {blocks : List (List Byte)} {n : Nat}
    (h : ∀ b ∈ blocks, b.length ≤ n) :
    (columnsOf blocks n).length = (blocks.map List.length).sum := by
  rw [columnsOf_length]
  exact congrArg List.sum (List.map_congr_left fun b hb => min_eq_left (h b hb))

/-- Pieces that the data fills have the lengths asked for. -/
theorem cutBlocks_map_length {ns : List Nat} {data : List Byte} (h : ns.sum ≤ data.length) :
    (cutBlocks ns data).map List.length = ns := by
  induction ns generalizing data with
  | nil => rfl
  | cons n ns ih =>
    rw [List.sum_cons] at h
    have hrest : (cutBlocks ns (data.drop n)).map List.length = ns :=
      ih (by rw [List.length_drop]; omega)
    simp only [cutBlocks, List.map_cons, List.length_take, hrest]
    rw [Nat.min_eq_left (by omega)]

/-- Of n blocks those from k on are one codeword longer. -/
theorem sum_range_longer (q k n : Nat) :
    ((List.range n).map (fun b => q + (if k ≤ b then 1 else 0))).sum = n * q + (n - k) := by
  induction n with
  | zero => simp
  | succ n ih =>
    rw [List.range_succ, List.map_append, List.sum_append, ih, Nat.succ_mul]
    simp only [List.map_cons, List.map_nil, List.sum_cons, List.sum_nil]
    split <;> omega

theorem blockLens_sum (total : Nat) {nb : Nat} (hnb : 0 < nb) : (blockLens total nb).sum = total := by
  have hmod : total % nb < nb := Nat.mod_lt _ hnb
  have hdiv : nb * (total / nb) + total % nb = total := Nat.div_add_mod total nb
  rw [blockLens, sum_range_longer]
  omega

/-- No block is longer than the longest (R157). -/
theorem blockLens_le {total nb l : Nat} (h : l ∈ blockLens total nb) : l ≤ longestLen total nb := by
  simp only [blockLens, List.mem_map, List.mem_range] at h
  obtain ⟨b, hb, rfl⟩ := h
  unfold longestLen
  split <;> split <;> omega

theorem splitBlocks_map_length (data : List Byte) {nb : Nat} (hnb : 0 < nb) :
    (splitBlocks data nb).map List.length = blockLens data.length nb :=
  cutBlocks_map_length (blockLens_sum data.length hnb).le

/-- Every data codeword once, and e EC codewords per block (R157). -/
theorem interleave_length (data : List Byte) {nb e : Nat} (hnb : 0 < nb) (he : 1 ≤ e) :
    (interleave data nb e).length = data.length + nb * e := by
  have hlens := splitBlocks_map_length data hnb
  have hdata : (columnsOf (splitBlocks data nb) (longestLen data.length nb)).length =
      data.length := by
    rw [columnsOf_length_of_le, hlens, blockLens_sum _ hnb]
    exact fun b hb => blockLens_le (hlens ▸ List.mem_map_of_mem hb)
  have hec : (columnsOf ((splitBlocks data nb).map (fun b => rsRem b e)) e).length = nb * e := by
    simp [columnsOf_length, rsRem_length _ he, splitBlocks_length, Function.comp_def]
  rw [interleave, List.length_append, hdata, hec]

/-- The blocks of a valid VERSION and their EC codewords, which fit RAW_CW (R153, R155). -/
theorem numBlocks_bounds {v : Nat} (h : validVersion v) (lv : Level) :
    0 < numBlocks lv v ∧ eccPerBlock lv v * numBlocks lv v ≤ rawCw v := by
  have hall : ∀ v < 41, 1 ≤ v →
      0 < numBlocks lv v ∧ eccPerBlock lv v * numBlocks lv v ≤ rawCw v := by
    cases lv <;> decide
  exact hall v (by have := h.2; omega) h.1

theorem dataCw_le {v : Nat} (h : validVersion v) (lv : Level) : dataCw lv v ≤ 4096 :=
  (Nat.sub_le _ _).trans (rawCw_le h)

/-- ECC_ENCODE puts out RAW_CW codewords (R155, R160). -/
theorem interleave_length_rawCw {s : State} (h : validVersion s.version) :
    (interleave (s.dataBytes (dataCw s.level s.version)) (numBlocks s.level s.version)
      (eccPerBlock s.level s.version)).length = rawCw s.version := by
  obtain ⟨hnb, hfits⟩ := numBlocks_bounds h s.level
  rw [interleave_length _ hnb (eccPerBlock_bounds h s.level).1, State.dataBytes,
    Memory.readBytes_length, dataCw, Nat.mul_comm (numBlocks s.level s.version)]
  exact Nat.sub_add_cancel hfits

/-! Completing alike. -/

/-- From `s` and from `s'` the command completes with one code and, on success, leaves states that
`out` relates (R76, R295). -/
def CompletesAlike (i : Instr) (s s' : State) (out : State → State → Prop) : Prop :=
  ∃ t t', exec i s = .next t ∧ exec i s' = .next t' ∧ t.status.errcode = t'.status.errcode ∧
    (t.status.errcode = 0 → out t t')

/-- Checks that answer alike, and effects that agree once the checks have passed, are all it takes. -/
theorem completesAlike_of_effectOf {i : Instr} {s s' : State} {out : State → State → Prop}
    (hcheck : checkOf i s = checkOf i s')
    (hout : checkOf i s = .ok →
      out ((effectOf i s).complete .ok) ((effectOf i s').complete .ok)) :
    CompletesAlike i s s' out := by
  by_cases hok : checkOf i s = .ok
  · exact ⟨_, _, exec_ok hok, exec_ok (hcheck ▸ hok), rfl, fun _ => hout hok⟩
  · exact ⟨_, _, exec_error hok, exec_error (hcheck ▸ hok), congrArg errByte hcheck,
      fun h => absurd (errByte_eq_zero.1 h) hok⟩

/-! What each command reads. -/

/-- The low n bits of a word are its number modulo 2^n. -/
theorem extractLsb'_zero_congr {w w' : Word} {n : Nat} (h : w.toNat % 2 ^ n = w'.toNat % 2 ^ n) :
    w.extractLsb' 0 n = w'.extractLsb' 0 n := by
  apply BitVec.eq_of_toNat_eq
  simpa [BitVec.extractLsb'_toNat] using h

theorem checkDegree_congr {s s' : State} (h : s.opDegree = s'.opDegree) :
    checkDegree s = checkDegree s' := by
  rw [checkDegree, checkDegree, h]

theorem checkLength_congr {s s' : State} (h : s.opLength = s'.opLength) :
    checkLength s = checkLength s' := by
  rw [checkLength, checkLength, h]

theorem checkVersion_congr {s s' : State} (h : s.version = s'.version) :
    checkVersion s = checkVersion s' := by
  rw [checkVersion, checkVersion, h]

theorem checkVersionWord_congr {s s' : State} (h : s.version = s'.version) :
    checkVersionWord s = checkVersionWord s' := by
  rw [checkVersionWord, checkVersionWord, h]

theorem checkLength_eq_ok {s : State} : checkLength s = .ok ↔ s.opLength ≤ 4096 := by
  unfold checkLength
  rw [ite_eq_right_iff]
  simp

/-- The data codewords are the bytes of DATA_BUF, as far as it reaches (R38). -/
theorem State.dataBytes_congr {s s' : State} {n : Nat} (hn : n ≤ 4096)
    (h : ∀ i, i < n → s.readByte (0x1000 + i) = s'.readByte (0x1000 + i)) :
    s.dataBytes n = s'.dataBytes n := by
  rw [State.dataBytes, State.dataBytes, Memory.readBytes_eq, Memory.readBytes_eq]
  refine List.map_congr_left fun i hi => ?_
  have hin := List.mem_range.1 hi
  have hbuf : isBuffer (0x1000 + i) = true := isBuffer_dataAddr (by omega)
  have hbyte := h i hin
  rwa [s.readByte_of_isBuffer hbuf, s'.readByte_of_isBuffer hbuf, Option.some.injEq] at hbyte

theorem State.size_congr {s s' : State} (h : s.version = s'.version) : s.size = s'.size :=
  congrArg symbolSize h

theorem State.square_congr {s s' : State} (hv : s.version = s'.version)
    (h : ∀ x y, x < s.size → y < s.size →
      Memory.cellAt s.mem x y = Memory.cellAt s'.mem x y) :
    s.square = s'.square := by
  rw [State.square, State.square, Memory.readSquare_eq, Memory.readSquare_eq,
    ← State.size_congr hv]
  exact List.map_congr_left fun y hy => List.map_congr_left fun x hx =>
    h x y (List.mem_range.1 hx) (List.mem_range.1 hy)

/-- SCORE sees the DARK bits of the square (R200). -/
theorem darkRows_square (s : State) :
    darkRows s.square = squareOf s.size (fun x y => (Memory.cellAt s.mem x y).dark) := by
  simp [darkRows, State.square, Memory.readSquare_eq, squareOf, Function.comp_def]

theorem darkRows_square_congr {s s' : State} (hv : s.version = s'.version)
    (h : ∀ x y, x < s.size → y < s.size →
      (Memory.cellAt s.mem x y).dark = (Memory.cellAt s'.mem x y).dark) :
    darkRows s.square = darkRows s'.square := by
  rw [darkRows_square, darkRows_square, ← State.size_congr hv]
  exact List.map_congr_left fun y hy => List.map_congr_left fun x hx =>
    h x y (List.mem_range.1 hx) (List.mem_range.1 hy)

theorem State.trialScores_congr {s s' : State} (hparams : s.params = s'.params)
    (h : s.square = s'.square) : s.trialScores = s'.trialScores := by
  rw [State.trialScores, State.trialScores, hparams, h]

/-! What each command writes. -/

/-- OUT_BUF reads what was last written there, whatever else the state holds. -/
theorem State.readByte_writeOut_congr (s s' : State) {bs : List Byte} (hl : bs.length ≤ 4096)
    {i : Nat} (hi : i < bs.length) :
    (s.writeOut bs).readByte (outAddr i) = (s'.writeOut bs).readByte (outAddr i) :=
  (s.readByte_writeOut bs hi hl).trans (s'.readByte_writeOut bs hi hl).symm

/-- Equal cells stay equal under one mask (R182). -/
theorem State.cellAt_applyMask_congr {s s' : State} (hv : s.version = s'.version)
    (hs : s.size ≤ 177) (m : Nat) {x y : Nat} (hx : x < s.size) (hy : y < s.size)
    (h : Memory.cellAt s.mem x y = Memory.cellAt s'.mem x y) :
    Memory.cellAt (s.applyMask m).mem x y = Memory.cellAt (s'.applyMask m).mem x y := by
  have hsize := State.size_congr hv
  rw [s.cellAt_applyMask m hs hx hy,
    s'.cellAt_applyMask m (hsize ▸ hs) (hsize ▸ hx) (hsize ▸ hy), h]

theorem gfMul_completesAlike {s s' : State} (ha : s.opA = s'.opA) (hb : s.opB = s'.opB) :
    CompletesAlike .gfMul s s' (fun t t' => t.result = t'.result) := by
  refine completesAlike_of_effectOf rfl fun _ => ?_
  simp [effectOf, ha, hb]

theorem genPoly_completesAlike {s s' : State} (hd : s.opDegree = s'.opDegree) :
    CompletesAlike .genPoly s s' (fun t t' => t.gen = t'.gen ∧ t.genDeg = t'.genDeg) := by
  refine completesAlike_of_effectOf (checkDegree_congr hd) fun _ => ?_
  simp [effectOf, hd]

theorem rsBlock_completesAlike {s s' : State} (hn : s.opLength = s'.opLength)
    (hd : s.opDegree = s'.opDegree)
    (hdata : ∀ i, i < s.opLength → s.readByte (0x1000 + i) = s'.readByte (0x1000 + i)) :
    CompletesAlike .rsBlock s s' (fun t t' => t.gen = t'.gen ∧ t.genDeg = t'.genDeg ∧
      ∀ j, j < s.opDegree → t.readByte (0x2000 + j) = t'.readByte (0x2000 + j)) := by
  refine completesAlike_of_effectOf
    (congrArg₂ firstFailing (checkDegree_congr hd) (checkLength_congr hn)) fun hok => ?_
  obtain ⟨hdegree, hlength⟩ := firstFailing_eq_ok.1 hok
  obtain ⟨hd1, hd30⟩ := checkDegree_eq_ok.1 hdegree
  have hbytes := State.dataBytes_congr (checkLength_eq_ok.1 hlength) hdata
  have hlen := rsRem_length (s.dataBytes s.opLength) hd1
  refine ⟨by simp [effectOf, hd], by simp [effectOf, hd], fun j hj => ?_⟩
  simp only [State.readByte_complete, effectOf, ← hn, ← hd, ← hbytes]
  exact State.readByte_writeOut_congr _ _ (by omega) (by omega)

theorem eccEncode_completesAlike {s s' : State} (hconfig : s.config = s'.config)
    (hdata : ∀ i, i < dataCw s.level s.version →
      s.readByte (0x1000 + i) = s'.readByte (0x1000 + i)) :
    CompletesAlike .eccEncode s s' (fun t t' => t.gen = t'.gen ∧ t.genDeg = t'.genDeg ∧
      ∀ i, i < rawCw s.version → t.readByte (0x2000 + i) = t'.readByte (0x2000 + i)) := by
  have hv : s.version = s'.version := congrArg (fun c : ConfigReg => c.version.toNat) hconfig
  have hlv : s.level = s'.level := congrArg (fun c : ConfigReg => levelOf c.ecl) hconfig
  refine completesAlike_of_effectOf (checkVersion_congr hv) fun hok => ?_
  have hvalid := checkVersion_eq_ok.1 hok
  have hbytes := State.dataBytes_congr (dataCw_le hvalid s.level) hdata
  have hlen := interleave_length_rawCw hvalid
  have hraw := rawCw_le hvalid
  refine ⟨by simp [effectOf, hv, hlv], by simp [effectOf, hv, hlv], fun i hi => ?_⟩
  simp only [State.readByte_complete, effectOf, ← hv, ← hlv, ← hbytes]
  exact State.readByte_writeOut_congr _ _ (by omega) (by omega)

theorem score_completesAlike {s s' : State} (hparams : s.params = s'.params)
    (hv : s.version = s'.version)
    (hdark : ∀ x y, x < s.size → y < s.size →
      (Memory.cellAt s.mem x y).dark = (Memory.cellAt s'.mem x y).dark) :
    CompletesAlike .score s s' (fun t t' => t.result = t'.result) := by
  refine completesAlike_of_effectOf (checkVersion_congr hv) fun _ => ?_
  simp [effectOf, hparams, darkRows_square_congr hv hdark]

theorem selectMask_completesAlike {s s' : State} (hparams : s.params = s'.params)
    (hv : s.version = s'.version)
    (hcells : ∀ x y, x < s.size → y < s.size →
      Memory.cellAt s.mem x y = Memory.cellAt s'.mem x y) :
    CompletesAlike .selectMask s s' (fun t t' => t.score = t'.score ∧ t.bestMask = t'.bestMask ∧
      t.result = t'.result ∧ ∀ x y, x < s.size → y < s.size →
        Memory.cellAt t.mem x y = Memory.cellAt t'.mem x y) := by
  refine completesAlike_of_effectOf (checkVersion_congr hv) fun hok => ?_
  have hscores := State.trialScores_congr hparams (State.square_congr hv hcells)
  refine ⟨by simp [effectOf, hscores], by simp [effectOf, hscores], by simp [effectOf, hscores],
    fun x y hx hy => ?_⟩
  simp only [State.complete_mem, effectOf, hscores]
  exact State.cellAt_applyMask_congr hv (State.size_le_of_checkVersion (s := s) hok) _ hx hy
    (hcells x y hx hy)

theorem applyMask_completesAlike {s s' : State} (hv : s.version = s'.version)
    (hcells : ∀ x y, x < s.size → y < s.size →
      Memory.cellAt s.mem x y = Memory.cellAt s'.mem x y) (m : BitVec 4) :
    CompletesAlike (.applyMask m) s s' (fun t t' => ∀ x y, x < s.size → y < s.size →
      Memory.cellAt t.mem x y = Memory.cellAt t'.mem x y) := by
  refine completesAlike_of_effectOf (congrArg (firstFailing (checkMask m)) (checkVersion_congr hv))
    fun hok x y hx hy => ?_
  exact State.cellAt_applyMask_congr hv
    (State.size_le_of_checkVersion (firstFailing_eq_ok.1 hok).2) _ hx hy (hcells x y hx hy)

theorem formatWord_completesAlike {s s' : State} (hecl : s.config.ecl = s'.config.ecl)
    (m : BitVec 4) :
    CompletesAlike (.formatWord m) s s' (fun t t' => t.result = t'.result) := by
  refine completesAlike_of_effectOf rfl fun _ => ?_
  simp [effectOf, hecl]

theorem versionWord_completesAlike {s s' : State} (hv : s.version = s'.version) :
    CompletesAlike .versionWord s s' (fun t t' => t.result = t'.result) := by
  refine completesAlike_of_effectOf (checkVersionWord_congr hv) fun _ => ?_
  simp [effectOf, hv]

/-- Settles O60: command by command, the checks and the effect read the listed inputs alone. -/
theorem resultsDependOnlyOnListedInputs : Obligations.ResultsDependOnlyOnListedInputs := by
  intro s s' hparams v size same
  have hlow8 : ∀ {w w' : Word}, w.toNat % 256 = w'.toNat % 256 →
      w.extractLsb' 0 8 = w'.extractLsb' 0 8 := fun h => extractLsb'_zero_congr (n := 8) h
  have hdegree : s.opDegree = s.arg1.toNat % 256 := by simp [State.opDegree]
  have hlength : s.opLength = s.arg0.toNat % 65536 := by simp [State.opLength]
  have hversion : s.config.version = s'.config.version → s.version = s'.version :=
    congrArg BitVec.toNat
  refine ⟨fun ha hb => gfMul_completesAlike (hlow8 ha) (hlow8 hb),
    fun hd => genPoly_completesAlike (congrArg BitVec.toNat (hlow8 hd)), fun hn hd hdata => ?_,
    fun hconfig hdata => eccEncode_completesAlike hconfig hdata,
    fun hv hdark => score_completesAlike hparams (hversion hv) hdark,
    fun hv hcells => ⟨selectMask_completesAlike hparams (hversion hv) hcells,
      applyMask_completesAlike (hversion hv) hcells⟩,
    fun hecl => formatWord_completesAlike hecl,
    fun hv => versionWord_completesAlike (hversion hv)⟩
  rw [← hlength] at hdata
  rw [← hdegree]
  exact rsBlock_completesAlike (congrArg BitVec.toNat (extractLsb'_zero_congr (n := 16) hn))
    (congrArg BitVec.toNat (hlow8 hd)) hdata

end Sys2Proof.Machine
end

section
/-!
PROOFS. The outcome of decoding by the three fields of a word, that the encoder inverts it, and how
a pending word that decodes to an error completes (O1, O2, O3, O5).
-/
namespace Sys2Proof

/-! The fields of a word (R90). -/

theorem opcField_toNat (w : Word) : (opcField w).toNat = w.toNat % 256 := by
  simp [opcField]

theorem midxField_toNat (w : Word) : (midxField w).toNat = w.toNat / 256 % 16 := by
  simp [midxField, Nat.shiftRight_eq_div_pow]

theorem rsvField_toNat (w : Word) : (rsvField w).toNat = w.toNat / 4096 := by
  simp [rsvField, Nat.shiftRight_eq_div_pow]
  omega

theorem rsvField_eq_zero {w : Word} : rsvField w = 0 ↔ (rsvField w).toNat = 0 :=
  BitVec.toNat_inj.symm

theorem midxField_eq_zero {w : Word} : midxField w = 0 ↔ (midxField w).toNat = 0 :=
  BitVec.toNat_inj.symm

/-- A word is its three fields side by side. -/
theorem word_eq_of_fields_eq {w w' : Word} (hopc : opcField w = opcField w')
    (hmidx : midxField w = midxField w') (hrsv : rsvField w = rsvField w') : w = w' := by
  apply BitVec.eq_of_toNat_eq
  have hlow := congrArg BitVec.toNat hopc
  have hmid := congrArg BitVec.toNat hmidx
  have hhigh := congrArg BitVec.toNat hrsv
  rw [opcField_toNat, opcField_toNat] at hlow
  rw [midxField_toNat, midxField_toNat] at hmid
  rw [rsvField_toNat, rsvField_toNat] at hhigh
  omega

/-- The three fields of every command's word are the ones the table gives it (R90, R91). -/
theorem encode_fields (i : Instr) :
    opcField (encode i) = opcodeOf i ∧ midxField (encode i) = midxOf i ∧
      rsvField (encode i) = 0 := by
  cases i with
  | nop => exact Laws.EncodeFields.nop
  | gfMul => exact Laws.EncodeFields.gfMul
  | genPoly => exact Laws.EncodeFields.genPoly
  | rsBlock => exact Laws.EncodeFields.rsBlock
  | eccEncode => exact Laws.EncodeFields.eccEncode
  | gridClear => exact Laws.EncodeFields.gridClear
  | applyMask m => exact Laws.EncodeFields.applyMask m
  | score => exact Laws.EncodeFields.score
  | selectMask => exact Laws.EncodeFields.selectMask
  | formatWord m => exact Laws.EncodeFields.formatWord m
  | versionWord => exact Laws.EncodeFields.versionWord

/-! Which command an opcode names (R91). -/

/-- The opcodes whose command takes a mask index: APPLY_MASK and FORMAT_WORD (R91, R93). -/
def TakesMask (opc : Nat) : Prop := opc = 6 ∨ opc = 9

theorem TakesMask.le {opc : Nat} (h : TakesMask opc) : opc ≤ 10 := by
  unfold TakesMask at h
  omega

/-- `w` is the command word of `i`: OPC and MIDX are those of `i`, RSV is 0, and the mask index is
one that R93 allows. -/
structure IsWordOf (w : Word) (i : Instr) : Prop where
  opc : opcField w = opcodeOf i
  midx : midxField w = midxOf i
  rsv : rsvField w = 0
  wellFormed : i.wellFormed = true

/-- A command's word is the one the encoder gives. -/
theorem IsWordOf.encode_eq {w : Word} {i : Instr} (h : IsWordOf w i) : encode i = w := by
  obtain ⟨hopc, hmidx, hrsv⟩ := encode_fields i
  exact word_eq_of_fields_eq (hopc.trans h.opc.symm) (hmidx.trans h.midx.symm)
    (hrsv.trans h.rsv.symm)

theorem isWordOf_encode {i : Instr} (h : i.wellFormed = true) : IsWordOf (encode i) i := by
  obtain ⟨hopc, hmidx, hrsv⟩ := encode_fields i
  exact ⟨hopc, hmidx, hrsv, h⟩

/-- Each of the nine opcodes without a mask index names a command. -/
theorem decodeOpcode_plain {w : Word} (hopc : (opcField w).toNat ≤ 10)
    (hmask : ¬ TakesMask (opcField w).toNat) :
    ∃ i, decodeOpcode w = decodePlain i w ∧ opcField w = opcodeOf i ∧ midxOf i = 0 ∧
      i.wellFormed = true := by
  match h : (opcField w).toNat with
  | 0 => exact ⟨.nop, by simp only [decodeOpcode, h], BitVec.eq_of_toNat_eq h, rfl, rfl⟩
  | 1 => exact ⟨.gfMul, by simp only [decodeOpcode, h], BitVec.eq_of_toNat_eq h, rfl, rfl⟩
  | 2 => exact ⟨.genPoly, by simp only [decodeOpcode, h], BitVec.eq_of_toNat_eq h, rfl, rfl⟩
  | 3 => exact ⟨.rsBlock, by simp only [decodeOpcode, h], BitVec.eq_of_toNat_eq h, rfl, rfl⟩
  | 4 => exact ⟨.eccEncode, by simp only [decodeOpcode, h], BitVec.eq_of_toNat_eq h, rfl, rfl⟩
  | 5 => exact ⟨.gridClear, by simp only [decodeOpcode, h], BitVec.eq_of_toNat_eq h, rfl, rfl⟩
  | 7 => exact ⟨.score, by simp only [decodeOpcode, h], BitVec.eq_of_toNat_eq h, rfl, rfl⟩
  | 8 => exact ⟨.selectMask, by simp only [decodeOpcode, h], BitVec.eq_of_toNat_eq h, rfl, rfl⟩
  | 10 => exact ⟨.versionWord, by simp only [decodeOpcode, h], BitVec.eq_of_toNat_eq h, rfl, rfl⟩
  | 6 => exact absurd (.inl h) hmask
  | 9 => exact absurd (.inr h) hmask
  | _ + 11 => omega

/-- Each of the two opcodes with a mask index names a command for every index. -/
theorem decodeOpcode_masked {w : Word} (hmask : TakesMask (opcField w).toNat) :
    ∃ i, decodeOpcode w = decodeMasked i w ∧ ∀ m, opcField w = opcodeOf (i m) ∧ midxOf (i m) = m ∧
      ((i m).wellFormed = true ↔ m.toNat < 8) := by
  rcases hmask with h | h
  · exact ⟨.applyMask, by simp only [decodeOpcode, h],
      fun m => ⟨BitVec.eq_of_toNat_eq h, rfl, decide_eq_true_iff⟩⟩
  · exact ⟨.formatWord, by simp only [decodeOpcode, h],
      fun m => ⟨BitVec.eq_of_toNat_eq h, rfl, decide_eq_true_iff⟩⟩

/-! The outcome of decoding, clause by clause (R94). -/

theorem decode_of_opcode_gt {w : Word} (hopc : 10 < (opcField w).toNat) :
    decode w = .error .badOpcode := if_pos hopc

theorem decode_of_rsv_ne_zero {w : Word} (hopc : (opcField w).toNat ≤ 10) (hrsv : rsvField w ≠ 0) :
    decode w = .error .reservedBits := by
  unfold decode
  rw [if_neg (by omega), if_pos hrsv]

theorem decode_of_rsv_eq_zero {w : Word} (hopc : (opcField w).toNat ≤ 10) (hrsv : rsvField w = 0) :
    decode w = decodeOpcode w := by
  unfold decode
  rw [if_neg (by omega), if_neg (by simp [hrsv])]

theorem decode_of_midx_ne_zero {w : Word} (hopc : (opcField w).toNat ≤ 10) (hrsv : rsvField w = 0)
    (hmask : ¬ TakesMask (opcField w).toNat) (hmidx : midxField w ≠ 0) :
    decode w = .error .reservedBits := by
  obtain ⟨i, hdec, -⟩ := decodeOpcode_plain hopc hmask
  rw [decode_of_rsv_eq_zero hopc hrsv, hdec]
  exact if_pos hmidx

theorem decode_of_midx_eq_zero {w : Word} (hopc : (opcField w).toNat ≤ 10) (hrsv : rsvField w = 0)
    (hmask : ¬ TakesMask (opcField w).toNat) (hmidx : midxField w = 0) :
    ∃ i, decode w = .ok i ∧ IsWordOf w i := by
  obtain ⟨i, hdec, hopcode, hzero, hwf⟩ := decodeOpcode_plain hopc hmask
  rw [decode_of_rsv_eq_zero hopc hrsv, hdec]
  exact ⟨i, if_neg (not_not.2 hmidx), hopcode, hmidx.trans hzero.symm, hrsv, hwf⟩

theorem decode_of_midx_ge {w : Word} (hrsv : rsvField w = 0)
    (hmask : TakesMask (opcField w).toNat) (hmidx : 8 ≤ (midxField w).toNat) :
    decode w = .error .invalidMask := by
  obtain ⟨i, hdec, -⟩ := decodeOpcode_masked hmask
  rw [decode_of_rsv_eq_zero hmask.le hrsv, hdec]
  exact if_pos hmidx

theorem decode_of_midx_lt {w : Word} (hrsv : rsvField w = 0)
    (hmask : TakesMask (opcField w).toNat) (hmidx : (midxField w).toNat < 8) :
    ∃ i, decode w = .ok i ∧ IsWordOf w i := by
  obtain ⟨i, hdec, hi⟩ := decodeOpcode_masked hmask
  obtain ⟨hopcode, hindex, hwf⟩ := hi (midxField w)
  rw [decode_of_rsv_eq_zero hmask.le hrsv, hdec]
  exact ⟨i (midxField w), if_neg (by omega), hopcode, hindex.symm, hrsv, hwf.2 hmidx⟩

/-- Every word decodes to the command it is the word of, or to one of R94's three errors. -/
theorem decode_cases (w : Word) :
    (∃ i, decode w = .ok i ∧ IsWordOf w i) ∨
      ∃ c, decode w = .error c ∧ (c = .badOpcode ∨ c = .reservedBits ∨ c = .invalidMask) := by
  by_cases hopc : (opcField w).toNat ≤ 10
  case neg => exact .inr ⟨_, decode_of_opcode_gt (by omega), .inl rfl⟩
  by_cases hrsv : rsvField w = 0
  case neg => exact .inr ⟨_, decode_of_rsv_ne_zero hopc hrsv, .inr (.inl rfl)⟩
  by_cases hmask : TakesMask (opcField w).toNat
  · by_cases hmidx : (midxField w).toNat < 8
    · exact .inl (decode_of_midx_lt hrsv hmask hmidx)
    · exact .inr ⟨_, decode_of_midx_ge hrsv hmask (by omega), .inr (.inr rfl)⟩
  · by_cases hmidx : midxField w = 0
    · exact .inl (decode_of_midx_eq_zero hopc hrsv hmask hmidx)
    · exact .inr ⟨_, decode_of_midx_ne_zero hopc hrsv hmask hmidx, .inr (.inl rfl)⟩

/-- The command with a word's OPC and MIDX is the one the word's opcode names. -/
theorem IsWordOf.decodeOpcode_eq {w : Word} {i : Instr} (h : IsWordOf w i) :
    decodeOpcode w = .ok i := by
  obtain ⟨hopc, hmidx, -, hwf⟩ := h
  cases i with
  | applyMask m | formatWord m =>
    have hm : m.toNat < 8 := of_decide_eq_true hwf
    simp [decodeOpcode, decodeMasked, hopc, opcodeOf, hmidx, midxOf, hm]
  | _ => simp [decodeOpcode, decodePlain, hopc, opcodeOf, hmidx, midxOf]

theorem opcodeOf_le (i : Instr) : (opcodeOf i).toNat ≤ 10 := by
  cases i <;> simp [opcodeOf]

/-- A word decodes to a command exactly if it is that command's word (R90, R91, R94). -/
theorem decode_eq_ok_iff {w : Word} {i : Instr} : decode w = .ok i ↔ IsWordOf w i := by
  constructor
  · intro h
    rcases decode_cases w with ⟨j, hj, hword⟩ | ⟨c, hc, -⟩
    · cases hj.symm.trans h
      exact hword
    · cases hc.symm.trans h
  · intro h
    rw [decode_of_rsv_eq_zero (h.opc ▸ opcodeOf_le i) h.rsv, h.decodeOpcode_eq]

/-- The error that a word decodes to is never the code that means success (R95, R251). -/
theorem ne_ok_of_decode_eq_error {w : Word} {c : ErrCode} (h : decode w = .error c) : c ≠ .ok := by
  rintro rfl
  rcases decode_cases w with ⟨i, hi, -⟩ | ⟨c, hc, hcode⟩
  · cases hi.symm.trans h
  · cases hc.symm.trans h
    simp at hcode

/-- Settles O1: each word by evaluating the decoder on it. -/
theorem specWordsDecode : Obligations.SpecWordsDecode := by
  unfold Obligations.SpecWordsDecode
  decide

/-- Settles O2: a word decodes to a command exactly if it is that command's word, and a command has
one word. -/
theorem decodeEncodeRoundTrip : Obligations.DecodeEncodeRoundTrip := by
  refine ⟨fun i hwf => decode_eq_ok_iff.2 (isWordOf_encode hwf), fun w i h => ?_⟩
  have hword : IsWordOf w i := decode_eq_ok_iff.1 h
  exact ⟨hword.wellFormed, hword.encode_eq⟩

/-- Settles O3: each clause is one outcome of the decoder, its fields read as numbers. -/
theorem everyWordDecodesByPriority : Obligations.EveryWordDecodesByPriority := by
  intro w
  simp only [← opcField_toNat, ← midxField_toNat, ← rsvField_toNat, ne_eq, ← rsvField_eq_zero,
    ← midxField_eq_zero]
  refine ⟨decode_of_opcode_gt, decode_of_rsv_ne_zero, fun hopc hrsv h6 h9 => ?_, decode_of_midx_ge,
    fun hopc hrsv hplain hmasked => ?_⟩
  · exact decode_of_midx_ne_zero hopc hrsv (not_or.2 ⟨h6, h9⟩)
  · have hword : ∃ i, decode w = .ok i ∧ IsWordOf w i := by
      by_cases hmask : TakesMask (opcField w).toNat
      · exact decode_of_midx_lt hrsv hmask (hmasked hmask)
      · exact decode_of_midx_eq_zero hopc hrsv hmask (hplain (not_or.1 hmask))
    obtain ⟨i, hdec, hi⟩ := hword
    exact ⟨i, hdec, congrArg BitVec.toNat hi.opc.symm, congrArg BitVec.toNat hi.midx.symm⟩

end Sys2Proof

namespace Sys2Proof.Machine

/-! A completion (R112). -/

theorem completed_complete (s : State) (c : ErrCode) : Completed s (s.complete c) (errByte c) :=
  ⟨rfl, rfl, rfl, rfl, rfl⟩

/-- A word that decodes to an error completes with its code and no other effect (R95, R250). -/
theorem engineStep_error {s : State} {c : ErrCode} (hbusy : s.status.busy = true)
    (hdec : decode s.cmd = .error c) : engineStep s = .next (s.complete c) := by
  unfold engineStep
  rw [if_pos hbusy, hdec]
  exact finish_error (ne_ok_of_decode_eq_error hdec) id s

/-- Settles O5: the step is the engine's turn, which completes with the error's nonzero code. -/
theorem illegalWordCompletesWithCode : Obligations.IllegalWordCompletesWithCode := by
  intro s ts c hhosts hsched hbusy hdec
  have hne : c ≠ .ok := ne_ok_of_decode_eq_error hdec
  have hstep : step s = .next (State.complete { s with schedule := ts } c) :=
    (step_engineTurn hhosts hsched).trans (engineStep_error hbusy hdec)
  exact ⟨_, hstep, completed_complete { s with schedule := ts } c, mt errByte_eq_zero.1 hne, rfl,
    State.readByte_complete { s with schedule := ts } c⟩

end Sys2Proof.Machine
end

section
/-!
PROOFS. The life of a command, from the write to CMD through the engine's turn to its completion,
and the two control commands (O4, O6, O7, O12, O13).
-/
namespace Sys2Proof.Machine

/-! The encoding of a command without a mask index (R91, R94). -/

/-- Beside an opcode that takes no mask index every other bit of the word is reserved. -/
theorem decode_of_high_bits {w : Word} (hopc : (opcField w).toNat ≤ 10)
    (hmask : ¬ TakesMask (opcField w).toNat) (hhigh : 256 ≤ w.toNat) :
    decode w = .error .reservedBits := by
  by_cases hrsv : rsvField w = 0
  · refine decode_of_midx_ne_zero hopc hrsv hmask fun hmidx => ?_
    rw [rsvField_eq_zero, rsvField_toNat] at hrsv
    rw [midxField_eq_zero, midxField_toNat] at hmidx
    omega
  · exact decode_of_rsv_ne_zero hopc hrsv

theorem plainEncoding_of_decode {i : Instr} {opc : Nat}
    (hdec : decode (BitVec.ofNat 32 opc) = .ok i) (hopc : opc ≤ 10) (hmask : ¬ TakesMask opc) :
    PlainEncoding i opc := by
  refine ⟨hdec, fun w hlow hhigh => ?_⟩
  rw [← opcField_toNat] at hlow
  subst hlow
  exact decode_of_high_bits hopc hmask hhigh

/-! The write to CMD (R110, R67). -/

/-- Settles O6: CMD is a writable register that BUSY gates. -/
theorem cmdWriteIsAccepted : Obligations.CmdWriteIsAccepted := by
  intro s w
  exact ⟨fun hidle => busWrite_reg (r := .cmd) rfl w (.inl hidle),
    fun hbusy => busWrite_gatedReg_busy hbusy w (by decide)⟩

/-! The engine's turn (R111, R112). -/

theorem engineStep_idle {s : State} (hidle : s.status.busy = false) : engineStep s = .next s := by
  simp [engineStep, hidle]

theorem engineStep_decoded {s : State} {i : Instr} (hbusy : s.status.busy = true)
    (hdec : decode s.cmd = .ok i) : engineStep s = exec i s := by
  simp [engineStep, hbusy, hdec]

/-- Settles O4: either way the step is the engine's turn, which runs the decoded word. -/
theorem stepRunsDecodedCommand : Obligations.StepRunsDecodedCommand := by
  refine ⟨fun s ts i hhosts hsched hbusy hdec => ?_, fun s i hhosts hsched hbusy hdec => ?_⟩
  · rw [step_engineTurn hhosts hsched]
    exact engineStep_decoded hbusy hdec
  · rw [step_defaultTurn hhosts hsched, if_pos hbusy]
    exact engineStep_decoded hbusy hdec

/-! Completion (R112). -/

/-- An effect that leaves the flags alone does not show in how the command completes. -/
theorem completed_complete_of_status {s u : State} (hstatus : u.status = s.status) (c : ErrCode) :
    Completed s (u.complete c) (errByte c) :=
  ⟨rfl, rfl, rfl, by simp [hstatus], by simp [hstatus]⟩

/-- Settles O7: whether or not a check fails, the command ends in a completion, and neither that nor
its effect writes what the statement lists. -/
theorem everyCommandCompletes : Obligations.EveryCommandCompletes := by
  intro i s
  by_cases hc : checkOf i s = .ok
  · obtain ⟨hstatus, hkept⟩ := effectOf_keeps i s
    exact ⟨_, exec_ok hc, completed_complete_of_status hstatus .ok, errByte_le .ok,
      engineStep_idle rfl, hkept⟩
  · exact ⟨_, exec_error hc, completed_complete s _, errByte_le _, engineStep_idle rfl,
      rfl, rfl, rfl, rfl, rfl, rfl, rfl, rfl, rfl, rfl, rfl⟩

/-! NOP and GRID_CLEAR (R113, R114). -/

/-- Settles O12: NOP has no check and no effect, so that only the completion is left. -/
theorem nopOnlyCompletes : Obligations.NopOnlyCompletes := by
  refine ⟨plainEncoding_of_decode rfl (by decide) (by unfold TakesMask; decide), fun s => ?_⟩
  exact ⟨_, exec_ok rfl, completed_complete s .ok, rfl, State.readByte_complete s .ok⟩

/-- Settles O13: the mapped cells are exactly the bytes that GRID_CLEAR's memory replaces. -/
theorem gridClearZeroesTheGrid : Obligations.GridClearZeroesTheGrid := by
  refine ⟨plainEncoding_of_decode rfl (by decide) (by unfold TakesMask; decide), fun s => ?_⟩
  refine ⟨_, exec_ok rfl, completed_complete_of_status rfl .ok, fun x y hx hy => ?_,
    fun a ha => ?_, rfl⟩
  · exact (State.readByte_cell _ hx hy).trans
      (congrArg some (Memory.byteAt_fillGrid s.mem (fun _ _ => 0) hx hy))
  · have hcell : isGridCell a = false := Bool.eq_false_iff.2 (mt (isGridCell_iff a).1 ha)
    exact s.readByte_fillGrid_outside (fun _ _ => 0) hcell

end Sys2Proof.Machine
end

section
/-!
PROOFS. The field (O14 to O16): the product is additive on both sides, so that its laws need checking on
the powers of x only; the powers of 0x02 are all nonzero bytes, and multiplying them adds exponents.
-/
namespace Sys2Proof.Machine

/-! XOR through the folds of R122. -/

@[simp] theorem gfAdd_eq_xor (a b : Byte) : gfAdd a b = a ^^^ b := rfl

theorem xor_xor_xor_comm {w : Nat} (a b c d : BitVec w) :
    (a ^^^ b) ^^^ (c ^^^ d) = (a ^^^ c) ^^^ (b ^^^ d) := by ac_rfl

/-- A fold whose step is additive is additive. -/
theorem foldl_xor {w : Nat} {f g h : BitVec w → Nat → BitVec w}
    (hstep : ∀ p q i, h (p ^^^ q) i = f p i ^^^ g q i) (l : List Nat) (p q : BitVec w) :
    l.foldl h (p ^^^ q) = l.foldl f p ^^^ l.foldl g q := by
  induction l generalizing p q with
  | nil => rfl
  | cons i l ih => rw [List.foldl_cons, hstep, ih, List.foldl_cons, List.foldl_cons]

/-- Adding `v` where the sum of two bits says so. -/
theorem ite_xor_xor {w : Nat} (b c : Bool) (p q v : BitVec w) :
    (if b ^^ c then (p ^^^ q) ^^^ v else p ^^^ q) =
      (if b then p ^^^ v else p) ^^^ (if c then q ^^^ v else q) := by
  cases b <;> cases c
  · rfl
  · exact BitVec.xor_assoc p q v
  · change p ^^^ q ^^^ v = p ^^^ v ^^^ q
    ac_rfl
  · change p ^^^ q = p ^^^ v ^^^ (q ^^^ v)
    rw [xor_xor_xor_comm, BitVec.xor_self, BitVec.xor_zero]

theorem clmul_xor_left (a b c : Byte) : clmul (a ^^^ b) c = clmul a c ^^^ clmul b c := by
  refine foldl_xor (fun p q i => ?_) _ 0 0
  cases c.getLsbD i
  · rfl
  · simp only [if_true, BitVec.setWidth_xor, BitVec.shiftLeft_xor_distrib]
    exact xor_xor_xor_comm ..

theorem clmul_xor_right (a b c : Byte) : clmul a (b ^^^ c) = clmul a b ^^^ clmul a c := by
  refine foldl_xor (fun p q i => ?_) _ 0 0
  rw [BitVec.getLsbD_xor]
  exact ite_xor_xor ..

theorem gfReduce_xor (p q : BitVec 16) : gfReduce (p ^^^ q) = gfReduce p ^^^ gfReduce q := by
  refine foldl_xor (fun p q k => ?_) _ p q
  rw [BitVec.getLsbD_xor]
  exact ite_xor_xor ..

/-- The product distributes over XOR on the left (R132). -/
theorem gfMul_xor_left (a b c : Byte) : gfMul (a ^^^ b) c = gfMul a c ^^^ gfMul b c := by
  unfold gfMul
  rw [clmul_xor_left, gfReduce_xor, BitVec.setWidth_xor]

/-- The product distributes over XOR on the right (R132). -/
theorem gfMul_xor_right (a b c : Byte) : gfMul a (b ^^^ c) = gfMul a b ^^^ gfMul a c := by
  unfold gfMul
  rw [clmul_xor_right, gfReduce_xor, BitVec.setWidth_xor]

@[simp] theorem zero_gfMul (b : Byte) : gfMul 0#8 b = 0#8 := by
  simpa using gfMul_xor_left 0 0 b

@[simp] theorem gfMul_zero (a : Byte) : gfMul a 0#8 = 0#8 := by
  simpa using gfMul_xor_right a 0 0

/-- A byte is the XOR of its powers of x, so what holds of 0 and is kept when a power is added holds of
every byte (R120). -/
theorem byte_xor_induction {P : Byte → Prop} (zero : P 0)
    (xor_bit : ∀ p, ∀ i < 8, P p → P (p ^^^ (1#8 <<< i))) (b : Byte) : P b := by
  have hsum : ∀ b : Byte,
      (List.range 8).foldl (fun p i => if b.getLsbD i then p ^^^ (1#8 <<< i) else p) 0 = b := by
    decide +kernel
  rw [← hsum b]
  refine List.foldlRecOn _ _ zero fun p hp i hi => ?_
  split
  · exact xor_bit p i (List.mem_range.1 hi) hp
  · exact hp

@[simp] theorem gfMul_one (a : Byte) : gfMul a 1#8 = a := by
  induction a using byte_xor_induction with
  | zero => rfl
  | xor_bit p i hi ih =>
    have hbit : ∀ i < 8, gfMul (1#8 <<< i) 1#8 = 1#8 <<< i := by decide
    rw [gfMul_xor_left, ih, hbit i hi]

/-- Multiplying by x is associative with the product: additive on both sides, it has to hold of powers
of x only. -/
theorem gfMul_gfMul_two (a b : Byte) : gfMul a (gfMul b 2) = gfMul (gfMul a b) 2 := by
  have hbits : ∀ i < 8, ∀ j < 8,
      gfMul (1#8 <<< i) (gfMul (1#8 <<< j) 2) = gfMul (gfMul (1#8 <<< i) (1#8 <<< j)) 2 := by
    decide +kernel
  have hbit : ∀ i < 8, gfMul (1#8 <<< i) (gfMul b 2) = gfMul (gfMul (1#8 <<< i) b) 2 := by
    intro i hi
    induction b using byte_xor_induction with
    | zero => simp
    | xor_bit q j hj ih => simp only [gfMul_xor_left, gfMul_xor_right, ih, hbits i hi j hj]
  induction a using byte_xor_induction with
  | zero => simp
  | xor_bit p i hi ih => simp only [gfMul_xor_left, ih, hbit i hi]

/-! Powers of 0x02 (R123). -/

/-- Multiplying powers adds their exponents. -/
theorem gfMul_gfExp (i j : Nat) : gfMul (gfExp i) (gfExp j) = gfExp (i + j) := by
  induction j with
  | zero => exact gfMul_one _
  | succ j ih => rw [gfExp, gfMul_gfMul_two, ih]; rfl

open Function

/-- EXP repeats multiplication by 0x02 (R123). -/
theorem gfExp_eq_iterate (i : Nat) : gfExp i = (gfMul · 2)^[i] 1 := by
  induction i with
  | zero => rfl
  | succ i ih => rw [iterate_succ_apply', ← ih]; rfl

/-- EXP at the largest proper divisors of 255 and at 255, by adding exponents (R130). -/
theorem gfExp_divisors : (∀ n ∈ [15, 51, 85], gfExp n ≠ 1) ∧ gfExp 255 = 1 := by
  have h15 : gfExp 15 = 0x26 := by decide +kernel
  have h17 : gfExp 17 = 0x98 := by decide +kernel
  have h51 : gfExp (17 + (17 + 17)) = 0x0A := by
    rw [← gfMul_gfExp, ← gfMul_gfExp, h17]
    decide +kernel
  have h85 : gfExp (17 + (17 + 51)) = 0xD6 := by
    rw [← gfMul_gfExp, ← gfMul_gfExp, h17, h51]
    decide +kernel
  have h255 : gfExp (85 + (85 + 85)) = 1 := by
    rw [← gfMul_gfExp, ← gfMul_gfExp, h85]
    decide +kernel
  exact ⟨by simp [h15, h51, h85], h255⟩

/-- x has order 255 modulo 0x11D (R123): 255 is a period, and no largest proper divisor of 255 is. -/
theorem minimalPeriod_gfMul_two : minimalPeriod (gfMul · 2) (1 : Byte) = 255 := by
  obtain ⟨hne, h255⟩ := gfExp_divisors
  have hperiod {n : Nat} : IsPeriodicPt (gfMul · 2) n (1 : Byte) ↔ gfExp n = 1 := by
    rw [gfExp_eq_iterate]
    rfl
  have hlargest : ∀ n ∈ Nat.properDivisors 255, ∃ m ∈ [15, 51, 85], n ∣ m := by decide
  have hdvd := (hperiod.2 h255).minimalPeriod_dvd
  by_contra hsmaller
  obtain ⟨m, hm, hdvdm⟩ := hlargest _ (Nat.mem_properDivisors.2
    ⟨hdvd, lt_of_le_of_ne (Nat.le_of_dvd (by decide) hdvd) hsmaller⟩)
  exact hne m hm (hperiod.1 ((isPeriodicPt_minimalPeriod _ _).trans_dvd hdvdm))

theorem gfExp_mod (i : Nat) : gfExp (i % 255) = gfExp i := by
  rw [gfExp_eq_iterate, gfExp_eq_iterate, ← minimalPeriod_gfMul_two, iterate_mod_minimalPeriod_eq]

theorem gfExp_injOn : Set.InjOn gfExp (Set.Iio 255) := by
  rw [funext gfExp_eq_iterate, ← minimalPeriod_gfMul_two]
  exact iterate_injOn_Iio_minimalPeriod

/-- `α^(254 i)` is the inverse of `α^i`. -/
theorem gfMul_gfExp_inverse (i : Nat) : gfMul (gfExp i) (gfExp (254 * i)) = 1 := by
  rw [gfMul_gfExp, ← gfExp_mod, show (i + 254 * i) % 255 = 0 by omega]
  rfl

theorem gfExp_ne_zero (i : Nat) : gfExp i ≠ 0#8 := by
  intro h
  have hinv := gfMul_gfExp_inverse i
  rw [h, zero_gfMul] at hinv
  exact absurd hinv (by decide)

/-- 255 different powers and 0 are all the bytes there are. -/
theorem exists_gfExp {a : Byte} (ha : a ≠ 0#8) : ∃ i < 255, gfExp i = a := by
  have hzero : 0#8 ∉ (Finset.range 255).image gfExp := by
    simp [gfExp_ne_zero]
  have hinj : Set.InjOn gfExp (Finset.range 255) := by
    rw [Finset.coe_range]
    exact gfExp_injOn
  have hcard : (insert 0#8 ((Finset.range 255).image gfExp)).card = Fintype.card Byte := by
    rw [Finset.card_insert_of_notMem hzero, Finset.card_image_of_injOn hinj, Finset.card_range]
    exact FinEnum.card_eq_fintypeCard (α := Byte)
  have hmem : a ∈ insert 0#8 ((Finset.range 255).image gfExp) :=
    Finset.eq_univ_of_card _ hcard ▸ Finset.mem_univ a
  simpa [ha] using hmem

theorem eq_zero_or_gfExp (a : Byte) : a = 0#8 ∨ ∃ i, gfExp i = a := by
  by_cases ha : a = 0#8
  · exact .inl ha
  · obtain ⟨i, -, hi⟩ := exists_gfExp ha
    exact .inr ⟨i, hi⟩

/-! The laws (R132). -/

theorem gfMul_comm (a b : Byte) : gfMul a b = gfMul b a := by
  obtain rfl | ⟨i, rfl⟩ := eq_zero_or_gfExp a
  · rw [zero_gfMul, gfMul_zero]
  obtain rfl | ⟨j, rfl⟩ := eq_zero_or_gfExp b
  · rw [zero_gfMul, gfMul_zero]
  rw [gfMul_gfExp, gfMul_gfExp, Nat.add_comm]

@[simp] theorem one_gfMul (b : Byte) : gfMul 1#8 b = b := (gfMul_comm _ _).trans (gfMul_one b)

theorem gfMul_assoc (a b c : Byte) : gfMul (gfMul a b) c = gfMul a (gfMul b c) := by
  obtain rfl | ⟨i, rfl⟩ := eq_zero_or_gfExp a
  · simp only [zero_gfMul]
  obtain rfl | ⟨j, rfl⟩ := eq_zero_or_gfExp b
  · simp only [zero_gfMul, gfMul_zero]
  obtain rfl | ⟨k, rfl⟩ := eq_zero_or_gfExp c
  · simp only [gfMul_zero]
  simp only [gfMul_gfExp, Nat.add_assoc]

/-! The log table (R123). -/

/-- LOG of a byte is an index below 255 that EXP takes to it (R123). -/
theorem gfLog_eq_some {v : Byte} {i : Nat} (h : gfLog v = some i) : i < 255 ∧ gfExp i = v := by
  unfold gfLog at h
  exact ⟨List.mem_range.1 (List.mem_of_find?_eq_some h), by simpa using List.find?_some h⟩

theorem gfLog_gfExp {i : Nat} (hi : i < 255) : gfLog (gfExp i) = some i := by
  have hsome : (gfLog (gfExp i)).isSome := by
    rw [gfLog, List.find?_isSome]
    exact ⟨i, List.mem_range.2 hi, beq_self_eq_true _⟩
  obtain ⟨j, hj⟩ := Option.isSome_iff_exists.1 hsome
  obtain ⟨hlt, heq⟩ := gfLog_eq_some hj
  rw [hj, gfExp_injOn hlt hi heq]

/-- Settles O14: every nonzero byte is a power of 0x02, and exponents add. -/
theorem productAgreesWithLogTables : Obligations.ProductAgreesWithLogTables := by
  refine ⟨rfl, fun _ => rfl, fun v hv => ?_, fun a b h => ?_, fun a b i j ha hb => ?_⟩
  · obtain ⟨i, hi, rfl⟩ := exists_gfExp hv
    exact ⟨i, gfLog_gfExp hi, hi, rfl, fun j hj => gfExp_injOn hj hi⟩
  · rcases h with rfl | rfl
    · exact zero_gfMul b
    · exact gfMul_zero a
  · rw [gfExp_mod, ← gfMul_gfExp, (gfLog_eq_some ha).2, (gfLog_eq_some hb).2]

/-- Settles O15: by the order of 0x02. -/
theorem primitiveElementHasOrder255 : Obligations.PrimitiveElementHasOrder255 := by
  refine ⟨fun i => ?_, gfExp_ne_zero, fun i j hi hj => gfExp_injOn hi hj⟩
  rw [← gfExp_mod (i + 255), Nat.add_mod_right, gfExp_mod]

/-- Settles O16: distributivity from R122's folds, the rest from adding exponents. -/
theorem fieldLaws : Obligations.FieldLaws := by
  refine ⟨gfMul_comm, gfMul_assoc, gfMul_xor_right, one_gfMul, fun a ha => ?_, fun a b => ?_, rfl⟩
  · obtain ⟨i, -, rfl⟩ := exists_gfExp ha
    exact ⟨_, gfMul_gfExp_inverse i⟩
  · simp only [gfAdd_eq_xor, gfMul_xor_left, gfMul_xor_right, gfMul_comm b a]
    rw [BitVec.xor_assoc, ← BitVec.xor_assoc (gfMul a b), BitVec.xor_self, BitVec.zero_xor]

end Sys2Proof.Machine
end

section
/-!
PROOFS. The generator polynomial and the Reed-Solomon remainder (O18, O20, O21): values and coefficients
of the polynomials, and the shift register as long division, one message byte at a time.
-/
namespace Sys2Proof.Machine

/-! Values of polynomials (R124). -/

/-- One step of Horner's rule at `z`. -/
def hornerStep (z acc c : Byte) : Byte := gfMul acc z ^^^ c

theorem polyEval_eq_foldl (p : List Byte) (z : Byte) :
    polyEval p z = p.foldl (hornerStep z) 0#8 := rfl

theorem hornerStep_gfMul (r z acc c : Byte) :
    hornerStep z (gfMul acc r) (gfMul c r) = gfMul (hornerStep z acc c) r := by
  unfold hornerStep
  rw [gfMul_xor_left, gfMul_assoc, gfMul_assoc, gfMul_comm r z]

theorem hornerStep_xor (z a b c d : Byte) :
    hornerStep z (a ^^^ b) (c ^^^ d) = hornerStep z a c ^^^ hornerStep z b d := by
  unfold hornerStep
  rw [gfMul_xor_left, xor_xor_xor_comm]

theorem polyEval_append_zero (p : List Byte) (z : Byte) :
    polyEval (p ++ [0]) z = gfMul (polyEval p z) z := by
  simp [polyEval]

theorem polyEval_cons_zero (p : List Byte) (z : Byte) : polyEval (0 :: p) z = polyEval p z := by
  simp [polyEval]

theorem polyEval_map_gfMul (p : List Byte) (r z : Byte) :
    polyEval (p.map (gfMul · r)) z = gfMul (polyEval p z) r := by
  calc polyEval (p.map (gfMul · r)) z
      = p.foldl (fun acc c => hornerStep z acc (gfMul c r)) (gfMul 0#8 r) := by
        rw [polyEval_eq_foldl, List.foldl_map, zero_gfMul]
    _ = gfMul (polyEval p z) r := List.foldl_hom (gfMul · r) (hornerStep_gfMul r z)

/-- Horner's rule from the sum of two starts along the sum of two polynomials. -/
theorem foldl_hornerStep_zipWith (z : Byte) {p q : List Byte} (h : p.length = q.length) (a b : Byte) :
    (List.zipWith gfAdd p q).foldl (hornerStep z) (a ^^^ b) =
      p.foldl (hornerStep z) a ^^^ q.foldl (hornerStep z) b := by
  induction p generalizing q a b with
  | nil =>
    obtain rfl := List.length_eq_zero_iff.1 h.symm
    rfl
  | cons c p ih =>
    obtain ⟨d, q, rfl⟩ := List.exists_cons_of_length_eq_add_one h.symm
    simp only [List.zipWith_cons_cons, List.foldl_cons, gfAdd_eq_xor, hornerStep_xor]
    exact ih (Nat.succ.inj h) _ _

theorem polyEval_zipWith_gfAdd {p q : List Byte} (h : p.length = q.length) (z : Byte) :
    polyEval (List.zipWith gfAdd p q) z = polyEval p z ^^^ polyEval q z :=
  foldl_hornerStep_zipWith z h 0 0

/-- One factor (x - r) more. -/
theorem polyEval_genStep (g : List Byte) (r z : Byte) :
    polyEval (genStep g r) z = gfMul (polyEval g z) (z ^^^ r) := by
  rw [genStep, polyEval_zipWith_gfAdd (by simp), polyEval_append_zero, polyEval_cons_zero,
    polyEval_map_gfMul, gfMul_xor_right]

/-! The generator (R124). -/

theorem genPoly_eq_cons (d : Nat) : genPoly d = 1 :: (genPoly d).tail := by
  induction d with
  | zero => rfl
  | succ d ih =>
    rw [genPoly_succ, ih]
    rfl

theorem polyEval_genPoly_root {d i : Nat} (hi : i < d) : polyEval (genPoly d) (gfExp i) = 0#8 := by
  induction d with
  | zero => omega
  | succ d ih =>
    rw [genPoly_succ, polyEval_genStep]
    rcases Nat.lt_succ_iff_lt_or_eq.1 hi with hlt | rfl
    · rw [ih hlt, zero_gfMul]
    · rw [BitVec.xor_self, gfMul_zero]

/-- Settles O18: by induction on d, a new factor brings its root and keeps those of the others. -/
theorem generatorIsMonicWithRoots : Obligations.GeneratorIsMonicWithRoots := by
  intro d
  exact ⟨genPoly_length d, congrArg List.head? (genPoly_eq_cons d), fun i => polyEval_genPoly_root⟩

/-! Coefficients (R124, R125). -/

theorem polyCoeff_append (p q : List Byte) (k : Nat) :
    polyCoeff (p ++ q) k = if k < q.length then polyCoeff q k else polyCoeff p (k - q.length) := by
  unfold polyCoeff
  rw [List.reverse_append]
  split
  · rw [List.getD_append _ _ _ _ (by simpa)]
  · rw [List.getD_append_right _ _ _ _ (by simpa using Nat.le_of_not_lt ‹_›), List.length_reverse]

theorem polyCoeff_of_length_le {p : List Byte} {k : Nat} (h : p.length ≤ k) : polyCoeff p k = 0#8 :=
  List.getD_eq_default _ _ (by simpa)

theorem polyCoeff_replicate_zero (n k : Nat) : polyCoeff (List.replicate n 0) k = 0#8 := by
  rw [polyCoeff, List.reverse_replicate]
  exact List.getElem?_getD_replicate_default_eq (d := 0#8) n k

theorem polyCoeff_append_singleton_zero (p : List Byte) (c : Byte) : polyCoeff (p ++ [c]) 0 = c := by
  rw [polyCoeff_append]
  rfl

theorem polyCoeff_append_singleton_succ (p : List Byte) (c : Byte) (k : Nat) :
    polyCoeff (p ++ [c]) (k + 1) = polyCoeff p k := by
  rw [polyCoeff_append]
  rfl

theorem polyCoeff_cons (c : Byte) (p : List Byte) (k : Nat) :
    polyCoeff (c :: p) k = polyCoeff p k ^^^ if k = p.length then c else 0#8 := by
  rw [← List.singleton_append, polyCoeff_append]
  rcases Nat.lt_trichotomy k p.length with h | rfl | h
  · rw [if_pos h, if_neg h.ne, BitVec.xor_zero]
  · rw [if_neg (Nat.lt_irrefl _), if_pos rfl, polyCoeff_of_length_le le_rfl, Nat.sub_self]
    exact (BitVec.zero_xor).symm
  · rw [if_neg h.asymm, if_neg h.ne', polyCoeff_of_length_le h.le, polyCoeff_of_length_le]
    · rfl
    · simp only [List.length_singleton]
      omega

theorem polyCoeff_zipWith {f : Byte → Byte → Byte} (hf : f 0#8 0#8 = 0#8) {p q : List Byte}
    (h : p.length = q.length) (k : Nat) :
    polyCoeff (List.zipWith f p q) k = f (polyCoeff p k) (polyCoeff q k) := by
  unfold polyCoeff
  rw [List.reverse_zipWith h]
  by_cases hk : k < p.length
  · have hk' : k < q.length := h ▸ hk
    simp [hk, hk', List.getD_eq_getElem?_getD]
  · have hk' : ¬ k < q.length := h ▸ hk
    simp [hk, hk', List.getD_eq_getElem?_getD, hf]

/-! A quotient with one coefficient more. -/

theorem polyMulCoeff_append_singleton_zero (q g : List Byte) (c : Byte) :
    polyMulCoeff (q ++ [c]) g 0 = gfMul c (polyCoeff g 0) := by
  simp [polyMulCoeff, polyCoeff_append_singleton_zero]

theorem foldl_gfAdd_start (f : Nat → Byte) (l : List Nat) (c : Byte) :
    l.foldl (fun acc i => gfAdd acc (f i)) c = c ^^^ l.foldl (fun acc i => gfAdd acc (f i)) 0 := by
  induction l generalizing c with
  | nil => exact BitVec.xor_zero.symm
  | cons i l ih =>
    rw [List.foldl_cons, List.foldl_cons, ih, ih (gfAdd 0 (f i))]
    simp [BitVec.xor_assoc]

theorem polyMulCoeff_append_singleton_succ (q g : List Byte) (c : Byte) (k : Nat) :
    polyMulCoeff (q ++ [c]) g (k + 1) = gfMul c (polyCoeff g (k + 1)) ^^^ polyMulCoeff q g k := by
  unfold polyMulCoeff
  rw [List.range_succ_eq_map (n := k + 1), List.foldl_cons, List.foldl_map, foldl_gfAdd_start]
  simp [polyCoeff_append_singleton_zero, polyCoeff_append_singleton_succ]

/-! The shift register (R126). -/

/-- `r` is what remains of the polynomial `p` after some multiple of `g` is taken away (R125). -/
def IsRemainder (g p r : List Byte) : Prop :=
  ∃ q : List Byte, ∀ k, polyCoeff p k = gfAdd (polyMulCoeff q g k) (polyCoeff r k)

theorem polyCoeff_message_zero (msg : List Byte) {d : Nat} (hd : 1 ≤ d) :
    polyCoeff (msg ++ List.replicate d 0) 0 = 0#8 := by
  rw [polyCoeff_append, if_pos (by simpa), polyCoeff_replicate_zero]

/-- With a message byte more, `M(x) x^d` is multiplied by x, and the byte stands at x^d. -/
theorem polyCoeff_message_succ (msg : List Byte) (m : Byte) (d k : Nat) :
    polyCoeff (msg ++ [m] ++ List.replicate d 0) (k + 1) =
      polyCoeff (msg ++ List.replicate d 0) k ^^^ if k + 1 = d then m else 0#8 := by
  simp only [polyCoeff_append _ (List.replicate d 0), List.length_replicate, polyCoeff_replicate_zero]
  rcases Nat.lt_trichotomy (k + 1) d with h | rfl | h
  · simp [h, h.ne, Nat.lt_of_succ_lt h]
  · simp [polyCoeff_append_singleton_zero]
  · rw [if_neg (by omega), if_neg (by omega), if_neg (by omega), Nat.succ_sub (by omega),
      polyCoeff_append_singleton_succ, BitVec.xor_zero]

/-- One step of the shift register, coefficient by coefficient. -/
theorem polyCoeff_remStep {g rem : List Byte} (hlen : g.length = rem.length + 1) (c r m : Byte)
    (k : Nat) :
    polyCoeff (remStep (c :: g) (r :: rem) m) k = polyCoeff (rem ++ [0]) k ^^^
      gfMul (polyCoeff g k) (m ^^^ r) :=
  polyCoeff_zipWith (by simp) (by simp [hlen]) k

/-- Times a monic polynomial: its leading term puts the factor at x^d. -/
theorem gfMul_polyCoeff_monic (f : Byte) (g : List Byte) (k : Nat) :
    gfMul f (polyCoeff (1 :: g) k) =
      gfMul (polyCoeff g k) f ^^^ if k = g.length then f else 0#8 := by
  rw [polyCoeff_cons, gfMul_xor_right, gfMul_comm f]
  split <;> simp

/-- The coefficients of one step of long division: quotient `a`, remainder `b`, byte `c` shifted out,
message byte `d`, and the multiple `u` of the generator below x^d, which is added twice. -/
theorem divisionStep_xor (a b c d u : Byte) :
    a ^^^ (b ^^^ c) ^^^ d = u ^^^ (d ^^^ c) ^^^ a ^^^ (b ^^^ u) := by
  calc a ^^^ (b ^^^ c) ^^^ d
      = (u ^^^ u) ^^^ (a ^^^ (b ^^^ c) ^^^ d) := by rw [BitVec.xor_self, BitVec.zero_xor]
    _ = u ^^^ (d ^^^ c) ^^^ a ^^^ (b ^^^ u) := by ac_rfl

/-- One step of long division: the quotient's next coefficient is the byte fed back, which takes the
power x^d away. -/
theorem IsRemainder.remStep {g rem msg : List Byte} {r : Byte} (m : Byte)
    {d : Nat} (hg : g.length = d) (hrem : (r :: rem).length = d)
    (h : IsRemainder (1 :: g) (msg ++ List.replicate d 0) (r :: rem)) :
    IsRemainder (1 :: g) (msg ++ [m] ++ List.replicate d 0)
      (remStep (1 :: g) (r :: rem) m) := by
  obtain ⟨q, hq⟩ := h
  rw [List.length_cons] at hrem
  refine ⟨q ++ [m ^^^ r], fun k => ?_⟩
  rw [polyCoeff_remStep (hg.trans hrem.symm), gfAdd_eq_xor]
  cases k with
  | zero =>
    rw [polyCoeff_message_zero _ (by omega), polyMulCoeff_append_singleton_zero,
      polyCoeff_append_singleton_zero, gfMul_polyCoeff_monic, if_neg (by omega)]
    simp
  | succ k =>
    have hplace : k + 1 = d ↔ k = rem.length := by omega
    have hfeed : (if k = rem.length then m ^^^ r else 0#8) =
        (if k = rem.length then m else 0#8) ^^^ if k = rem.length then r else 0#8 := by
      split <;> rfl
    rw [polyCoeff_message_succ, hq, polyMulCoeff_append_singleton_succ, gfMul_polyCoeff_monic,
      polyCoeff_append_singleton_succ, polyCoeff_cons r]
    simp only [hg, hplace, hfeed, gfAdd_eq_xor]
    exact divisionStep_xor ..

theorem rsRem_nil (d : Nat) : rsRem [] d = List.replicate d 0 := rfl

theorem rsRem_append_singleton (msg : List Byte) (m : Byte) (d : Nat) :
    rsRem (msg ++ [m]) d = remStep (genPoly d) (rsRem msg d) m := by
  simp [rsRem]

theorem isRemainder_rsRem (msg : List Byte) {d : Nat} (hd : 1 ≤ d) :
    IsRemainder (genPoly d) (msg ++ List.replicate d 0) (rsRem msg d) := by
  induction msg using List.reverseRecOn with
  | nil => exact ⟨[], fun k => by simp [polyMulCoeff, rsRem_nil, polyCoeff]⟩
  | append_singleton msg m ih =>
    have hrem := rsRem_length msg hd
    have hgen : (genPoly d).tail.length = d := by simp
    rw [rsRem_append_singleton]
    obtain ⟨r, rem, hcons⟩ := List.exists_cons_of_length_pos (hrem ▸ hd)
    rw [hcons] at hrem ih ⊢
    rw [genPoly_eq_cons d] at ih ⊢
    exact ih.remStep m hgen hrem

/-- Settles O20: the quotient is the list of the bytes fed back. -/
theorem shiftRegisterIsRemainder : Obligations.ShiftRegisterIsRemainder :=
  fun msg d hd => ⟨rsRem_length msg hd, isRemainder_rsRem msg hd, rsRem_nil d⟩

/-! The shift register on zeros (R129). -/

/-- From an empty register the byte fed back is the message byte, which scales the generator. -/
theorem remStep_replicate_zero {g : List Byte} {d : Nat} (hg : g.length = d) (c m : Byte) :
    remStep (c :: g) (List.replicate d 0) m = g.map (gfMul · m) := by
  cases d with
  | zero =>
    obtain rfl := List.length_eq_zero_iff.1 hg
    rfl
  | succ d =>
    have hshift : (List.replicate (d + 1) (0 : Byte)).tail ++ [0] = List.replicate g.length 0 := by
      rw [hg, List.tail_replicate, ← List.replicate_succ']
      rfl
    rw [remStep, hshift, List.tail_cons, ← List.map_const', List.zipWith_map_left, List.zipWith_self]
    simp [List.replicate_succ]

theorem foldl_remStep_replicate_zero (n d : Nat) :
    (List.replicate n 0).foldl (remStep (genPoly d)) (List.replicate d 0) = List.replicate d 0 := by
  have hstep : remStep (genPoly d) (List.replicate d 0) 0 = List.replicate d 0 := by
    rw [genPoly_eq_cons, remStep_replicate_zero (by simp)]
    simp
  induction n with
  | zero => rfl
  | succ n ih => rw [List.replicate_succ, List.foldl_cons, hstep, ih]

/-- The generator of degree 1 is x + 1, so that a step adds the message byte. -/
theorem remStep_genPoly_one (r m : Byte) : remStep (genPoly 1) [r] m = [gfAdd r m] := by
  have hgen : genPoly 1 = [1, 1] := by decide
  simp [hgen, remStep, BitVec.xor_comm]

/-- Settles O21: zeros leave an empty register empty, and the first byte fed back scales `g_d`. -/
theorem remainderCornerCases : Obligations.RemainderCornerCases := by
  refine ⟨fun msg => ?_, fun n d => foldl_remStep_replicate_zero n d, fun d _ => ?_,
    fun msg n d => ?_⟩
  · exact List.foldl_hom (fun r => [r]) remStep_genPoly_one
  · change remStep (genPoly d) (List.replicate d 0) 1 = _
    rw [genPoly_eq_cons, remStep_replicate_zero (by simp)]
    simp
  · rw [rsRem, List.foldl_append, foldl_remStep_replicate_zero]
    rfl

end Sys2Proof.Machine
end

section
/-!
PROOFS. GF_MUL, GEN_POLY and RS_BLOCK (O17, O19, O22): what each writes once its checks have passed, and
the error each completes with otherwise.
-/
namespace Sys2Proof.Machine

/-! The operands as numbers (R92). -/

theorem State.opDegree_eq (s : State) : s.opDegree = s.arg1.toNat % 256 := by simp [State.opDegree]

theorem State.opLength_eq (s : State) : s.opLength = s.arg0.toNat % 65536 := by simp [State.opLength]

/-- The low byte of a register is its number modulo 256. -/
theorem extractLsb'_byte (w : Word) : w.extractLsb' 0 8 = BitVec.ofNat 8 (w.toNat % 256) :=
  BitVec.eq_of_toNat_eq (by simp)

/-! The checks that fail (R250, R252). -/

theorem checkDegree_eq_badDegree {s : State} (h : ¬ (1 ≤ s.opDegree ∧ s.opDegree ≤ 30)) :
    checkDegree s = .badDegree := if_neg h

theorem checkLength_eq_badLength {s : State} (h : 4096 < s.opLength) :
    checkLength s = .badLength := if_pos h

theorem checkOf_rsBlock_badDegree {s : State} (h : ¬ (1 ≤ s.opDegree ∧ s.opDegree ≤ 30)) :
    checkOf .rsBlock s = .badDegree := by
  rw [checkOf, checkDegree_eq_badDegree h]
  rfl

theorem checkOf_rsBlock_of_degree {s : State} (h : 1 ≤ s.opDegree ∧ s.opDegree ≤ 30) :
    checkOf .rsBlock s = checkLength s := by
  rw [checkOf, checkDegree_eq_ok.2 h]
  rfl

/-- A command whose checks answer an error completes with it and has no other effect. -/
theorem exec_completes_with_error {i : Instr} {s : State} {c : ErrCode} (hcheck : checkOf i s = c)
    (hc : c ≠ .ok) :
    ∃ t, exec i s = .next t ∧ Completed s t (errByte c) ∧ t = { s with status := t.status } ∧
      SameBytes s t := by
  subst hcheck
  exact ⟨_, exec_error hc, completed_complete s _, rfl, State.readByte_complete s _⟩

/-! The generator's registers (R34, R36, R128). -/

theorem genFile_getElem (d i : Nat) (h : i < 31) :
    (genFile d)[i] = if i ≤ d then (genPoly d).getD i 0 else 0 := fileOf_getElem 31 _ i h

theorem State.setGenerator_genDeg_toNat (s : State) {d : Nat} (h : d ≤ 30) :
    (s.setGenerator d).genDeg.toNat = d := by
  rw [State.setGenerator_genDeg, BitVec.toNat_ofNat]
  omega

/-- A message that DATA_BUF reads as is what RS_BLOCK takes from it (R38, R129). -/
theorem State.dataBytes_eq {s : State} {msg : List Byte} (hn : msg.length ≤ 4096)
    (h : ∀ i, i < msg.length → s.readByte (0x1000 + i) = msg[i]?) :
    s.dataBytes msg.length = msg := by
  rw [State.dataBytes, Memory.readBytes_eq]
  refine List.ext_getElem (by simp) fun i _ hi => ?_
  have hbuf : isBuffer (0x1000 + i) = true := isBuffer_dataAddr (by omega)
  have hbyte := h i hi
  rw [s.readByte_of_isBuffer hbuf, List.getElem?_eq_getElem hi, Option.some.injEq] at hbyte
  rw [List.getElem_map, List.getElem_range]
  exact hbyte

/-- Settles O17: GF_MUL has no check, and a byte fits RESULT. -/
theorem gfMulWritesProduct : Obligations.GfMulWritesProduct := by
  refine ⟨plainEncoding_of_decode rfl (by decide) (by unfold TakesMask; decide), fun s => ?_⟩
  refine ⟨_, exec_ok rfl, completed_complete_of_status rfl .ok, ?_, rfl, fun a => rfl⟩
  rw [State.complete_result, effectOf, State.setResult_result, State.opA, State.opB,
    extractLsb'_byte, extractLsb'_byte, BitVec.toNat_ofNat]
  omega

/-- Settles O19: d is checked first, and the effect writes GEN and GEN_DEG alone. -/
theorem genPolyBuildsGenerator : Obligations.GenPolyBuildsGenerator := by
  refine ⟨plainEncoding_of_decode rfl (by decide) (by unfold TakesMask; decide), fun s => ?_⟩
  rw [← s.opDegree_eq]
  refine ⟨fun hd => ?_, fun hd => ?_⟩
  · exact ⟨_, exec_ok (checkDegree_eq_ok.2 hd), completed_complete_of_status rfl .ok,
      s.setGenerator_genDeg_toNat hd.2, genFile_getElem s.opDegree, rfl, fun a => rfl⟩
  · exact exec_completes_with_error (i := .genPoly) (checkDegree_eq_badDegree hd) (by decide)

/-- Settles O22: d is checked before n, and the remainder of DATA_BUF goes to OUT_BUF. -/
theorem rsBlockWritesRemainder : Obligations.RsBlockWritesRemainder := by
  refine ⟨plainEncoding_of_decode rfl (by decide) (by unfold TakesMask; decide), fun s => ?_⟩
  rw [← s.opDegree_eq, ← s.opLength_eq]
  refine ⟨fun hd hn => ?_, fun hd => ?_, fun hd hn => ?_⟩
  · have hlen (msg : List Byte) : (rsRem msg s.opDegree).length = s.opDegree :=
      rsRem_length msg hd.1
    refine ⟨_, exec_ok ((checkOf_rsBlock_of_degree hd).trans (checkLength_eq_ok.2 hn)),
      completed_complete_of_status rfl .ok, fun msg hmsg hdata j hj => ?_, fun a ha => ?_,
      s.setGenerator_genDeg_toNat hd.2, genFile_getElem s.opDegree, rfl⟩
    · rw [← hmsg] at hdata hn
      rw [State.readByte_complete, effectOf, ← hmsg, State.dataBytes_eq hn hdata]
      exact State.readByte_writeOut _ _ (by rwa [hlen]) (by rw [hlen]; omega)
    · exact State.readByte_writeOut_outside _ _ ((hlen _).symm ▸ ha)
  · exact exec_completes_with_error (checkOf_rsBlock_badDegree hd) (by decide)
  · exact exec_completes_with_error
      ((checkOf_rsBlock_of_degree hd).trans (checkLength_eq_badLength hn)) (by decide)

end Sys2Proof.Machine
end

section
/-!
PROOFS. The capacity table and the registers derived from it, the block split, the interleave and
ECC_ENCODE (O23 to O28).
-/
namespace Sys2Proof.Machine

/-! The capacity table (R153 to R158). -/

/-- What the rows of the table show, version by version, holds of every valid version. -/
theorem forall_validVersion {P : Nat → Prop} (hall : ∀ v < 41, 1 ≤ v → P v) {v : Nat}
    (h : validVersion v) : P v := hall v (Nat.lt_succ_of_le h.2) h.1

/-- The ranges of the entries of the table, and of what R156 derives from them. -/
theorem blockTable_bounds {v : Nat} (h : validVersion v) (lv : Level) :
    7 ≤ eccPerBlock lv v ∧ eccPerBlock lv v ≤ 30 ∧ 1 ≤ numBlocks lv v ∧ numBlocks lv v ≤ 81 ∧
      shortDataLen lv v ≤ 122 ∧ numLong lv v ≤ 67 := by
  apply forall_validVersion (v := v) _ h
  cases lv <;> decide

/-- A stronger level never leaves more data codewords, and the extremes of the table (R155, R158). -/
theorem dataCw_order {v : Nat} (h : validVersion v) :
    dataCw .medium v ≤ dataCw .low v ∧ dataCw .quartile v ≤ dataCw .medium v ∧
      dataCw .high v ≤ dataCw .quartile v ∧ 9 ≤ dataCw .high v ∧ dataCw .low v ≤ 2956 ∧
      rawCw v ≤ 3706 := by
  apply forall_validVersion (v := v) _ h
  decide

/-- Data and EC codewords make up the symbol: the subtraction of R155 never cuts off. -/
theorem dataCw_add_ecc {v : Nat} (h : validVersion v) (lv : Level) :
    dataCw lv v + numBlocks lv v * eccPerBlock lv v = rawCw v := by
  rw [dataCw, Nat.mul_comm (numBlocks lv v)]
  exact Nat.sub_add_cancel (numBlocks_bounds h lv).2

/-- Settles O23: the ranges are read off the table, the sum is R155. -/
theorem capacityTableChecks : Obligations.CapacityTableChecks := by
  intro v hlt h1
  have hv : validVersion v := ⟨h1, Nat.le_of_lt_succ hlt⟩
  obtain ⟨hM, hQ, hH, h9, hL, hraw⟩ := dataCw_order hv
  refine ⟨hM, hQ, hH, h9, hL, hraw, fun lv _ => ?_⟩
  obtain ⟨hecc, hecc', hnb, hnb', hshort, hlong⟩ := blockTable_bounds hv lv
  exact ⟨hecc, hecc', hnb, hnb', dataCw_add_ecc hv lv, hshort, hlong⟩

/-! The derived registers (R35, R159). -/

theorem derived_valid {s : State} (h : validVersion s.version) (w : Word) : derived s w = w :=
  if_pos h

theorem derived_invalid {s : State} (h : ¬ validVersion s.version) (w : Word) : derived s w = 0 :=
  if_neg h

theorem append_byte_toNat {n : Nat} (x : BitVec n) (b : Byte) :
    (x ++ b).toNat = x.toNat * 2 ^ 8 + b.toNat := by
  rw [BitVec.toNat_append, ← Nat.shiftLeft_add_eq_or_of_lt b.isLt, Nat.shiftLeft_eq]

/-- Four bytes side by side as a number. -/
theorem append_bytes_toNat (a b c d : Byte) :
    (a ++ b ++ c ++ d).toNat =
      a.toNat * 2 ^ 24 + b.toNat * 2 ^ 16 + c.toNat * 2 ^ 8 + d.toNat := by
  simp only [append_byte_toNat]
  omega

/-- Each number of BLOCKS fits its byte (R159). -/
theorem blocksWord_toNat {v : Nat} (h : validVersion v) (lv : Level) :
    (blocksWord lv v).toNat = numLong lv v * 2 ^ 24 + shortDataLen lv v * 2 ^ 16 +
      eccPerBlock lv v * 2 ^ 8 + numBlocks lv v := by
  obtain ⟨-, hecc, -, hnb, hshort, hlong⟩ := blockTable_bounds h lv
  have hbyte {n : Nat} (hn : n ≤ 122) : (BitVec.ofNat 8 n).toNat = n :=
    Nat.mod_eq_of_lt (by omega)
  refine (append_bytes_toNat _ _ _ _).trans ?_
  rw [hbyte (by omega), hbyte hshort, hbyte (by omega), hbyte (by omega)]

/-- Settles O24: the four registers are not volatile, and every number fits its field. -/
theorem derivedRegistersFollowConfig : Obligations.DerivedRegistersFollowConfig := by
  intro s
  have hsize : busRead s 0x028 4 = (regValue s .size, s) := busRead_reg rfl (.inr rfl)
  have hraw : busRead s 0x02C 4 = (regValue s .rawCw, s) := busRead_reg rfl (.inr rfl)
  have hdata : busRead s 0x030 4 = (regValue s .dataCw, s) := busRead_reg rfl (.inr rfl)
  have hblocks : busRead s 0x034 4 = (regValue s .blocks, s) := busRead_reg rfl (.inr rfl)
  rw [hsize, hraw, hdata, hblocks]
  refine ⟨fun hv => ?_, fun hv => ?_⟩
  · have hword {n : Nat} (hn : n ≤ 4096) : (derived s (BitVec.ofNat 32 n)).toNat = n := by
      rw [derived_valid hv]
      exact Nat.mod_eq_of_lt (by omega)
    exact ⟨hword ((symbolSize_le hv).trans (by decide)), hword (rawCw_le hv),
      hword (dataCw_le hv s.level),
      (congrArg BitVec.toNat (derived_valid hv _)).trans (blocksWord_toNat hv s.level)⟩
  · exact ⟨derived_invalid hv _, derived_invalid hv _, derived_invalid hv _, derived_invalid hv _⟩

/-! The block split (R156). -/

theorem cutBlocks_eq_splitLengths (ns : List Nat) (data : List Byte) :
    cutBlocks ns data = ns.splitLengths data := by
  induction ns generalizing data with
  | nil => rfl
  | cons n ns ih => rw [cutBlocks, ih, List.splitLengths_cons]

/-- Block b starts where the blocks before it end. -/
theorem cutBlocks_getElem? (ns : List Nat) (data : List Byte) (b : Nat) :
    (cutBlocks ns data)[b]? = ns[b]?.map (fun n => (data.drop (ns.take b).sum).take n) := by
  induction ns generalizing data b with
  | nil => rfl
  | cons n ns ih =>
    cases b with
    | zero => rfl
    | succ b => simp [cutBlocks, ih, List.drop_drop]

theorem splitBlocks_flatten (data : List Byte) {nb : Nat} (hnb : 0 < nb) :
    (splitBlocks data nb).flatten = data := by
  rw [splitBlocks, cutBlocks_eq_splitLengths]
  exact List.flatten_splitLengths _ _ (blockLens_sum data.length hnb).ge

theorem blockLens_getElem? (total : Nat) {nb b : Nat} (h : b < nb) :
    (blockLens total nb)[b]? = some (total / nb + if nb - total % nb ≤ b then 1 else 0) := by
  simp [blockLens, h]

/-- The codewords before block b. -/
theorem blockLens_take_sum (total : Nat) {nb b : Nat} (h : b ≤ nb) :
    ((blockLens total nb).take b).sum = b * (total / nb) + (b - (nb - total % nb)) := by
  rw [blockLens, ← List.map_take, List.take_range, Nat.min_eq_left h, sum_range_longer]

/-- The place and the length of block b. -/
theorem splitBlocks_getElem? (data : List Byte) {nb b : Nat} (h : b < nb) :
    (splitBlocks data nb)[b]? =
      some ((data.drop (b * (data.length / nb) + (b - (nb - data.length % nb)))).take
        (data.length / nb + if nb - data.length % nb ≤ b then 1 else 0)) := by
  rw [splitBlocks, cutBlocks_getElem?, blockLens_getElem? _ h, blockLens_take_sum _ h.le]
  rfl

theorem splitBlocks_getElem_length (data : List Byte) {nb : Nat} (hnb : 0 < nb) {b : Nat}
    (h : b < (splitBlocks data nb).length) :
    ((splitBlocks data nb)[b]).length =
      data.length / nb + (if nb - data.length % nb ≤ b then 1 else 0) := by
  have hlen := blockLens_getElem? data.length (splitBlocks_length data nb ▸ h)
  rw [← splitBlocks_map_length data hnb, List.getElem?_map, List.getElem?_eq_getElem h] at hlen
  exact Option.some.inj hlen

/-- Settles O25: the lengths of R156 add up to the data's. -/
theorem splitGivesNearEqualBlocks : Obligations.SplitGivesNearEqualBlocks :=
  fun data nb hnb => ⟨splitBlocks_length data nb, splitBlocks_flatten data hnb,
    fun _ h => splitBlocks_getElem_length data hnb h⟩

/-- Settles O26: the blocks hold every data codeword, and each has E EC codewords. -/
theorem interleaveLength : Obligations.InterleaveLength :=
  fun data _ _ hnb he => interleave_length data hnb he

/-! The columns of the interleave (R157). -/

theorem columnsOf_succ (blocks : List (List Byte)) (i : Nat) :
    columnsOf blocks (i + 1) = columnsOf blocks i ++ blocks.filterMap (fun b => b[i]?) := by
  simp [columnsOf, List.range_succ]

theorem columnsOf_eq_append (blocks : List (List Byte)) {i n : Nat} (h : i ≤ n) :
    ∃ rest, columnsOf blocks n = columnsOf blocks i ++ rest := by
  obtain ⟨m, rfl⟩ := Nat.exists_eq_add_of_le h
  rw [columnsOf, List.range_add, List.flatMap_append]
  exact ⟨_, rfl⟩

/-- Columns that no block is too short for hold one codeword of each. -/
theorem columnsOf_length_of_ge {blocks : List (List Byte)} {i : Nat}
    (h : ∀ b ∈ blocks, i ≤ b.length) : (columnsOf blocks i).length = i * blocks.length := by
  rw [columnsOf_length, List.map_congr_left fun b hb => min_eq_right (h b hb), List.map_const',
    List.sum_replicate, smul_eq_mul, Nat.mul_comm]

/-- Where `f` keeps every entry, `filterMap` keeps every place. -/
theorem filterMap_getElem?_of_isSome {α β : Type} {f : α → Option β} {l : List α}
    (h : ∀ a ∈ l, (f a).isSome) (j : Nat) : (l.filterMap f)[j]? = l[j]?.bind f := by
  induction l generalizing j with
  | nil => rfl
  | cons a l ih =>
    obtain ⟨c, hc⟩ := Option.isSome_iff_exists.1 (h a List.mem_cons_self)
    rw [List.filterMap_cons_some hc]
    cases j with
    | zero => exact hc.symm
    | succ j => exact ih (fun a' ha' => h a' (List.mem_cons_of_mem _ ha')) j

/-- Column i skips the first k blocks, which are too short for it, and no block after them. -/
theorem column_getElem? {blocks : List (List Byte)} {i k b : Nat}
    (hlong : ∀ j (h : j < blocks.length), i < blocks[j].length ↔ k ≤ j) (hb : k ≤ b) :
    (blocks.filterMap (fun blk => blk[i]?))[b - k]? = blocks[b]?.bind (fun blk => blk[i]?) := by
  have hskip : (blocks.take k).filterMap (fun blk => blk[i]?) = [] := by
    refine List.filterMap_eq_nil_iff.2 fun blk hmem => List.getElem?_eq_none ?_
    obtain ⟨j, hj, rfl⟩ := List.mem_take_iff_getElem.1 hmem
    have := hlong j (by omega)
    omega
  have hkeep : ∀ blk ∈ blocks.drop k, (blk[i]?).isSome := by
    intro blk hmem
    obtain ⟨j, hj, rfl⟩ := List.mem_drop_iff_getElem.1 hmem
    have hlt : i < blocks[k + j].length := (hlong (k + j) _).2 (Nat.le_add_right k j)
    simp [hlt]
  conv_lhs => rw [← List.take_append_drop k blocks]
  rw [List.filterMap_append, hskip, List.nil_append, filterMap_getElem?_of_isSome hkeep,
    List.getElem?_drop, Nat.add_sub_cancel' hb]

/-- The place of codeword i of block b, which is not among the k blocks that column i skips. -/
theorem columnsOf_getElem? {blocks : List (List Byte)} {n i k b : Nat} {blk : List Byte} (hi : i < n)
    (hall : ∀ blk ∈ blocks, i ≤ blk.length)
    (hlong : ∀ j (h : j < blocks.length), i < blocks[j].length ↔ k ≤ j) (hb : k ≤ b)
    (hblk : blocks[b]? = some blk) :
    (columnsOf blocks n)[i * blocks.length + (b - k)]? = blk[i]? := by
  have hcolumn : (blocks.filterMap (fun blk => blk[i]?))[b - k]? = blk[i]? := by
    rw [column_getElem? hlong hb, hblk]
    rfl
  obtain ⟨hbl, rfl⟩ := List.getElem?_eq_some_iff.1 hblk
  rw [List.getElem?_eq_getElem ((hlong b hbl).2 hb)] at hcolumn ⊢
  obtain ⟨rest, hrest⟩ := columnsOf_eq_append blocks (Nat.succ_le_of_lt hi)
  rw [hrest, columnsOf_succ, List.append_assoc, ← columnsOf_length_of_ge hall,
    List.getElem?_append_right (Nat.le_add_right _ _), Nat.add_sub_cancel_left]
  exact (List.getElem?_append_left (List.getElem?_eq_some_iff.1 hcolumn).1).trans hcolumn

/-! The interleave (R157). -/

theorem splitBlocks_length_le (data : List Byte) {nb : Nat} (hnb : 0 < nb) :
    ∀ blk ∈ splitBlocks data nb, blk.length ≤ longestLen data.length nb := fun _ hmem =>
  blockLens_le (splitBlocks_map_length data hnb ▸ List.mem_map_of_mem hmem)

/-- The columns hold as many codewords as the data. -/
theorem columnsOf_splitBlocks_length (data : List Byte) {nb : Nat} (hnb : 0 < nb) :
    (columnsOf (splitBlocks data nb) (longestLen data.length nb)).length = data.length := by
  rw [columnsOf_length_of_le (splitBlocks_length_le data hnb), splitBlocks_map_length data hnb,
    blockLens_sum _ hnb]

/-- No block is shorter than the short ones. -/
theorem splitBlocks_length_ge (data : List Byte) {nb : Nat} (hnb : 0 < nb) :
    ∀ blk ∈ splitBlocks data nb, data.length / nb ≤ blk.length := by
  intro blk hmem
  obtain ⟨b, hb, rfl⟩ := List.getElem_of_mem hmem
  rw [splitBlocks_getElem_length data hnb hb]
  exact Nat.le_add_right _ _

/-- Codeword i of block b among the data codewords, in a column that skips the first k blocks. -/
theorem interleave_getElem?_data (data : List Byte) {nb i k b : Nat} {blk : List Byte} (e : Nat)
    (hb : b < nb) (hi : i ≤ data.length / nb)
    (hlong : ∀ j,
      i < data.length / nb + (if nb - data.length % nb ≤ j then 1 else 0) ↔ k ≤ j)
    (hk : k ≤ b) (hblk : (splitBlocks data nb)[b]? = some blk) :
    (interleave data nb e)[i * nb + (b - k)]? = blk[i]? := by
  have hnb : 0 < nb := Nat.zero_lt_of_lt hb
  have hlen (j : Nat) (hj : j < (splitBlocks data nb).length) :
      i < (splitBlocks data nb)[j].length ↔ k ≤ j := by
    rw [splitBlocks_getElem_length data hnb hj, hlong]
  have hlt : i < blk.length := by
    obtain ⟨hbl, rfl⟩ := List.getElem?_eq_some_iff.1 hblk
    exact (hlen b hbl).2 hk
  have hplace := columnsOf_getElem?
    (hlt.trans_le (splitBlocks_length_le data hnb blk (List.mem_of_getElem? hblk)))
    (fun blk hmem => hi.trans (splitBlocks_length_ge data hnb blk hmem)) hlen hk hblk
  rw [splitBlocks_length, List.getElem?_eq_getElem hlt] at hplace
  rw [List.getElem?_eq_getElem hlt, interleave,
    List.getElem?_append_left (List.getElem?_eq_some_iff.1 hplace).1, hplace]

/-- EC codeword i of block b. -/
theorem interleave_getElem?_ec (data : List Byte) {nb e i b : Nat} {blk : List Byte} (hb : b < nb)
    (he : 1 ≤ e) (hi : i < e) (hblk : (splitBlocks data nb)[b]? = some blk) :
    (interleave data nb e)[data.length + i * nb + b]? = (rsRem blk e)[i]? := by
  have hec : ((splitBlocks data nb).map (fun blk => rsRem blk e))[b]? = some (rsRem blk e) := by
    simp [hblk]
  have hall : ∀ r ∈ (splitBlocks data nb).map (fun blk => rsRem blk e), i ≤ r.length := by
    simp [rsRem_length _ he, hi.le]
  have hplace := columnsOf_getElem? (k := 0) hi hall (fun j hj => by simp [rsRem_length _ he, hi])
    (Nat.zero_le b) hec
  rw [List.length_map, splitBlocks_length, Nat.sub_zero] at hplace
  have hdata := columnsOf_splitBlocks_length data (Nat.zero_lt_of_lt hb)
  have hpast := hdata.trans_le (Nat.le_add_right data.length (i * nb + b))
  rw [interleave, Nat.add_assoc, List.getElem?_append_right hpast, hdata, Nat.add_sub_cancel_left,
    hplace]

/-- A codeword of a block is one of the data, counted from the block's start. -/
theorem take_drop_getElem? (data : List Byte) {start len i : Nat} (h : i < len) :
    ((data.drop start).take len)[i]? = data[start + i]? := by
  rw [List.getElem?_take_of_lt h, List.getElem?_drop]

/-- A block of q codewords, or of one more if it is long, holds a codeword q if it is long. -/
theorem lt_add_ite_iff (q : Nat) (p : Prop) [Decidable p] : q < q + (if p then 1 else 0) ↔ p := by
  split <;> simp [*]

/-- Settles O27: a column below D div NB skips no block, the last one skips the short blocks, and
a column of EC codewords skips none. -/
theorem interleavePlaces : Obligations.InterleavePlaces := by
  intro data nb e i b hb q ns start
  have hblk := splitBlocks_getElem? data hb
  refine ⟨fun hi => ?_, fun hlong => ?_, fun he hi => interleave_getElem?_ec data hb he hi hblk⟩
  · have hshort (j : Nat) : i < q + (if ns ≤ j then 1 else 0) := Nat.lt_add_right _ hi
    exact (interleave_getElem?_data data e hb hi.le
      (fun j => iff_of_true (hshort j) (Nat.zero_le j)) (Nat.zero_le b) hblk).trans
        (take_drop_getElem? data (hshort b))
  · exact (interleave_getElem?_data data e hb le_rfl (fun j => lt_add_ite_iff q (ns ≤ j)) hlong
      hblk).trans (take_drop_getElem? data ((lt_add_ite_iff q (ns ≤ b)).2 hlong))

/-! ECC_ENCODE (R160). -/

/-- Settles O28: VERSION is the only check, and the codewords are RAW_CW many. -/
theorem eccEncodeWritesCodewords : Obligations.EccEncodeWritesCodewords := by
  refine ⟨plainEncoding_of_decode rfl (by decide) (by unfold TakesMask; decide), fun s => ?_⟩
  intro v lv
  refine ⟨fun hv => ?_, fun hv => ?_⟩
  · have hlen : (interleave (s.dataBytes (dataCw lv v)) (numBlocks lv v)
        (eccPerBlock lv v)).length = rawCw v := interleave_length_rawCw (s := s) hv
    have hraw := rawCw_le hv
    have hwritten : ∀ i, i < rawCw v → ((effectOf .eccEncode s).complete .ok).readByte (outAddr i) =
        (interleave (s.dataBytes (dataCw lv v)) (numBlocks lv v) (eccPerBlock lv v))[i]? :=
      fun i hi => State.readByte_writeOut _ _ (hlen.symm ▸ hi) (hlen.symm ▸ hraw)
    refine ⟨_, exec_ok (checkVersion_eq_ok.2 hv), completed_complete_of_status rfl .ok,
      fun data hdata hread i hi => ?_, fun i hi => ?_, fun a ha => ?_,
      s.setGenerator_genDeg_toNat (eccPerBlock_bounds hv lv).2, genFile_getElem (eccPerBlock lv v),
      rfl⟩
    · rw [← hdata] at hread
      have hbytes := State.dataBytes_eq (hdata.symm ▸ dataCw_le hv lv) hread
      rw [hdata] at hbytes
      rw [← hbytes]
      exact hwritten i hi
    · exact (hwritten i hi).trans_ne (by rwa [ne_eq, List.getElem?_eq_none_iff, hlen, not_le])
    · exact State.readByte_writeOut_outside _ _ (hlen.symm ▸ ha)
  · exact exec_completes_with_error (i := .eccEncode) (if_neg hv) (by decide)

end Sys2Proof.Machine
end

section
/-!
PROOFS. APPLY_MASK and the algebra of the mask patterns (O29, O30): a mask changes nothing but DARK bits,
and which ones it inverts depends on the FUNC bits, which no mask changes.
-/
namespace Sys2Proof.Machine

/-! The encoding of a command with a mask index (R91, R93, R94). -/

/-- A command's word is OPC with MIDX above it and no reserved bit. -/
theorem encode_toNat (i : Instr) :
    (encode i).toNat = (midxOf i).toNat * 256 + (opcodeOf i).toNat := by
  obtain ⟨hopc, hmidx, hrsv⟩ := encode_fields i
  rw [rsvField_eq_zero, rsvField_toNat] at hrsv
  rw [← hopc, ← hmidx, opcField_toNat, midxField_toNat]
  omega

theorem ofNat_midxOf_opcodeOf (i : Instr) :
    BitVec.ofNat 32 ((midxOf i).toNat * 256 + (opcodeOf i).toNat) = encode i := by
  rw [← encode_toNat, BitVec.ofNat_toNat, BitVec.setWidth_eq]

/-- A family of commands that R91 gives one opcode with a mask index has the encoding of R93. -/
theorem maskedEncoding_of_fields {i : BitVec 4 → Instr} {opc : Nat} (hmask : TakesMask opc)
    (hopc : ∀ m, (opcodeOf (i m)).toNat = opc) (hmidx : ∀ m, midxOf (i m) = m)
    (hwf : ∀ m : BitVec 4, m.toNat < 8 → (i m).wellFormed = true) : MaskedEncoding i opc := by
  refine ⟨fun m hm => ?_, fun w hlow hhigh => ?_, fun w hlow hhigh hm => ?_⟩
  · have hword := ofNat_midxOf_opcodeOf (i m)
    rw [hmidx, hopc] at hword
    exact hword ▸ decode_eq_ok_iff.2 (isWordOf_encode (hwf m hm))
  · rw [← opcField_toNat] at hlow
    refine decode_of_rsv_ne_zero (hlow ▸ hmask.le) fun hrsv => ?_
    rw [rsvField_eq_zero, rsvField_toNat] at hrsv
    omega
  · rw [← opcField_toNat] at hlow
    refine decode_of_midx_ge (rsvField_eq_zero.2 ?_) (hlow ▸ hmask) ?_
    · rw [rsvField_toNat]
      omega
    · rw [midxField_toNat]
      omega

/-! The checks of APPLY_MASK (R183, R252). -/

theorem checkMask_eq_invalidMask {m : BitVec 4} (h : 8 ≤ m.toNat) : checkMask m = .invalidMask :=
  if_pos h

theorem checkMask_eq_ok {m : BitVec 4} (h : m.toNat < 8) : checkMask m = .ok :=
  if_neg (Nat.not_le.2 h)

theorem checkOf_applyMask_invalidMask {m : BitVec 4} (h : 8 ≤ m.toNat) (s : State) :
    checkOf (.applyMask m) s = .invalidMask := by
  rw [checkOf, checkMask_eq_invalidMask h]
  rfl

theorem checkOf_applyMask_of_lt {m : BitVec 4} (h : m.toNat < 8) (s : State) :
    checkOf (.applyMask m) s = checkVersion s := by
  rw [checkOf, checkMask_eq_ok h]
  rfl

/-- Settles O29: the mask index is checked before VERSION, and the mask inverts DARK bits of the
square. -/
theorem applyMaskInvertsSelectedModules : Obligations.ApplyMaskInvertsSelectedModules := by
  refine ⟨maskedEncoding_of_fields (.inl rfl) (fun _ => rfl) (fun _ => rfl)
    (fun _ hm => decide_eq_true hm), fun s m => ?_⟩
  refine ⟨fun hm hv => ?_, fun hm => ?_, fun hm hv => ?_⟩
  · have hsize : s.size ≤ 177 := symbolSize_le hv
    refine ⟨_, exec_ok ((checkOf_applyMask_of_lt hm s).trans (checkVersion_eq_ok.2 hv)),
      completed_complete_of_status rfl .ok, fun x y hx hy => ?_, fun a ha => ?_, rfl⟩
    · rw [State.complete_mem, effectOf, s.cellAt_applyMask m.toNat hsize hx hy]
      exact ⟨rfl, rfl⟩
    · exact s.readByte_applyMask_outside m.toNat hsize ha
  · exact exec_completes_with_error (checkOf_applyMask_invalidMask hm s) (by decide)
  · exact exec_completes_with_error ((checkOf_applyMask_of_lt hm s).trans (if_neg hv)) (by decide)

/-! Two masks one after the other (R184). -/

/-- A byte without reserved bits is determined by its two fields (R41). -/
theorem cellOfByte_inj {b c : Byte} (hb : b &&& 3 = b) (hc : c &&& 3 = c)
    (h : cellOfByte b = cellOfByte c) : b = c := by
  obtain ⟨hdark, hfunc⟩ := GridCell.mk.inj h
  have hreserved (i : Nat) (v : Byte) (hv : v &&& 3 = v) : v.getLsbD (i + 2) = false := by
    rw [← hv, BitVec.getLsbD_and]
    simp [BitVec.getLsbD_ofNat, Nat.testBit_succ]
  refine BitVec.eq_of_getLsbD_eq fun i _ => ?_
  match i with
  | 0 => exact hdark
  | 1 => exact hfunc
  | i + 2 => rw [hreserved i b hb, hreserved i c hc]

/-- A mapped cell that is the same cell as before reads as the same byte. -/
theorem State.readByte_of_cellAt {s t : State} {x y : Nat} (hx : x < 177) (hy : y < 177)
    (h : Memory.cellAt t.mem x y = Memory.cellAt s.mem x y) :
    t.readByte (gridAddr x y) = s.readByte (gridAddr x y) := by
  rw [t.readByte_cell hx hy, s.readByte_cell hx hy]
  exact congrArg some (cellOfByte_inj (Memory.byteAt_cell_and_three _ hx hy)
    (Memory.byteAt_cell_and_three _ hx hy) h)

/-- Two states that agree on the cells of a square and on every byte outside it hold the same bytes. -/
theorem sameBytes_of_cellAt {s t : State} {n : Nat} (hn : n ≤ 177)
    (hcells : ∀ x y, x < n → y < n → Memory.cellAt t.mem x y = Memory.cellAt s.mem x y)
    (hout : SameBytesOutside (InSquare n) s t) : SameBytes s t := by
  intro a
  by_cases ha : InSquare n a
  · obtain ⟨x, y, hx, hy, rfl⟩ := ha
    exact State.readByte_of_cellAt (by omega) (by omega) (hcells x y hx hy)
  · exact hout a ha

/-- A second mask inverts the cells it selects whatever the first one did, since masks keep FUNC. -/
theorem State.cellAt_applyMask_applyMask (s : State) (m m' : Nat) {x y : Nat} (hs : s.size ≤ 177)
    (hx : x < s.size) (hy : y < s.size) :
    Memory.cellAt ((s.applyMask m).applyMask m').mem x y =
      { dark := xor (xor (Memory.cellAt s.mem x y).dark (inverts m x y (Memory.cellAt s.mem x y)))
          (inverts m' x y (Memory.cellAt s.mem x y))
        func := (Memory.cellAt s.mem x y).func } := by
  rw [(s.applyMask m).cellAt_applyMask m' hs hx hy, s.cellAt_applyMask m hs hx hy]
  rfl

theorem State.readByte_applyMask_applyMask_outside (s : State) (m m' : Nat) {a : Nat}
    (hs : s.size ≤ 177) (ha : ¬ InSquare s.size a) :
    ((s.applyMask m).applyMask m').readByte a = s.readByte a :=
  ((s.applyMask m).readByte_applyMask_outside m' hs ha).trans (s.readByte_applyMask_outside m hs ha)

theorem State.applyMask_involutive (s : State) (m : Nat) (hs : s.size ≤ 177) :
    SameBytes s ((s.applyMask m).applyMask m) := by
  refine sameBytes_of_cellAt hs (fun x y hx hy => ?_)
    (fun a ha => s.readByte_applyMask_applyMask_outside m m hs ha)
  rw [s.cellAt_applyMask_applyMask m m hs hx hy, Bool.xor_assoc, Bool.xor_self, Bool.xor_false]

theorem State.applyMask_comm (s : State) (m m' : Nat) (hs : s.size ≤ 177) :
    SameBytes ((s.applyMask m).applyMask m') ((s.applyMask m').applyMask m) := by
  refine sameBytes_of_cellAt hs (fun x y hx hy => ?_) (fun a ha => ?_)
  · rw [s.cellAt_applyMask_applyMask m' m hs hx hy, s.cellAt_applyMask_applyMask m m' hs hx hy,
      Bool.xor_right_comm]
  · rw [s.readByte_applyMask_applyMask_outside m' m hs ha,
      s.readByte_applyMask_applyMask_outside m m' hs ha]

/-- Two APPLY_MASK commands that pass their checks write what the two masks do: the completion between
them leaves CONFIG and memory alone. -/
theorem exec_applyMask_applyMask_ok {s t u : State} {m m' : BitVec 4}
    (hm : checkOf (.applyMask m) s = .ok) (hm' : checkOf (.applyMask m') s = .ok)
    (ht : exec (.applyMask m) s = .next t) (hu : exec (.applyMask m') t = .next u) :
    SameBytes ((s.applyMask m.toNat).applyMask m'.toNat) u := by
  cases (exec_ok hm).symm.trans ht
  cases (exec_ok (s := (s.applyMask m.toNat).complete .ok) hm').symm.trans hu
  exact fun a => rfl

theorem exec_applyMask_applyMask_error {s t u : State} {m m' : BitVec 4}
    (hm : checkOf (.applyMask m) s ≠ .ok) (hm' : checkOf (.applyMask m') s ≠ .ok)
    (ht : exec (.applyMask m) s = .next t) (hu : exec (.applyMask m') t = .next u) :
    SameBytes s u := by
  cases (exec_error hm).symm.trans ht
  cases (exec_error (s := s.complete _) hm').symm.trans hu
  exact fun a => rfl

/-- The square lies in the mapped grid where APPLY_MASK passes its checks. -/
theorem State.size_le_of_checkOf_applyMask {s : State} {m : BitVec 4}
    (h : checkOf (.applyMask m) s = .ok) : s.size ≤ 177 :=
  State.size_le_of_checkVersion (firstFailing_eq_ok.1 h).2

/-! The patterns (R181, R184). -/

theorem mod_six_add_mod_six_mod {d : Nat} (hd : d ∣ 6) (x y : Nat) :
    (x % 6 + y % 6) % d = (x + y) % d :=
  ((Nat.mod_modEq x 6).add (Nat.mod_modEq y 6)).of_dvd hd

theorem mod_six_mul_mod_six_mod {d : Nat} (hd : d ∣ 6) (x y : Nat) :
    (x % 6 * (y % 6)) % d = x * y % d :=
  ((Nat.mod_modEq x 6).mul (Nat.mod_modEq y 6)).of_dvd hd

/-- Every mask but 4 depends on sums and products modulo 2 and 3 only. -/
theorem maskBit_mod_six {m : Nat} (hm : m ≠ 4) (x y : Nat) :
    maskBit m x y = maskBit m (x % 6) (y % 6) := by
  have htwo : 2 ∣ 6 := by decide
  have hthree : 3 ∣ 6 := by decide
  unfold maskBit
  split
  case h_5 => exact absurd rfl hm
  all_goals simp only [mod_six_add_mod_six_mod, mod_six_mul_mod_six_mod, Nat.mod_mod_of_dvd, htwo,
    hthree]

/-- Mask 4 depends on the parities of `x / 3` and `y / 2`. -/
theorem maskBit_four_mod (x y : Nat) : maskBit 4 x y = maskBit 4 (x % 6) (y % 4) := by
  have hparity : (x / 3 + y / 2) % 2 = (x % 6 / 3 + y % 4 / 2) % 2 := by omega
  simp only [maskBit, hparity]

theorem maskBit_origin : ∀ m < 8, maskBit m 0 0 = true := by decide

/-- Settles O30: whatever the checks answer they answer both times, and an exclusive or with the same
bits cancels and commutes. -/
theorem maskAlgebra : Obligations.MaskAlgebra := by
  refine ⟨fun s t u m ht hu => ?_, fun s t t' u u' m m' hm hm' ht hu ht' hu' => ?_,
    fun m x y _ hm => maskBit_mod_six hm x y, maskBit_four_mod, maskBit_origin⟩
  · by_cases hc : checkOf (.applyMask m) s = .ok
    · intro a
      have hs := State.size_le_of_checkOf_applyMask hc
      exact (exec_applyMask_applyMask_ok hc hc ht hu a).trans (s.applyMask_involutive m.toNat hs a)
    · exact exec_applyMask_applyMask_error hc hc ht hu
  · intro a
    have hsame : checkOf (.applyMask m') s = checkOf (.applyMask m) s :=
      (checkOf_applyMask_of_lt hm' s).trans (checkOf_applyMask_of_lt hm s).symm
    by_cases hc : checkOf (.applyMask m) s = .ok
    · have hc' := hsame.trans hc
      have hs := State.size_le_of_checkOf_applyMask hc
      calc u'.readByte a
          = ((s.applyMask m'.toNat).applyMask m.toNat).readByte a :=
            exec_applyMask_applyMask_ok hc' hc ht' hu' a
        _ = ((s.applyMask m.toNat).applyMask m'.toNat).readByte a :=
            s.applyMask_comm m.toNat m'.toNat hs a
        _ = u.readByte a := (exec_applyMask_applyMask_ok hc hc' ht hu a).symm
    · have hc' : checkOf (.applyMask m') s ≠ .ok := hsame.trans_ne hc
      calc u'.readByte a
          = s.readByte a := exec_applyMask_applyMask_error hc' hc ht' hu' a
        _ = u.readByte a := (exec_applyMask_applyMask_error hc hc' ht hu a).symm

end Sys2Proof.Machine
end

section
/-!
PROOFS. The four penalty rules and their sum (O31, O32, O33, O34, O35): what each rule counts on a
square of any side, and how large it can get.
-/
namespace Sys2Proof.Machine

/-! The lines of a square (R200). -/

@[simp] theorem squareOf_length (n : Nat) (dark : Nat → Nat → Bool) :
    (squareOf n dark).length = n := by
  simp [squareOf]

theorem columnsOfSquare_squareOf (n : Nat) (dark : Nat → Nat → Bool) :
    columnsOfSquare (squareOf n dark) = (List.range n).map (columnOf n dark) := by
  rw [columnsOfSquare, squareOf_length]
  refine List.map_congr_left fun x hx => ?_
  have hx' : x < n := List.mem_range.1 hx
  simp [squareOf, columnOf, List.getD_eq_getElem?_getD, hx']

theorem sum_linesOf_squareOf (f : List Bool → Nat) (n : Nat) (dark : Nat → Nat → Bool) :
    ((linesOf (squareOf n dark)).map f).sum =
      ((List.range n).map (fun y => f (rowOf n dark y))).sum +
        ((List.range n).map (fun x => f (columnOf n dark x))).sum := by
  rw [linesOf, columnsOfSquare_squareOf, List.map_append, List.sum_append, List.map_map, squareOf,
    List.map_map]
  rfl

/-! Rule (a): runs (R201). -/

theorem runLengths_cons_ne_nil (b : Bool) (bs : List Bool) : runLengths (b :: bs) ≠ [] := by
  unfold runLengths
  split
  · split <;> exact List.cons_ne_nil _ _
  · exact List.cons_ne_nil _ _

/-- One module before a line lengthens its first run or starts a run of its own. -/
theorem runLengths_cons_cons (b c : Bool) (bs : List Bool) :
    runLengths (b :: c :: bs) =
      if b = c then (runLengths (c :: bs)).modifyHead (· + 1) else 1 :: runLengths (c :: bs) := by
  obtain ⟨n, ns, hrest⟩ := List.exists_cons_of_ne_nil (runLengths_cons_ne_nil c bs)
  rw [hrest, runLengths.eq_def]
  simp only [hrest, List.modifyHead_cons]

/-- Equal modules that no further module of their colour follows are one run. -/
theorem runLengths_replicate_append {b : Bool} {rest : List Bool} (h : rest.head? ≠ some b)
    (n : Nat) : runLengths (List.replicate (n + 1) b ++ rest) = (n + 1) :: runLengths rest := by
  induction n with
  | zero =>
    cases rest with
    | nil => rfl
    | cons c bs =>
      have hne : b ≠ c := fun hbc => h (congrArg some hbc.symm)
      exact (runLengths_cons_cons b c bs).trans (if_neg hne)
  | succ n ih =>
    rw [List.replicate_succ, List.cons_append] at ih ⊢
    rw [List.replicate_succ, List.cons_append, runLengths_cons_cons, if_pos rfl, ih]
    rfl

theorem maximalRuns_cons {r : Bool × Nat} {runs : List (Bool × Nat)} :
    MaximalRuns (r :: runs) ↔
      0 < r.2 ∧ (∀ r' ∈ runs.head?, r.1 ≠ r'.1) ∧ MaximalRuns runs := by
  simp only [MaximalRuns, List.forall_mem_cons, List.isChain_cons]
  tauto

theorem ofRuns_cons (r : Bool × Nat) (runs : List (Bool × Nat)) :
    ofRuns (r :: runs) = List.replicate r.2 r.1 ++ ofRuns runs := List.flatMap_cons

theorem ofRuns_head? {runs : List (Bool × Nat)} (h : MaximalRuns runs) :
    (ofRuns runs).head? = runs.head?.map Prod.fst := by
  cases runs with
  | nil => rfl
  | cons r runs =>
    obtain ⟨hpos, -, -⟩ := maximalRuns_cons.1 h
    obtain ⟨n, hn⟩ := Nat.exists_eq_add_one.2 hpos
    rw [ofRuns_cons, hn]
    rfl

theorem runLengths_ofRuns {runs : List (Bool × Nat)} (h : MaximalRuns runs) :
    runLengths (ofRuns runs) = runs.map Prod.snd := by
  induction runs with
  | nil => rfl
  | cons r runs ih =>
    obtain ⟨hpos, hnext, hrest⟩ := maximalRuns_cons.1 h
    obtain ⟨n, hn⟩ := Nat.exists_eq_add_one.2 hpos
    have hhead : (ofRuns runs).head? ≠ some r.1 := by
      rw [ofRuns_head? hrest]
      intro heq
      obtain ⟨r', hr', hfst⟩ := Option.map_eq_some_iff.1 heq
      exact hnext r' hr' hfst.symm
    rw [ofRuns_cons, hn, runLengths_replicate_append hhead, ih hrest, List.map_cons, hn]

theorem exists_maximalRuns (line : List Bool) :
    ∃ runs, MaximalRuns runs ∧ ofRuns runs = line := by
  induction line with
  | nil => exact ⟨[], ⟨by simp, .nil⟩, rfl⟩
  | cons b bs ih =>
    obtain ⟨runs, hmax, rfl⟩ := ih
    by_cases hb : (ofRuns runs).head? = some b
    · rw [ofRuns_head? hmax] at hb
      obtain ⟨⟨_, n⟩, hr, rfl⟩ := Option.map_eq_some_iff.1 hb
      obtain ⟨runs, rfl⟩ := List.head?_eq_some_iff.1 hr
      obtain ⟨-, hnext, hrest⟩ := maximalRuns_cons.1 hmax
      exact ⟨(_, n + 1) :: runs, maximalRuns_cons.2 ⟨n.succ_pos, hnext, hrest⟩, rfl⟩
    · have hnext : ∀ r' ∈ runs.head?, b ≠ r'.1 := fun r' hr' hcol => hb <| by
        rw [ofRuns_head? hmax, Option.mem_def.1 hr', hcol, Option.map_some]
      exact ⟨(b, 1) :: runs, maximalRuns_cons.2 ⟨Nat.one_pos, hnext, hmax⟩, rfl⟩

theorem sum_runTerm (runs : List (Bool × Nat)) :
    (runs.map (runTerm ∘ Prod.snd)).sum =
      ((runs.filter (fun r => 5 ≤ r.2)).map (fun r => 3 + (r.2 - 5))).sum := by
  induction runs with
  | nil => rfl
  | cons r runs ih =>
    rw [List.map_cons, List.sum_cons, ih, Function.comp_apply, runTerm]
    by_cases hlong : 5 ≤ r.2
    · rw [if_pos hlong, List.filter_cons_of_pos (by simpa using hlong), List.map_cons,
        List.sum_cons]
    · rw [if_neg hlong, List.filter_cons_of_neg (by simpa using hlong), Nat.zero_add]

/-- Settles O31: the lengths `runLengths` finds on maximal runs are those of the runs. -/
theorem runPenaltySumsMaximalRuns : Obligations.RunPenaltySumsMaximalRuns := by
  refine ⟨fun runs hmax => ?_, exists_maximalRuns, sum_linesOf_squareOf runPenalty⟩
  rw [runPenalty, runLengths_ofRuns hmax, List.map_map]
  exact sum_runTerm runs

/-! Rule (b): windows (R202). -/

/-- A window is told by the column of its left modules. -/
theorem rowWindows_map_range (f g : Nat → Bool) (n : Nat) :
    rowWindows ((List.range n).map f) ((List.range n).map g) =
      (List.range (n - 1)).countP
        (fun x => f x == f (x + 1) && f x == g x && f x == g (x + 1)) := by
  induction n generalizing f g with
  | zero => rfl
  | succ n ih =>
    cases n with
    | zero => rfl
    | succ n =>
      have hrest := ih (fun x => f (x + 1)) (fun x => g (x + 1))
      simp only [List.range_succ_eq_map, List.map_cons, List.map_map, Function.comp_def,
        Nat.succ_eq_add_one, Nat.zero_add, Nat.add_sub_cancel, rowWindows, List.countP_cons,
        List.countP_map] at hrest ⊢
      rw [hrest, Nat.add_comm]
      simp only [Bool.and_eq_true, beq_iff_eq, and_assoc]

theorem squareWindows_map_range (row : Nat → List Bool) (n : Nat) :
    squareWindows ((List.range n).map row) =
      ((List.range (n - 1)).map (fun y => rowWindows (row y) (row (y + 1)))).sum := by
  induction n generalizing row with
  | zero => rfl
  | succ n ih =>
    cases n with
    | zero => rfl
    | succ n =>
      have hrest := ih (fun y => row (y + 1))
      simp only [List.range_succ_eq_map, List.map_cons, List.map_map, Function.comp_def,
        Nat.succ_eq_add_one, Nat.zero_add, Nat.add_sub_cancel, squareWindows,
        List.sum_cons] at hrest ⊢
      rw [hrest]

/-- Settles O32: two adjacent rows hold the windows whose upper modules lie in the first. -/
theorem blockPenaltyCountsWindows : Obligations.BlockPenaltyCountsWindows := by
  intro n dark
  rw [penaltyB, squareOf, squareWindows_map_range]
  simp only [rowWindows_map_range, List.countP_eq_length_filter]

/-! Rule (c): flanked occurrences (R203). -/

/-- A position at or after the start of the line. -/
theorem lightAt_natCast (flank : FlankOutside) (ms : List Bool) (k : Nat) :
    lightAt flank ms k =
      if k < ms.length then ms[k]? == some false else decide (flank = .light) := by
  unfold lightAt
  by_cases hk : k < ms.length
  · simp [hk, List.getD_eq_getElem?_getD]
  · simp [hk]

/-- The position j before position i of the line. -/
theorem lightAt_before (flank : FlankOutside) {ms : List Bool} {i : Nat} (hi : i < ms.length)
    (j : Nat) :
    lightAt flank ms (i + -j) =
      if j ≤ i then ms[i - j]? == some false else decide (flank = .light) := by
  by_cases hj : j ≤ i
  · rw [if_pos hj, ← Int.sub_eq_add_neg, ← Int.ofNat_sub hj, lightAt_natCast,
      if_pos (Nat.lt_of_le_of_lt (i.sub_le j) hi)]
  · rw [if_neg hj, lightAt, if_neg (by omega)]

/-- The position j after position i of the line. -/
theorem lightAt_after (flank : FlankOutside) (ms : List Bool) (i j : Nat) :
    lightAt flank ms (i + j) =
      if i + j < ms.length then ms[i + j]? == some false else decide (flank = .light) :=
  lightAt_natCast flank ms (i + j)

theorem flankTerm_eq (flank : FlankOutside) {ms : List Bool} {i : Nat} (hi : i < ms.length) :
    flankTerm flank ms i =
      (if [1, 2, 3, 4].all (fun j =>
          if j ≤ i then ms[i - j]? == some false else decide (flank = .light)) then 40 else 0) +
      (if [7, 8, 9, 10].all (fun j =>
          if i + j < ms.length then ms[i + j]? == some false else decide (flank = .light))
        then 40 else 0) := by
  simp only [← lightAt_before flank hi, ← lightAt_after]
  simp only [flankTerm, List.all_cons, List.all_nil, Bool.and_assoc, Nat.cast_one,
    Nat.cast_ofNat, Bool.true_and, Bool.and_comm]

theorem take_drop_eq_finderPattern (ms : List Bool) (i : Nat) :
    (ms.drop i).take 7 = finderPattern ↔
      ∀ k ∈ List.range 7, ms[i + k]? = [true, false, true, true, true, false, true][k]? := by
  simp only [List.mem_range]
  refine ⟨fun h k hk => ?_, fun h => List.ext_getElem? fun k => ?_⟩
  · rw [← List.getElem?_drop, ← List.getElem?_take_of_lt hk, h, finderPattern]
  · by_cases hk : k < 7
    · rw [List.getElem?_take_of_lt hk, List.getElem?_drop, h k hk, finderPattern]
    · have hk' : 7 ≤ k := Nat.not_lt.1 hk
      rw [List.getElem?_eq_none ((List.length_take_le 7 _).trans hk'), List.getElem?_eq_none hk']

/-- Settles O33: position by position, the pattern is compared module by module and each flank is light
as the statement says. -/
theorem finderPenaltyCountsFlankedOccurrences :
    Obligations.FinderPenaltyCountsFlankedOccurrences := by
  refine ⟨fun flank ms => ?_, fun flank => sum_linesOf_squareOf (finderPenalty flank)⟩
  rw [finderPenalty]
  refine congrArg List.sum (List.map_congr_left fun i hi => ?_)
  have hi' : i < ms.length := by
    have := List.mem_range.1 hi
    omega
  simp only [take_drop_eq_finderPattern, flankTerm_eq flank hi']

/-! Rule (d): balance (R204). -/

theorem balancePenalty_exact (dark total : Nat) :
    balancePenalty .exact dark total =
      10 * ((max (100 * dark) (50 * total) - min (100 * dark) (50 * total)) / (5 * total)) := by
  have habs : ((100 * dark : Int) - 50 * total).natAbs =
      max (100 * dark) (50 * total) - min (100 * dark) (50 * total) := by omega
  rw [← habs, balancePenalty]

theorem balancePenalty_truncatedPercent (dark total : Nat) :
    balancePenalty .truncatedPercent dark total =
      10 * ((max (100 * dark / total) 50 - min (100 * dark / total) 50) / 5) := by
  rw [balancePenalty]
  generalize 100 * dark / total = p
  omega

/-- k is at most 10 (R204). -/
theorem balancePenalty_le (ratio : DarkRatio) {dark total : Nat} (h : dark ≤ total) :
    balancePenalty ratio dark total ≤ 100 := by
  cases ratio with
  | exact =>
    have hk : (max (100 * dark) (50 * total) - min (100 * dark) (50 * total)) / (5 * total) ≤ 10 :=
      Nat.div_le_of_le_mul (by omega)
    rw [balancePenalty_exact]
    omega
  | truncatedPercent =>
    have hp : 100 * dark / total ≤ 100 := Nat.div_le_of_le_mul (by omega)
    rw [balancePenalty_truncatedPercent]
    generalize 100 * dark / total = p at hp ⊢
    omega

/-- From half dark up the percentage loses nothing that a division by 5 would keep. -/
theorem balancePenalty_agree {dark total : Nat} (hpos : 0 < total) (h : total ≤ 2 * dark) :
    balancePenalty .truncatedPercent dark total = balancePenalty .exact dark total := by
  have hp : 50 ≤ 100 * dark / total := (Nat.le_div_iff_mul_le hpos).2 (by omega)
  rw [balancePenalty_exact, balancePenalty_truncatedPercent, max_eq_left hp, min_eq_right hp,
    max_eq_left (by omega), min_eq_right (by omega), Nat.mul_comm 5, ← Nat.div_div_eq_div_mul,
    Nat.mul_comm 50, Nat.sub_mul_div]

theorem darkCount_squareOf (n : Nat) (dark : Nat → Nat → Bool) :
    darkCount (squareOf n dark) =
      ((List.range n).map (fun y => ((List.range n).filter (fun x => dark x y)).length)).sum := by
  rw [darkCount, squareOf, List.map_map]
  refine congrArg List.sum (List.map_congr_left fun y _ => ?_)
  rw [Function.comp_apply, List.count_eq_countP, List.countP_map, List.countP_eq_length_filter]
  simp only [Function.comp_def, beq_true]

/-- Settles O34: k is a quotient of natural numbers, at most 10 because dark is at most total. -/
theorem balancePenaltyFormula : Obligations.BalancePenaltyFormula := by
  refine ⟨fun dark total hpos hle => ?_, fun ratio n dark => ?_⟩
  · exact ⟨balancePenalty_exact dark total, balancePenalty_truncatedPercent dark total,
      balancePenalty_le _ hle, balancePenalty_le _ hle, balancePenalty_agree hpos⟩
  · rw [penaltyD, squareOf_length, darkCount_squareOf]

/-! The size of the penalty (R205). -/

theorem runLengths_sum (line : List Bool) : (runLengths line).sum = line.length := by
  obtain ⟨runs, hmax, rfl⟩ := exists_maximalRuns line
  rw [runLengths_ofRuns hmax, ofRuns, List.length_flatMap]
  simp

theorem sum_runTerm_le (ns : List Nat) : (ns.map runTerm).sum ≤ ns.sum - 2 := by
  induction ns with
  | nil => exact Nat.zero_le _
  | cons n ns ih =>
    have hn : runTerm n ≤ n - 2 := by
      unfold runTerm
      split <;> omega
    rw [List.map_cons, List.sum_cons, List.sum_cons]
    omega

theorem runPenalty_le (line : List Bool) : runPenalty line ≤ line.length - 2 :=
  runLengths_sum line ▸ sum_runTerm_le (runLengths line)

theorem flankTerm_le (flank : FlankOutside) (line : List Bool) (i : Nat) :
    flankTerm flank line i ≤ 80 := by
  unfold flankTerm
  refine Nat.add_le_add (b := 40) (d := 40) ?_ ?_ <;> split <;> omega

theorem sum_map_le_length_mul {α : Type} {f : α → Nat} {l : List α} {b : Nat}
    (h : ∀ a ∈ l, f a ≤ b) : (l.map f).sum ≤ l.length * b := by
  simpa using List.sum_le_card_nsmul (l.map f) b (by simpa using h)

theorem finderPenalty_le (flank : FlankOutside) (line : List Bool) :
    finderPenalty flank line ≤ (line.length - 6) * 80 := by
  rw [finderPenalty]
  refine (sum_map_le_length_mul (b := 80) fun i _ => ?_).trans_eq (by rw [List.length_range])
  split
  · exact flankTerm_le flank line i
  · exact Nat.zero_le _

theorem rowWindows_le (r r' : List Bool) : rowWindows r r' ≤ r.length - 1 := by
  induction r, r' using rowWindows.induct with
  | case1 a a' as b b' bs ih =>
    rw [rowWindows]
    simp only [List.length_cons] at ih ⊢
    split <;> omega
  | case2 r r' h =>
    rw [rowWindows]
    · exact Nat.zero_le _
    · exact h

theorem squareWindows_le {rows : List (List Bool)} {n : Nat} (h : ∀ r ∈ rows, r.length ≤ n) :
    squareWindows rows ≤ (rows.length - 1) * (n - 1) := by
  induction rows using squareWindows.induct with
  | case1 r r' rs ih =>
    have hr : rowWindows r r' ≤ n - 1 :=
      (rowWindows_le r r').trans (Nat.sub_le_sub_right (h r List.mem_cons_self) 1)
    have hrs := ih fun q hq => h q (List.mem_cons_of_mem r hq)
    rw [squareWindows]
    simp only [List.length_cons, Nat.add_sub_cancel] at hrs ⊢
    rw [Nat.succ_mul, Nat.add_comm]
    exact Nat.add_le_add hrs hr
  | case2 rows hshort =>
    rw [squareWindows]
    · exact Nat.zero_le _
    · exact hshort

/-! The four parts of a square (R205). -/

theorem linesOf_length (rows : List (List Bool)) : (linesOf rows).length = 2 * rows.length := by
  simp [linesOf, columnsOfSquare, Nat.two_mul]

theorem length_of_mem_linesOf {rows : List (List Bool)} (h : ∀ r ∈ rows, r.length = rows.length)
    {l : List Bool} (hl : l ∈ linesOf rows) : l.length = rows.length := by
  obtain hrow | hcol := List.mem_append.1 hl
  · exact h l hrow
  · obtain ⟨x, -, rfl⟩ := List.mem_map.1 hcol
    exact List.length_map _

section
variable {rows : List (List Bool)} (hsquare : ∀ r ∈ rows, r.length = rows.length)
include hsquare

theorem penaltyA_le : penaltyA rows ≤ 2 * rows.length * (rows.length - 2) :=
  linesOf_length rows ▸ sum_map_le_length_mul fun l hl =>
    length_of_mem_linesOf hsquare hl ▸ runPenalty_le l

theorem penaltyB_le : penaltyB rows ≤ (rows.length - 1) ^ 2 * 3 := by
  rw [penaltyB, Nat.mul_comm, Nat.pow_two]
  exact Nat.mul_le_mul_right 3 (squareWindows_le fun r hr => (hsquare r hr).le)

theorem penaltyC_le (flank : FlankOutside) :
    penaltyC flank rows ≤ 2 * rows.length * (rows.length - 6) * 80 := by
  rw [Nat.mul_assoc, ← linesOf_length]
  exact sum_map_le_length_mul fun l hl =>
    length_of_mem_linesOf hsquare hl ▸ finderPenalty_le flank l

theorem penaltyD_le (ratio : DarkRatio) : penaltyD ratio rows ≤ 100 :=
  balancePenalty_le ratio (sum_map_le_length_mul fun r hr => hsquare r hr ▸ List.count_le_length)

theorem penalty_bounds (hside : rows.length ≤ 177) :
    penaltyA rows ≤ 354 * 175 ∧ penaltyB rows ≤ 176 ^ 2 * 3 ∧
      (∀ flank, penaltyC flank rows ≤ 354 * 171 * 80) ∧
      ∀ ratio, penaltyD ratio rows ≤ 100 := by
  refine ⟨(penaltyA_le hsquare).trans ?_, (penaltyB_le hsquare).trans ?_,
    fun flank => (penaltyC_le hsquare flank).trans ?_, penaltyD_le hsquare⟩
  · exact Nat.mul_le_mul (by omega) (by omega)
  · exact Nat.mul_le_mul_right 3 (Nat.pow_le_pow_left (by omega) 2)
  · exact Nat.mul_le_mul_right 80 (Nat.mul_le_mul (by omega) (by omega))

theorem penalty_lt (hside : rows.length ≤ 177) (p : Params) : penalty p rows < 5000000 := by
  obtain ⟨hA, hB, hC, hD⟩ := penalty_bounds hsquare hside
  have := hC p.flankOutside
  have := hD p.darkRatio
  unfold penalty
  omega

end

/-- Settles O35: every line and every row of windows is bounded by its length. -/
theorem penaltyFitsRegisters : Obligations.PenaltyFitsRegisters := by
  intro p rows hside hsquare
  obtain ⟨hA, hB, hC, hD⟩ := penalty_bounds hsquare hside
  exact ⟨rfl, hA, hB, hC _, hD _, penalty_lt hsquare hside p⟩

end Sys2Proof.Machine
end

section
/-!
PROOFS. SCORE and SELECT_MASK (O36, O37, O38, O39): each scores the DARK bits of a square, and the trial
grid of the mask that SELECT_MASK commits is the grid it leaves behind.
-/
namespace Sys2Proof.Machine

/-! The scores fit their registers (R205). -/

theorem penalty_squareOf_lt (p : Params) {n : Nat} (hn : n ≤ 177) (dark : Nat → Nat → Bool) :
    penalty p (squareOf n dark) < 5000000 := by
  refine penalty_lt (fun r hr => ?_) ((squareOf_length n dark).trans_le hn) p
  obtain ⟨y, -, rfl⟩ := List.mem_map.1 hr
  simp

theorem ofNat_penalty_toNat (p : Params) {n : Nat} (hn : n ≤ 177) (dark : Nat → Nat → Bool) :
    (BitVec.ofNat 32 (penalty p (squareOf n dark))).toNat = penalty p (squareOf n dark) :=
  Nat.mod_eq_of_lt ((penalty_squareOf_lt p hn dark).trans (by decide))

/-- Settles O36: the penalty of the DARK bits fits RESULT. -/
theorem scoreWritesPenalty : Obligations.ScoreWritesPenalty := by
  refine ⟨plainEncoding_of_decode rfl (by decide) (by unfold TakesMask; decide), fun s => ?_⟩
  refine ⟨fun hv => ?_, fun hv => exec_completes_with_error (i := .score) (if_neg hv) (by decide)⟩
  refine ⟨_, exec_ok (checkVersion_eq_ok.2 hv), completed_complete_of_status rfl .ok, ?_, rfl,
    fun a => rfl⟩
  have hs : s.size ≤ 177 := symbolSize_le hv
  rw [State.complete_result, effectOf, State.setResult_result, darkRows_square,
    ofNat_penalty_toNat s.params hs]
  rfl

/-! The least index (R208). -/

section
variable {l : List Nat} (h : l ≠ [])
include h

theorem leastIndex_lt : leastIndex l < l.length := by
  obtain ⟨a, ha⟩ := Option.isSome_iff_exists.1 (List.isSome_min?_of_ne_nil h)
  obtain ⟨hmem, hle⟩ := List.min?_eq_some_iff.1 ha
  exact List.findIdx_lt_length_of_exists ⟨a, hmem, by simpa using hle⟩

theorem getElem_leastIndex_le {b : Nat} (hb : b ∈ l) : l[leastIndex l]'(leastIndex_lt h) ≤ b := by
  have hall := List.findIdx_getElem (w := leastIndex_lt h)
  exact of_decide_eq_true (List.all_eq_true.1 hall b hb)

theorem getElem_leastIndex_lt {i : Nat} (hi : i < leastIndex l) :
    l[leastIndex l]'(leastIndex_lt h) < l[i]'(hi.trans (leastIndex_lt h)) := by
  obtain ⟨b, hb, hsmaller⟩ := List.all_eq_false.1 (List.not_of_lt_findIdx hi)
  exact (getElem_leastIndex_le h hb).trans_lt (Nat.not_le.1 (mt decide_eq_true hsmaller))

end

/-! The trial grids and their scores (R206). -/

theorem map_zipIdx_map_range {α β : Type} (f : Nat → α) (g : α × Nat → β) (n : Nat) :
    ((List.range n).map f).zipIdx.map g = (List.range n).map (fun i => g (f i, i)) :=
  List.ext_getElem (by simp) (by simp)

theorem trialRows_square (s : State) (m : Nat) :
    trialRows m s.square = squareOf s.size (fun x y =>
      xor (Memory.cellAt s.mem x y).dark (inverts m x y (Memory.cellAt s.mem x y))) := by
  simp only [trialRows, State.square, Memory.readSquare_eq, map_zipIdx_map_range, squareOf]

/-- The trial grid of a mask is the grid that mask leaves behind. -/
theorem darkRows_applyMask_square (s : State) (m : Nat) (hs : s.size ≤ 177) :
    darkRows (s.applyMask m).square = trialRows m s.square := by
  rw [darkRows_square, trialRows_square]
  refine List.map_congr_left fun y hy => List.map_congr_left fun x hx => ?_
  exact congrArg GridCell.dark
    (s.cellAt_applyMask m hs (List.mem_range.1 hx) (List.mem_range.1 hy))

theorem ofNat_trialScore_toNat {s : State} (hs : s.size ≤ 177) (p : Params) (m : Nat) :
    (BitVec.ofNat 32 (trialScore p s.square m)).toNat = trialScore p s.square m := by
  rw [trialScore, trialRows_square, ofNat_penalty_toNat p hs]

/-! The mask of least score (R208, R210). -/

@[simp] theorem State.trialScores_length (s : State) : s.trialScores.length = 8 := by
  simp [State.trialScores]

theorem State.trialScores_getElem (s : State) {m : Nat} (hm : m < s.trialScores.length) :
    s.trialScores[m] = trialScore s.params s.square m := by
  simp [State.trialScores]

theorem State.trialScores_getD (s : State) {m : Nat} (hm : m < 8) :
    s.trialScores.getD m 0 = trialScore s.params s.square m := by
  simp [State.trialScores, hm]

/-- The mask SELECT_MASK commits (R208). -/
def State.chosenMask (s : State) : Nat := leastIndex s.trialScores

theorem State.trialScores_ne_nil (s : State) : s.trialScores ≠ [] :=
  List.ne_nil_of_length_eq_add_one s.trialScores_length

theorem State.chosenMask_lt (s : State) : s.chosenMask < 8 :=
  s.trialScores_length ▸ leastIndex_lt s.trialScores_ne_nil

theorem State.trialScore_chosenMask_le (s : State) {m : Nat} (hm : m < 8) :
    trialScore s.params s.square s.chosenMask ≤ trialScore s.params s.square m := by
  have hm' : m < s.trialScores.length := by simpa using hm
  have h := getElem_leastIndex_le s.trialScores_ne_nil (List.getElem_mem hm')
  rwa [s.trialScores_getElem, s.trialScores_getElem] at h

theorem State.trialScore_chosenMask_lt (s : State) {m : Nat} (hm : m < s.chosenMask) :
    trialScore s.params s.square s.chosenMask < trialScore s.params s.square m := by
  have h := getElem_leastIndex_lt s.trialScores_ne_nil hm
  rwa [s.trialScores_getElem, s.trialScores_getElem] at h

/-! What SELECT_MASK writes (R208). -/

theorem effectOf_selectMask_score_toNat {s : State} (hs : s.size ≤ 177) {m : Nat} (hm : m < 8) :
    ((effectOf .selectMask s).score[m]).toNat = trialScore s.params s.square m := by
  rw [← ofNat_trialScore_toNat hs, ← s.trialScores_getD hm]
  exact congrArg BitVec.toNat (fileOf_getElem 8 _ m hm)

theorem effectOf_selectMask_bestMask (s : State) :
    (effectOf .selectMask s).bestMask.toNat = s.chosenMask :=
  Nat.mod_eq_of_lt s.chosenMask_lt

theorem effectOf_selectMask_result (s : State) :
    (effectOf .selectMask s).result =
      BitVec.ofNat 32 (trialScore s.params s.square s.chosenMask) :=
  congrArg (BitVec.ofNat 32) (s.trialScores_getD s.chosenMask_lt)

theorem effectOf_selectMask_result_toNat {s : State} (hs : s.size ≤ 177) :
    (effectOf .selectMask s).result.toNat = trialScore s.params s.square s.chosenMask := by
  rw [effectOf_selectMask_result, ofNat_trialScore_toNat hs]

theorem effectOf_selectMask_mem (s : State) :
    (effectOf .selectMask s).mem = (s.applyMask s.chosenMask).mem := rfl

/-- Settles O37: the statement's trial score of a mask is the model's, and the mask that is committed is
the least index of lowest score. -/
theorem selectMaskScoresAndCommits : Obligations.SelectMaskScoresAndCommits := by
  refine ⟨plainEncoding_of_decode rfl (by decide) (by unfold TakesMask; decide), fun s => ?_⟩
  intro v size trial
  refine ⟨fun hv => ?_,
    fun hv => exec_completes_with_error (i := .selectMask) (if_neg hv) (by decide)⟩
  have hs : s.size ≤ 177 := symbolSize_le hv
  have htrial (m : Nat) : trial m = trialScore s.params s.square m :=
    congrArg (penalty s.params) (trialRows_square s m).symm
  have hbest : ((effectOf .selectMask s).complete .ok).bestMask.toNat = s.chosenMask :=
    effectOf_selectMask_bestMask s
  refine ⟨_, exec_ok (checkVersion_eq_ok.2 hv), completed_complete_of_status rfl .ok,
    fun m hm => ?_, fun m hm => ?_, fun m hm => ?_, ?_, fun x y hx hy => ?_, fun a ha => ?_, rfl⟩
  · rw [htrial]
    exact effectOf_selectMask_score_toNat hs hm
  · rw [htrial, htrial, hbest]
    exact s.trialScore_chosenMask_le hm
  · rw [hbest] at hm
    rw [htrial, htrial, hbest]
    exact s.trialScore_chosenMask_lt hm
  · rw [htrial, hbest]
    exact effectOf_selectMask_result_toNat hs
  · rw [hbest, State.complete_mem, effectOf_selectMask_mem,
      s.cellAt_applyMask s.chosenMask hs hx hy]
    exact ⟨rfl, rfl⟩
  · exact s.readByte_applyMask_outside s.chosenMask hs ha

/-- A command that completes with OK has passed its checks (R112, R250). -/
theorem checkOf_eq_ok_of_errcode {i : Instr} {s t : State} (h : exec i s = .next t)
    (hcode : t.status.errcode = 0) : checkOf i s = .ok := by
  cases (exec_next i s).symm.trans h
  exact errByte_eq_zero.1 hcode

/-- Settles O38: the scores in the file are the trial scores, of which the chosen mask has the
least. -/
theorem chosenMaskHasLeastScore : Obligations.ChosenMaskHasLeastScore := by
  intro s t h hcode
  have hc := checkOf_eq_ok_of_errcode h hcode
  have hs : s.size ≤ 177 := State.size_le_of_checkVersion (s := s) hc
  cases (exec_ok hc).symm.trans h
  have hscore (m : Nat) (hm : m < 8) := effectOf_selectMask_score_toNat hs hm
  simp only [State.complete_bestMask, State.complete_score, effectOf_selectMask_bestMask]
  refine ⟨s.chosenMask_lt, fun m hm => ?_, fun m hm heq => ?_⟩
  · rw [hscore _ s.chosenMask_lt, hscore m hm]
    exact s.trialScore_chosenMask_le hm
  · refine Nat.not_lt.1 fun hlt => ?_
    have hne := (s.trialScore_chosenMask_lt hlt).ne
    rw [← hscore _ s.chosenMask_lt, ← hscore m hm] at hne
    exact hne (congrArg BitVec.toNat heq.symm)

/-- Settles O39: SCORE sees the trial grid of the chosen mask. -/
theorem committedGridHasReportedScore : Obligations.CommittedGridHasReportedScore := by
  intro s t u ht hcode hu
  have hc := checkOf_eq_ok_of_errcode ht hcode
  have hs : s.size ≤ 177 := State.size_le_of_checkVersion (s := s) hc
  cases (exec_ok hc).symm.trans ht
  cases (exec_ok (i := .score) (s := (effectOf .selectMask s).complete .ok) hc).symm.trans hu
  have hgrid := congrArg (penalty s.params) (darkRows_applyMask_square s s.chosenMask hs)
  calc BitVec.ofNat 32 (penalty s.params (darkRows (s.applyMask s.chosenMask).square))
      = BitVec.ofNat 32 (trialScore s.params s.square s.chosenMask) := congrArg _ hgrid
    _ = (effectOf .selectMask s).result := (effectOf_selectMask_result s).symm

end Sys2Proof.Machine
end

section
/-!
PROOFS. BCH remainders, FORMAT_WORD and VERSION_WORD (O40, O41, O42, O43): each step of the division
clears the top bit left, so the remainder fits below the data bits it protects.
-/
namespace Sys2Proof.Machine

/-! The bits of a number below a power of two. -/

theorem lt_two_pow_of_not_testBit {r n : Nat} (hr : r < 2 ^ (n + 1)) (htop : r.testBit n = false) :
    r < 2 ^ n := by
  refine Nat.lt_pow_two_of_testBit r fun i hi => ?_
  rcases hi.eq_or_lt with rfl | hlt
  · exact htop
  · exact Nat.testBit_lt_two_pow (hr.trans_le (Nat.pow_le_pow_right (by decide) hlt))

theorem lt_two_pow_bitLength (n : Nat) : n < 2 ^ bitLength n := by
  unfold bitLength
  split
  case isTrue h => simp [h]
  case isFalse => exact Nat.lt_log2_self

theorem bitLength_sub_one {g : Nat} (hg : 0 < g) : bitLength g - 1 = g.log2 := by
  rw [bitLength, if_neg hg.ne']
  rfl

/-! The division over GF(2) (R230). -/

/-- One step of the division by `g`: the copy of `g` shifted by `j` is added if that clears a bit. -/
def bchStep (g r j : Nat) : Nat := if r.testBit (j + g.log2) then r ^^^ (g <<< j) else r

theorem bchRem_eq_foldl (val : Nat) {g : Nat} (hg : 0 < g) :
    bchRem val g = (List.range (bitLength (val <<< g.log2) - g.log2)).reverse.foldl (bchStep g)
      (val <<< g.log2) := by
  rw [bchRem, bitLength_sub_one hg]
  rfl

theorem bchStep_lt {g r j : Nat} (hg : 0 < g) (hr : r < 2 ^ (j + g.log2 + 1)) :
    bchStep g r j < 2 ^ (j + g.log2) := by
  have hlt : g <<< j < 2 ^ (j + g.log2 + 1) := by
    rw [Nat.shiftLeft_eq, Nat.add_assoc, Nat.pow_add, Nat.mul_comm]
    exact Nat.mul_lt_mul_of_pos_left Nat.lt_log2_self (Nat.two_pow_pos j)
  have htop : (g <<< j).testBit (j + g.log2) = true := by
    simp [Nat.testBit_shiftLeft, Nat.testBit_log2 hg.ne']
  unfold bchStep
  split
  case isTrue h =>
    exact lt_two_pow_of_not_testBit (Nat.xor_lt_two_pow hr hlt) (by simp [h, htop])
  case isFalse h => exact lt_two_pow_of_not_testBit hr (by simpa using h)

theorem foldl_bchStep_lt {g : Nat} (hg : 0 < g) (n : Nat) {r : Nat} (hr : r < 2 ^ (n + g.log2)) :
    (List.range n).reverse.foldl (bchStep g) r < 2 ^ g.log2 := by
  induction n generalizing r with
  | zero => simpa using hr
  | succ n ih =>
    rw [List.range_succ, List.reverse_append]
    exact ih (bchStep_lt hg (by rwa [Nat.add_right_comm] at hr))

theorem bchRem_lt (val : Nat) {g : Nat} (hg : 0 < g) : bchRem val g < 2 ^ g.log2 := by
  rw [bchRem_eq_foldl val hg]
  refine foldl_bchStep_lt hg _ ((lt_two_pow_bitLength _).trans_le ?_)
  exact Nat.pow_le_pow_right (by decide) (by omega)

/-- Adding the same shifted copies of `g` again undoes the division. -/
theorem exists_shifts_foldl_bchStep (g : Nat) (js : List Nat) (r : Nat) :
    ∃ shifts : List Nat, r =
      shifts.foldl (fun r j => r ^^^ (g <<< j)) (js.foldl (bchStep g) r) := by
  induction js generalizing r with
  | nil => exact ⟨[], rfl⟩
  | cons j js ih =>
    obtain ⟨shifts, hshifts⟩ := ih (bchStep g r j)
    rw [List.foldl_cons]
    by_cases h : r.testBit (j + g.log2) = true
    · refine ⟨shifts ++ [j], ?_⟩
      rw [List.foldl_append, ← hshifts, bchStep, if_pos h]
      exact (Nat.xor_xor_cancel_right r _).symm
    · refine ⟨shifts, ?_⟩
      rw [← hshifts, bchStep, if_neg h]

/-- Settles O40: each step clears the top bit left and adds at most one shifted copy of G. -/
theorem bchIsPolynomialRemainder : Obligations.BchIsPolynomialRemainder := by
  intro val g hg
  obtain ⟨shifts, hshifts⟩ := exists_shifts_foldl_bchStep g
    (List.range (bitLength (val <<< g.log2) - g.log2)).reverse (val <<< g.log2)
  rw [← bchRem_eq_foldl val hg] at hshifts
  exact ⟨bchRem_lt val hg, shifts, hshifts⟩

/-! The words (R231, R233). -/

theorem shiftLeft_or_of_lt {a b n : Nat} (h : b < 2 ^ n) : a <<< n ||| b = a * 2 ^ n + b := by
  rw [← Nat.shiftLeft_add_eq_or_of_lt h, Nat.shiftLeft_eq]

theorem bchRem_format_lt (d : Nat) : bchRem d 0x537 < 2 ^ 10 := bchRem_lt d (by decide)

theorem bchRem_version_lt (v : Nat) : bchRem v 0x1F25 < 2 ^ 12 := bchRem_lt v (by decide)

theorem fmtWord_eq (ecl : Nat) {m : Nat} (hm : m < 8) :
    fmtWord ecl m = ((ecl * 8 + m) * 1024 + bchRem (ecl * 8 + m) 0x537) ^^^ 0x5412 := by
  rw [fmtWord, shiftLeft_or_of_lt (n := 3) hm, shiftLeft_or_of_lt (bchRem_format_lt _)]
  rfl

theorem verWord_eq (v : Nat) : verWord v = v * 4096 + bchRem v 0x1F25 :=
  shiftLeft_or_of_lt (bchRem_version_lt v)

theorem fmtWord_lt {ecl m : Nat} (hecl : ecl < 4) (hm : m < 8) : fmtWord ecl m < 2 ^ 15 := by
  have hcheck := bchRem_format_lt (ecl * 8 + m)
  rw [fmtWord_eq ecl hm]
  exact Nat.xor_lt_two_pow (by omega) (by decide)

theorem verWord_lt {v : Nat} (hv : v < 64) : verWord v < 2 ^ 18 := by
  have hcheck := bchRem_version_lt v
  rw [verWord_eq]
  omega

theorem State.setResult_result_toNat (s : State) {v : Nat} (hv : v < 2 ^ 32) :
    (s.setResult v).result.toNat = v :=
  Nat.mod_eq_of_lt hv

/-! The commands (R232, R233). -/

/-- Settles O41: MIDX is all FORMAT_WORD checks, and a format word fits RESULT. -/
theorem formatWordWritesWord : Obligations.FormatWordWritesWord := by
  refine ⟨maskedEncoding_of_fields (.inr rfl) (fun _ => rfl) (fun _ => rfl)
    (fun _ hm => decide_eq_true hm), fun s m => ?_⟩
  refine ⟨fun hm => ?_, fun hm => exec_completes_with_error (i := .formatWord m)
    (checkMask_eq_invalidMask hm) (by decide)⟩
  have hlt := fmtWord_lt s.config.ecl.isLt hm
  have hresult : ((effectOf (.formatWord m) s).complete .ok).result.toNat =
      fmtWord s.config.ecl.toNat m.toNat := s.setResult_result_toNat (hlt.trans (by decide))
  exact ⟨_, exec_ok (checkMask_eq_ok hm), completed_complete_of_status rfl .ok,
    hresult.trans (fmtWord_eq _ hm), hresult.trans_lt hlt, rfl, fun a => rfl⟩

theorem checkVersionWord_eq_ok {s : State} (h : 7 ≤ s.version ∧ s.version ≤ 40) :
    checkVersionWord s = .ok :=
  if_pos ⟨⟨by omega, h.2⟩, h.1⟩

theorem checkVersionWord_eq_badVersion {s : State} (h : ¬ (7 ≤ s.version ∧ s.version ≤ 40)) :
    checkVersionWord s = .badVersion :=
  if_neg fun hc => h ⟨hc.2, hc.1.2⟩

/-- Settles O42: VERSION is all VERSION_WORD checks, and a version word fits RESULT. -/
theorem versionWordWritesWord : Obligations.VersionWordWritesWord := by
  refine ⟨plainEncoding_of_decode rfl (by decide) (by unfold TakesMask; decide), fun s => ?_⟩
  refine ⟨fun hv => ?_, fun hv => exec_completes_with_error (i := .versionWord)
    (checkVersionWord_eq_badVersion hv) (by decide)⟩
  have hlt : verWord s.version < 2 ^ 18 := verWord_lt s.config.version.isLt
  have hresult : ((effectOf .versionWord s).complete .ok).result.toNat = verWord s.version :=
    s.setResult_result_toNat (hlt.trans (by decide))
  exact ⟨_, exec_ok (checkVersionWord_eq_ok hv), completed_complete_of_status rfl .ok,
    hresult.trans (verWord_eq _), hresult.trans_lt hlt, rfl, fun a => rfl⟩

/-! The distances (R235). -/

theorem fmtWord_distance : ∀ d < 32, ∀ d' < d,
    7 ≤ hammingDistance 15 (fmtWord (d / 8) (d % 8)) (fmtWord (d' / 8) (d' % 8)) := by
  decide +kernel

theorem verWord_distance : ∀ v < 41, 7 ≤ v → ∀ v' < v, 7 ≤ v' →
    8 ≤ hammingDistance 18 (verWord v) (verWord v') := by
  decide +kernel

/-- Settles O43: the words are short in general, and every pair of the two tables is evaluated. -/
theorem wordDistances : Obligations.WordDistances :=
  ⟨fun d hd => ⟨fmtWord_lt (Nat.div_lt_of_lt_mul hd) (Nat.mod_lt d (by decide)),
      fmtWord_distance d hd⟩,
    fun v hv h7 => ⟨verWord_lt (hv.trans (by decide)), verWord_distance v hv h7⟩⟩

end Sys2Proof.Machine
end

section
/-!
PROOFS. How a pending word completes: with which code, what it keeps where the code is an error, and
what that does to irq (O8, O9, O52).
-/
namespace Sys2Proof.Machine

/-! A completion, whatever is completed (R111, R112, R250). -/

/-- `r` is a completion from `s` with the code `c`: it completes what an effect has made of `s`, which
wrote neither STATUS nor IE, and nothing at all where `c` is an error. -/
def CompletesWith (s : State) (r : Result) (c : ErrCode) : Prop :=
  ∃ u, r = .next (u.complete c) ∧ u.status = s.status ∧ u.ie = s.ie ∧ (c ≠ .ok → u = s)

theorem finish_completesWith (c : ErrCode) {f : State → State} {s : State}
    (hstatus : (f s).status = s.status) (hie : (f s).ie = s.ie) :
    CompletesWith s (finish c f s) c := by
  by_cases hc : c = .ok
  · subst hc
    exact ⟨f s, finish_ok f s, hstatus, hie, fun hne => absurd rfl hne⟩
  · exact ⟨s, finish_error hc f s, rfl, rfl, fun _ => rfl⟩

theorem exec_completesWith (i : Instr) (s : State) : CompletesWith s (exec i s) (checkOf i s) := by
  obtain ⟨hstatus, hie, -⟩ := effectOf_keeps i s
  rw [exec_eq_finish]
  exact finish_completesWith _ hstatus hie

/-- The code of the pending word: its decoding error, or what the checks of its command answer
(R95, R252). -/
def State.pendingCode (s : State) : ErrCode :=
  match decode s.cmd with
  | .ok i => checkOf i s
  | .error c => c

theorem State.pendingCode_of_ok {s : State} {i : Instr} (h : decode s.cmd = .ok i) :
    s.pendingCode = checkOf i s := by
  rw [State.pendingCode, h]

theorem State.pendingCode_of_error {s : State} {c : ErrCode} (h : decode s.cmd = .error c) :
    s.pendingCode = c := by
  rw [State.pendingCode, h]

/-- The engine's turn completes any pending word (R111, R250). -/
theorem engineStep_completesWith {s : State} (hbusy : s.status.busy = true) :
    CompletesWith s (engineStep s) s.pendingCode := by
  rcases engineStep_cases s with ⟨hidle, -⟩ | ⟨i, -, hdec, hstep⟩ | ⟨c, -, hdec, hstep⟩
  · simp [hbusy] at hidle
  · rw [hstep, State.pendingCode_of_ok hdec]
    exact exec_completesWith i s
  · rw [hstep, State.pendingCode_of_error hdec]
    exact finish_completesWith c rfl rfl

/-- A completion writes the flags as R112 says, and STATUS alone where the code is an error (R250). -/
theorem CompletesWith.completed {s : State} {r : Result} {c : ErrCode} (h : CompletesWith s r c) :
    ∃ t, r = .next t ∧ Completed s t t.status.errcode ∧
      (t.status.errcode ≠ 0 → t = { s with status := t.status } ∧ SameBytes s t) := by
  obtain ⟨u, hr, hstatus, -, herror⟩ := h
  refine ⟨_, hr, completed_complete_of_status hstatus c, fun hcode => ?_⟩
  have hu : u = s := herror (mt errByte_eq_zero.2 hcode)
  subst hu
  exact ⟨rfl, State.readByte_complete u c⟩

/-- Settles O8: a command and a pending word both end in a completion, and a completion with an error
code leaves out the effect. -/
theorem failingCommandWritesOnlyStatus : Obligations.FailingCommandWritesOnlyStatus := by
  refine ⟨fun i s t h => ?_, fun s hbusy => (engineStep_completesWith hbusy).completed⟩
  obtain ⟨t', ht', -, hframe⟩ := (exec_completesWith i s).completed
  cases ht'.symm.trans h
  exact hframe

/-! The code a pending word completes with (R251, R252). -/

/-- The last three checks of R252, of a word that is legal itself: version, degree, length. -/
def operandCode (opc v d n : Nat) : Nat :=
  if (opc = 4 ∨ opc = 6 ∨ opc = 7 ∨ opc = 8) ∧ ¬ (1 ≤ v ∧ v ≤ 40) then 4
  else if opc = 10 ∧ ¬ (7 ≤ v ∧ v ≤ 40) then 4
  else if (opc = 2 ∨ opc = 3) ∧ ¬ (1 ≤ d ∧ d ≤ 30) then 5
  else if opc = 3 ∧ 4096 < n then 6
  else 0

theorem errByte_ite (p : Prop) [Decidable p] (c : ErrCode) :
    (errByte (if p then .ok else c)).toNat = if ¬ p then (errByte c).toNat else 0 := by
  by_cases hp : p
  · rw [if_pos hp, if_neg (not_not.2 hp)]
    rfl
  · rw [if_neg hp, if_pos hp]

theorem errByte_checkVersion (s : State) :
    (errByte (checkVersion s)).toNat = if ¬ (1 ≤ s.version ∧ s.version ≤ 40) then 4 else 0 :=
  errByte_ite (validVersion s.version) .badVersion

theorem errByte_checkVersionWord (s : State) :
    (errByte (checkVersionWord s)).toNat =
      if ¬ (7 ≤ s.version ∧ s.version ≤ 40) then 4 else 0 := by
  by_cases hv : 7 ≤ s.version ∧ s.version ≤ 40
  · rw [checkVersionWord_eq_ok hv, if_neg (not_not.2 hv)]
    rfl
  · rw [checkVersionWord_eq_badVersion hv, if_pos hv]
    rfl

theorem errByte_checkDegree (s : State) :
    (errByte (checkDegree s)).toNat = if ¬ (1 ≤ s.opDegree ∧ s.opDegree ≤ 30) then 5 else 0 :=
  errByte_ite (1 ≤ s.opDegree ∧ s.opDegree ≤ 30) .badDegree

theorem errByte_checkLength (s : State) :
    (errByte (checkLength s)).toNat = if 4096 < s.opLength then 6 else 0 := by
  unfold checkLength
  split <;> rfl

/-- RS_BLOCK checks d before n (R252). -/
theorem errByte_checkOf_rsBlock (s : State) :
    (errByte (checkOf .rsBlock s)).toNat =
      if ¬ (1 ≤ s.opDegree ∧ s.opDegree ≤ 30) then 5 else if 4096 < s.opLength then 6 else 0 := by
  by_cases hd : 1 ≤ s.opDegree ∧ s.opDegree ≤ 30
  · rw [checkOf_rsBlock_of_degree hd, errByte_checkLength, if_neg (not_not.2 hd)]
  · rw [checkOf_rsBlock_badDegree hd, if_pos hd]
    rfl

/-- A command whose mask index R93 allows answers the code of its opcode's checks. -/
theorem errByte_checkOf {i : Instr} (hwf : i.wellFormed = true) (s : State) :
    (errByte (checkOf i s)).toNat =
      operandCode (opcodeOf i).toNat s.version s.opDegree s.opLength := by
  cases i with
  | nop | gfMul | gridClear => rfl
  | eccEncode | score | selectMask =>
    rw [checkOf, errByte_checkVersion]
    simp [operandCode, opcodeOf]
  | applyMask m =>
    rw [checkOf_applyMask_of_lt (of_decide_eq_true hwf), errByte_checkVersion]
    simp [operandCode, opcodeOf]
  | formatWord m =>
    rw [checkOf, checkMask_eq_ok (of_decide_eq_true hwf)]
    rfl
  | versionWord =>
    rw [checkOf, errByte_checkVersionWord]
    simp [operandCode, opcodeOf]
  | genPoly =>
    rw [checkOf, errByte_checkDegree]
    simp [operandCode, opcodeOf]
  | rsBlock =>
    rw [errByte_checkOf_rsBlock]
    simp [operandCode, opcodeOf]

/-- The word's own checks come first, in the order of R94, then those of its operands. -/
theorem errByte_pendingCode (s : State) :
    let opc := s.cmd.toNat % 256
    let midx := s.cmd.toNat / 256 % 16
    let rsv := s.cmd.toNat / 4096
    (errByte s.pendingCode).toNat =
      if 10 < opc then 1
      else if rsv ≠ 0 ∨ (opc ≠ 6 ∧ opc ≠ 9 ∧ midx ≠ 0) then 2
      else if (opc = 6 ∨ opc = 9) ∧ 8 ≤ midx then 3
      else operandCode opc s.version s.opDegree s.opLength := by
  intro opc midx rsv
  obtain ⟨hbad, hrsv, hmidx, hmask, hlegal⟩ := everyWordDecodesByPriority s.cmd
  by_cases hopc : 10 < opc
  · rw [if_pos hopc, State.pendingCode_of_error (hbad hopc)]
    rfl
  by_cases hreserved : rsv ≠ 0 ∨ (opc ≠ 6 ∧ opc ≠ 9 ∧ midx ≠ 0)
  · have hdec : decode s.cmd = .error .reservedBits := by
      by_cases hzero : rsv = 0
      · obtain ⟨h6, h9, hne⟩ := hreserved.resolve_left (not_not.2 hzero)
        exact hmidx (by omega) hzero h6 h9 hne
      · exact hrsv (by omega) hzero
    rw [if_neg hopc, if_pos hreserved, State.pendingCode_of_error hdec]
    rfl
  by_cases hindex : (opc = 6 ∨ opc = 9) ∧ 8 ≤ midx
  · have hdec : decode s.cmd = .error .invalidMask := hmask (by omega) hindex.1 hindex.2
    rw [if_neg hopc, if_neg hreserved, if_pos hindex, State.pendingCode_of_error hdec]
    rfl
  · obtain ⟨i, hdec, hi, -⟩ := hlegal (by omega) (by omega) (by omega) (by omega)
    have hcode := errByte_checkOf (decode_eq_ok_iff.1 hdec).wellFormed s
    rw [hi] at hcode
    rw [if_neg hopc, if_neg hreserved, if_neg hindex, State.pendingCode_of_ok hdec, hcode]

/-- Settles O9: the step is the engine's turn, which completes the pending word with its code. -/
theorem firstFailingCheckSetsCode : Obligations.FirstFailingCheckSetsCode := by
  intro s ts hhosts hsched hbusy
  obtain ⟨u, hstep, -⟩ := engineStep_completesWith (s := { s with schedule := ts }) hbusy
  have hcode := errByte_pendingCode { s with schedule := ts }
  rw [State.opDegree_eq, State.opLength_eq] at hcode
  exact ⟨_, (step_engineTurn hhosts hsched).trans hstep, hcode⟩

/-! irq (R255, R256). -/

@[simp] theorem State.irq_complete (s : State) (c : ErrCode) : (s.complete c).irq = s.ie :=
  Bool.and_true s.ie

@[simp] theorem State.irq_accept (s : State) (w : Word) : (s.accept w).irq = false :=
  Bool.and_false s.ie

@[simp] theorem State.irq_accessError (s : State) : s.accessError.irq = s.irq := rfl

@[simp] theorem State.irq_rejectWrite (s : State) : s.rejectWrite.irq = s.irq := rfl

theorem CompletesWith.irq_eq {s t : State} {c : ErrCode} (h : CompletesWith s (.next t) c) :
    t.irq = s.ie := by
  obtain ⟨u, ht, -, hie, -⟩ := h
  cases ht
  rw [State.irq_complete, hie]

theorem writeReg_status_irq (s : State) {v : Word} (hv : v.getLsbD 1 = true) :
    (writeReg s .status v).irq = false := by
  simp [writeReg, State.irq, clearOnWrite, hv]

/-- Settles O52: a completion sets DONE, acceptance and a write of 1 clear it, and neither an access
error nor a rejected write touches DONE or IE. -/
theorem interruptFollowsDone : Obligations.InterruptFollowsDone := by
  refine ⟨fun s => rfl, fun s t hbusy ht => ?_, fun s w hidle => ?_, fun s v hv => ?_,
    fun s off n v _ hillegal => ?_, fun s off n v hbusy hgated => ?_⟩
  · exact CompletesWith.irq_eq (ht ▸ engineStep_completesWith hbusy)
  · rw [busWrite_reg (r := .cmd) rfl w (.inl hidle)]
    exact s.irq_accept w
  · rw [busWrite_reg (r := .status) rfl v (.inr rfl)]
    exact writeReg_status_irq s hv
  · rw [busRead_illegal s hillegal, busWrite_illegal s hillegal]
    exact ⟨s.irq_accessError, s.irq_accessError⟩
  · have hreject : busWrite s off n v = s.rejectWrite := by
      rcases hgated with ⟨rfl, hreg⟩ | ⟨rfl, hbyte⟩
      · exact busWrite_gatedReg_busy hbusy v hreg
      · exact busWrite_byte_busy hbusy v hbyte
    rw [hreject, State.irq_rejectWrite]

end Sys2Proof.Machine
end

section
/-!
PROOFS. What a reset leaves (O54, O55): every register at its reset value, free draws in the outputs of
an aborted command, and every other byte as it was.
-/
namespace Sys2Proof.Machine

@[simp] theorem resetPin_mem (s : State) : (resetPin s).mem = (resetBuffers s).1 := rfl

@[simp] theorem resetPin_draws (s : State) : (resetPin s).draws = (resetBuffers s).2 := rfl

/-! Where the draws stand (R282). -/

/-- `t` holds free draws in OUT_BUF[0, out) and in the DARK bits of the square of that side, in its FUNC
bits too where `bothBits` holds, and else the bytes of `s`. -/
structure LeavesDraws (s t : State) (bothBits : Prop) [Decidable bothBits] (out side : Nat) : Prop where
  bytes : SameBytesOutside (fun a => InOut out a ∨ InSquare side a) s t
  outBuf : ∀ j, j < out → t.readByte (0x2000 + j) =
    some ((Config.freeValue (s.draws + j)).setWidth 8)
  dark : ∀ x y, x < side → y < side → (Memory.cellAt t.mem x y).dark =
    (Config.freeValue (s.draws + (y * side + x))).getLsbD 0
  func : ∀ x y, x < 177 → y < 177 → (Memory.cellAt t.mem x y).func =
    if bothBits then (Config.freeValue (s.draws + (y * 177 + x))).getLsbD 1
    else (Memory.cellAt s.mem x y).func
  draws : t.draws = s.draws + out + side * side

theorem Memory.cellAt_congr {m n : List Host.Cell} {x y : Nat}
    (h : Memory.get m (gridAddr x y) = Memory.get n (gridAddr x y)) :
    Memory.cellAt m x y = Memory.cellAt n x y :=
  congrArg cellOfByte (Memory.byteAt_congr h)

/-- A cell whose new byte is listed. -/
theorem Memory.cellAt_of_get {m : List Host.Cell} {x y : Nat} (hx : x < 177) (hy : y < 177) {b : Byte}
    (h : Memory.get m (gridAddr x y) = some b) : Memory.cellAt m x y = cellOfByte b := by
  rw [Memory.cellAt_eq m hx hy, h, Option.getD_some, cellOfByte_and_three]

/-- The byte `drawDark` makes of a cell: the DARK bit of the draw, the FUNC bit of the cell. -/
theorem cellOfByte_drawDark (b : Byte) (w : Word) :
    cellOfByte (b &&& 2 ||| w.setWidth 8 &&& 1) =
      { dark := w.getLsbD 0, func := (cellOfByte b).func } := by
  simp [cellOfByte]

section
variable {s : State} {bothBits : Prop} [Decidable bothBits]

theorem resetPin_noOutputs (hbits : ¬ bothBits) (h : resetBuffers s = (s.mem, s.draws)) :
    LeavesDraws s (resetPin s) bothBits 0 0 where
  bytes a _ := State.readByte_congr fun _ => by rw [resetPin_mem, h]
  outBuf j hj := absurd hj (Nat.not_lt_zero j)
  dark x y hx := absurd hx (Nat.not_lt_zero x)
  func x y _ _ := by rw [resetPin_mem, h, if_neg hbits]
  draws := by rw [resetPin_draws, h]; rfl

theorem resetPin_drawOut (hbits : ¬ bothBits) {n : Nat} (hn : n ≤ 4096)
    (h : resetBuffers s = drawOut s n) :
    LeavesDraws s (resetPin s) bothBits n 0 where
  bytes a ha := by
    refine State.readByte_congr fun _ => ?_
    rw [resetPin_mem, h, get_drawOut, if_neg]
    rintro ⟨hlo, hhi⟩
    unfold outAddr at hlo hhi
    exact ha (.inl ⟨a - 0x2000, by omega, by unfold outAddr; omega⟩)
  outBuf j hj := by
    have hget : Memory.get (drawOut s n).1 (outAddr j) =
        some ((Config.freeValue (s.draws + j)).setWidth 8) := by
      rw [get_drawOut, if_pos (by unfold outAddr; omega)]
      simp [outAddr]
    have hcell : isGridCell (outAddr j) = false := not_gridCell_of_lt (by unfold outAddr; omega)
    rw [← outAddr, State.readByte_of_isBuffer _ (isBuffer_outAddr (by omega)), resetPin_mem, h,
      Memory.byteAt_of_get hget, hcell, if_neg Bool.false_ne_true]
  dark x y hx := absurd hx (Nat.not_lt_zero x)
  func x y _ _ := by
    rw [if_neg hbits, resetPin_mem, h, Memory.cellAt_congr]
    rw [get_drawOut, if_neg]
    unfold gridAddr outAddr
    omega
  draws := by rw [resetPin_draws, h]; rfl

theorem resetPin_drawDark (hbits : ¬ bothBits) (h : resetBuffers s = drawDark s) :
    LeavesDraws s (resetPin s) bothBits 0 (abortSide s) := by
  have hside := abortSide_le s
  have hcell {x y : Nat} (hx : x < abortSide s) (hy : y < abortSide s) :
      Memory.cellAt (resetPin s).mem x y =
        { dark := (Config.freeValue (s.draws + (y * abortSide s + x))).getLsbD 0
          func := (Memory.cellAt s.mem x y).func } := by
    rw [resetPin_mem, h, Memory.cellAt_of_get (by omega) (by omega) (get_drawDark_cell s hx hy),
      cellOfByte_drawDark, Memory.cellAt_eq s.mem (by omega) (by omega), cellOfByte_and_three]
  refine ⟨fun a ha => ?_, fun j hj => absurd hj (Nat.not_lt_zero j), fun x y hx hy => ?_,
    fun x y hx hy => ?_, ?_⟩
  · refine State.readByte_congr fun _ => ?_
    rw [resetPin_mem, h, get_drawDark_outside s fun hin => ha (.inr hin)]
  · rw [hcell hx hy]
  · rw [if_neg hbits]
    by_cases hin : x < abortSide s ∧ y < abortSide s
    · rw [hcell hin.1 hin.2]
    · rw [resetPin_mem, h, Memory.cellAt_congr (get_drawDark_outside s _)]
      rintro ⟨x', y', hx', hy', haddr⟩
      obtain ⟨rfl, rfl⟩ := gridAddr_inj (by omega) (by omega) haddr
      exact hin ⟨hx', hy'⟩
  · rw [resetPin_draws, h]
    rfl

theorem resetPin_drawGrid (hbits : bothBits) (h : resetBuffers s = drawGrid s) :
    LeavesDraws s (resetPin s) bothBits 0 177 := by
  have hcell {x y : Nat} (hx : x < 177) (hy : y < 177) :
      Memory.cellAt (resetPin s).mem x y =
        cellOfByte ((Config.freeValue (s.draws + (y * 177 + x))).setWidth 8) := by
    rw [resetPin_mem, h, Memory.cellAt_of_get hx hy (get_drawGrid_cell s hx hy),
      cellOfByte_and_three]
  refine ⟨fun a ha => ?_, fun j hj => absurd hj (Nat.not_lt_zero j), fun x y hx hy => ?_,
    fun x y hx hy => ?_, ?_⟩
  · have hout : isGridCell a = false :=
      Bool.eq_false_iff.2 fun hin => ha (.inr ((isGridCell_iff a).1 hin))
    unfold State.readByte
    rw [resetPin_mem, h]
    exact s.readByte_fillGrid_outside _ hout
  · rw [hcell hx hy]
    simp [cellOfByte]
  · rw [if_pos hbits, hcell hx hy]
    simp [cellOfByte]
  · rw [resetPin_draws, h]
    rfl

end

/-! The command that the pending word's OPC names (R282). -/

/-- How many bytes of OUT_BUF a reset leaves at draws while a command is pending. -/
def abortOut (s : State) : Nat :=
  if s.cmd.toNat % 256 = 3 then s.opDegree
  else if s.cmd.toNat % 256 = 4 then abortRawCw s else 0

/-- The side of the square that a reset leaves at draws while a command is pending. -/
def abortSquare (s : State) : Nat :=
  if s.cmd.toNat % 256 = 6 ∨ s.cmd.toNat % 256 = 8 then abortSide s
  else if s.cmd.toNat % 256 = 5 then 177 else 0

theorem abortOut_le (s : State) : abortOut s ≤ 4096 := by
  have hdegree := opDegree_lt s
  have hraw := abortRawCw_le s
  unfold abortOut
  split_ifs <;> omega

theorem abortSquare_le (s : State) : abortSquare s ≤ 177 := by
  have hside := abortSide_le s
  unfold abortSquare
  split_ifs <;> omega

/-- A reset while a command is pending leaves draws in the outputs of the command its OPC names, and
nowhere else. -/
theorem resetPin_busy {s : State} (hbusy : s.status.busy = true) :
    LeavesDraws s (resetPin s) (s.cmd.toNat % 256 = 5) (abortOut s) (abortSquare s) := by
  have hbuf := resetBuffers_busy hbusy
  have hout := abortOut_le s
  unfold abortOut abortSquare at *
  by_cases h3 : s.cmd.toNat % 256 = 3
  · rw [if_pos h3] at hbuf hout ⊢
    rw [if_neg (by omega), if_neg (by omega)]
    exact resetPin_drawOut (by omega) hout hbuf
  rw [if_neg h3] at hbuf hout ⊢
  by_cases h4 : s.cmd.toNat % 256 = 4
  · rw [if_pos h4] at hbuf hout ⊢
    rw [if_neg (by omega), if_neg (by omega)]
    exact resetPin_drawOut (by omega) hout hbuf
  rw [if_neg h4] at hbuf ⊢
  by_cases h5 : s.cmd.toNat % 256 = 5
  · rw [if_pos h5] at hbuf ⊢
    rw [if_neg (by omega)]
    exact resetPin_drawGrid h5 hbuf
  rw [if_neg h5] at hbuf ⊢
  by_cases h68 : s.cmd.toNat % 256 = 6 ∨ s.cmd.toNat % 256 = 8
  · rw [if_pos h68] at hbuf ⊢
    exact resetPin_drawDark h5 hbuf
  · rw [if_neg h68] at hbuf ⊢
    exact resetPin_noOutputs h5 hbuf

/-- Settles O55: the model's output locations of the word's OPC are those the statement lists. -/
theorem abortedOutputsAreDraws : Obligations.AbortedOutputsAreDraws := by
  intro s hbusy opc v out side
  have hout : out = abortOut s := by
    unfold abortOut
    rw [State.opDegree_eq]
    rfl
  have hside : side = abortSquare s := rfl
  obtain ⟨hbytes, houtBuf, hdark, hfunc, hdraws⟩ := resetPin_busy hbusy
  rw [hout, hside]
  exact ⟨hbytes, houtBuf, hdark, hfunc, hdraws⟩

/-! What a reset keeps (R280, R281). -/

theorem resetPin_sameBytes {s : State} (hidle : s.status.busy = false) :
    SameBytes s (resetPin s) :=
  fun _ => State.readByte_congr fun _ => by rw [resetPin_mem, resetBuffers_idle hidle]

/-- DATA_BUF is no command's output, so no reset changes it. -/
theorem resetPin_readByte_dataBuf (s : State) {a : Nat} (ha : isDataBuf a = true) :
    (resetPin s).readByte a = s.readByte a := by
  cases hbusy : s.status.busy with
  | false => exact resetPin_sameBytes hbusy a
  | true =>
    obtain ⟨hout, hcell⟩ := isDataBuf_disjoint ha
    refine (resetPin_busy hbusy).bytes a ?_
    rintro (hin | ⟨x, y, hx, hy, haddr⟩)
    · simp [isOutBuf_of_inOut (abortOut_le s) hin] at hout
    · have hside := abortSquare_le s
      have hin := (isGridCell_iff a).2 ⟨x, y, by omega, by omega, haddr⟩
      simp [hin] at hcell

/-- Settles O54: a reset writes every register, keeps the host, and changes no byte but the outputs of
an aborted command. -/
theorem resetRestoresRegisters : Obligations.ResetRestoresRegisters := by
  intro s
  exact ⟨rfl, rfl, engineStep_idle rfl, fun ts hhosts => step_resetTurn hhosts,
    fun i hi => resetPin_readByte_dataBuf s (isDataBuf_of_lt hi), resetPin_sameBytes⟩

end Sys2Proof.Machine
end

section
/-!
PROOFS. That a command's results do not depend on its latency (O59): no host turn touches what the
engine reads or writes while the command is pending.
-/
namespace Sys2Proof.Machine

/-! What the engine sees of a state. -/

/-- `s` as the engine sees it: without what no command reads and no effect writes, that is IE, STATUS
but for BUSY, the host, the turns to come and the count of draws. -/
def State.engineView (s : State) : State :=
  { s with
    ie := false
    status := { State.reset.status with busy := s.status.busy }
    script := []
    pos := 0
    lastRead := 0
    schedule := []
    draws := 0 }

/-- What two states with one view agree on. -/
theorem State.eq_of_engineView_eq {s t : State} (h : t.engineView = s.engineView) :
    t.params = s.params ∧ t.status.busy = s.status.busy ∧ t.result = s.result ∧
      t.bestMask = s.bestMask ∧ t.genDeg = s.genDeg ∧ t.gen = s.gen ∧ t.score = s.score ∧
      t.mem = s.mem := by
  have field {α : Type} (f : State → α) : f t.engineView = f s.engineView := congrArg f h
  exact ⟨field State.params, field (·.status.busy), field State.result, field State.bestMask,
    field State.genDeg, field State.gen, field State.score, field State.mem⟩

theorem checkOf_engineView (i : Instr) (s : State) : checkOf i s.engineView = checkOf i s := by
  cases i <;> rfl

theorem effectOf_engineView (i : Instr) (s : State) :
    effectOf i s.engineView = (effectOf i s).engineView := by
  cases i <;> rfl

/-! The engine's turn by its view (R111, R112). -/

/-- What the pending word makes of the state before it completes: its command's effect where no check
fails, else nothing (R111, R250). -/
def State.afterPending (s : State) : State :=
  match decode s.cmd with
  | .ok i => if checkOf i s = .ok then effectOf i s else s
  | .error _ => s

theorem State.afterPending_of_ok {s : State} {i : Instr} (h : decode s.cmd = .ok i) :
    s.afterPending = if checkOf i s = .ok then effectOf i s else s := by
  rw [State.afterPending, h]

theorem State.afterPending_of_error {s : State} {c : ErrCode} (h : decode s.cmd = .error c) :
    s.afterPending = s := by
  rw [State.afterPending, h]

theorem engineStep_busy {s : State} (hbusy : s.status.busy = true) :
    engineStep s = .next (s.afterPending.complete s.pendingCode) := by
  rcases engineStep_cases s with ⟨hidle, -⟩ | ⟨i, -, hdec, hstep⟩ | ⟨c, -, hdec, hstep⟩
  · simp [hbusy] at hidle
  · rw [hstep, exec_next, State.afterPending_of_ok hdec, State.pendingCode_of_ok hdec]
  · rw [hstep, finish_error (ne_ok_of_decode_eq_error hdec), State.afterPending_of_error hdec,
      State.pendingCode_of_error hdec]

theorem State.pendingCode_engineView (s : State) : s.engineView.pendingCode = s.pendingCode := by
  cases hdec : decode s.cmd with
  | ok i =>
    rw [State.pendingCode_of_ok hdec, State.pendingCode_of_ok (s := s.engineView) hdec,
      checkOf_engineView]
  | error c =>
    rw [State.pendingCode_of_error hdec, State.pendingCode_of_error (s := s.engineView) hdec]

theorem State.afterPending_engineView (s : State) :
    s.engineView.afterPending = s.afterPending.engineView := by
  cases hdec : decode s.cmd with
  | ok i =>
    rw [State.afterPending_of_ok hdec, State.afterPending_of_ok (s := s.engineView) hdec,
      checkOf_engineView, effectOf_engineView]
    exact (apply_ite State.engineView _ _ _).symm
  | error c =>
    rw [State.afterPending_of_error hdec, State.afterPending_of_error (s := s.engineView) hdec]

/-- The code of the pending word, and what it makes of the state, are functions of the engine's view. -/
theorem pending_congr {s t : State} (h : t.engineView = s.engineView) :
    t.pendingCode = s.pendingCode ∧ t.afterPending.engineView = s.afterPending.engineView := by
  constructor
  · rw [← t.pendingCode_engineView, h, s.pendingCode_engineView]
  · rw [← t.afterPending_engineView, h, s.afterPending_engineView]

/-! A host turn while a command is pending (R67, R70). -/

/-- `t` differs from `s` at most in what the engine does not see, and not in the turns to come. -/
def KeepsPending (s t : State) : Prop := t.engineView = s.engineView ∧ t.schedule = s.schedule

theorem busRead_keepsPending (s : State) (off n : Nat) : KeepsPending s (busRead s off n).2 := by
  rcases busRead_cases s off n with
    ⟨r, -, -, h⟩ | ⟨r, -, -, h⟩ | ⟨a, -, -, h⟩ | ⟨a, -, -, h⟩ | ⟨-, h⟩ <;> rw [h] <;>
    exact ⟨rfl, rfl⟩

/-- Of the registers whose write is honoured while a command is pending, the host can change CTRL and
STATUS only (R67). -/
theorem writeReg_keepsPending {r : Reg} (hr : gatedReg r = false) (s : State) (v : Word) :
    KeepsPending s (writeReg s r v) := by
  cases r with
  | cmd | config | arg0 | arg1 => cases hr
  | _ => exact ⟨rfl, rfl⟩

theorem busWrite_keepsPending {s : State} (hbusy : s.status.busy = true) (off n : Nat) (v : Word) :
    KeepsPending s (busWrite s off n v) := by
  rcases busWrite_cases s off n v with
    ⟨r, -, hgated, h⟩ | ⟨a, -, hidle, -⟩ | ⟨-, -, h⟩ | ⟨-, h⟩
  · rw [hbusy, Bool.true_and] at hgated
    rw [h]
    exact writeReg_keepsPending hgated s v
  · simp [hbusy] at hidle
  · rw [h]
    exact ⟨rfl, rfl⟩
  · rw [h]
    exact ⟨rfl, rfl⟩

theorem platformRead_keepsPending (s : State) (addr n : Nat) :
    KeepsPending s (platformRead s addr n).2 := by
  unfold platformRead
  cases windowOffset s.params.pBase addr with
  | none => exact ⟨rfl, rfl⟩
  | some off => exact busRead_keepsPending s off n

theorem platformWrite_keepsPending {s : State} (hbusy : s.status.busy = true) (addr n : Nat)
    (v : Word) : KeepsPending s (platformWrite s addr n v) := by
  unfold platformWrite
  cases windowOffset s.params.pBase addr with
  | none => exact ⟨rfl, rfl⟩
  | some off => exact busWrite_keepsPending hbusy off n v

theorem hostStep_keepsPending {s t : State} (hbusy : s.status.busy = true)
    (ht : hostStep s = .next t) : KeepsPending s t := by
  rcases hostStep_cases s with
    ⟨p, h⟩ | ⟨addr, n, h⟩ | ⟨addr, n, v, h⟩ | ⟨v, mask, l, -, -, h⟩ <;> cases h.symm.trans ht
  · exact ⟨rfl, rfl⟩
  · exact platformRead_keepsPending s addr n
  · exact platformWrite_keepsPending hbusy addr n v

/-! Any number of host turns. -/

theorem run_succ_eq_next {M : Host.Core} {k : Nat} {s u : M.State}
    (h : M.run (k + 1) s = .next u) : ∃ t, M.step s = .next t ∧ M.run k t = .next u := by
  unfold Host.Core.run at h
  cases hstep : M.step s with
  | next t => exact ⟨t, rfl, by rwa [hstep] at h⟩
  | fault r => rw [hstep] at h; cases h
  | refused r => rw [hstep] at h; cases h

/-- A scheduled host turn is used up and leaves the pending command as it was. -/
theorem step_hostTurn_engineView {s t : State} {ts : List Turn} (hhosts : s.params.hosts ≤ 1)
    (hbusy : s.status.busy = true) (hsched : s.schedule = .host :: ts) (ht : step s = .next t) :
    t.engineView = s.engineView ∧ t.schedule = ts := by
  rw [step_hostTurn hhosts hsched] at ht
  exact hostStep_keepsPending (s := { s with schedule := ts }) hbusy ht

/-- Host turns only, before the turns `ts`, leave the pending command as it was. -/
theorem run_hostTurns {s u : State} {k : Nat} {ts : List Turn} (hhosts : s.params.hosts ≤ 1)
    (hbusy : s.status.busy = true) (hsched : s.schedule = List.replicate k .host ++ ts)
    (hrun : Host.Core.run Sys2Proof.core k s = .next u) :
    u.engineView = s.engineView ∧ u.schedule = ts := by
  induction k generalizing s with
  | zero => cases hrun; exact ⟨rfl, hsched⟩
  | succ k ih =>
    obtain ⟨t, hstep, hrest⟩ := run_succ_eq_next hrun
    obtain ⟨hview, htsched⟩ := step_hostTurn_engineView hhosts hbusy hsched hstep
    obtain ⟨hparams, htbusy, -⟩ := State.eq_of_engineView_eq hview
    obtain ⟨huview, husched⟩ := ih (hparams ▸ hhosts) (htbusy.trans hbusy) htsched hrest
    exact ⟨huview.trans hview, husched⟩

/-- Settles O59: the host turns leave the engine's view as it was, and the engine's turn completes the
pending word with a code and with results that are functions of that view. -/
theorem latencyDoesNotChangeResults : Obligations.LatencyDoesNotChangeResults := by
  intro s s' k ts hhosts hbusy hsched hrun
  obtain ⟨hview, hsched'⟩ := run_hostTurns hhosts hbusy hsched hrun
  obtain ⟨hparams, hbusy', -⟩ := State.eq_of_engineView_eq hview
  obtain ⟨hcode, heffect⟩ := pending_congr (t := { s' with schedule := ts }) hview
  obtain ⟨-, -, hresults⟩ := State.eq_of_engineView_eq heffect
  have hlate := (step_engineTurn (hparams ▸ hhosts) hsched').trans
    (engineStep_busy (hbusy'.trans hbusy))
  exact ⟨_, _, engineStep_busy hbusy, hlate, rfl, rfl, congrArg errByte hcode, hresults⟩

end Sys2Proof.Machine
end
